-- ==== Sys2Proof/Word.lean ====
section
/-! DEFINITION. The word types of the hardware (spec/00_scope.md section 6: bytes, u16, u32, all unsigned). -/

namespace Sys2Proof

/-- A byte, the unit of every buffer, of the transport and of most registers. -/
abbrev Byte := BitVec 8

/-- A u16: the `TMO` field and the register `TMOR`. -/
abbrev Half := BitVec 16

/-- A u32: a command word, `FWVER`, a tick count (`TICK_W = 32`, spec/92_eei_decisions.md D9). -/
abbrev Word := BitVec 32

end Sys2Proof
end

