-- ==== Sys2Proof/Config.lean ====
section
/-! DEFINITION. What an implementation fixes (spec/00_scope.md R4) and the free values of the environment
(R8). The OPEN parameters and the free values are opaque constants without a body: no proof can see one, so
whatever is proved holds for every choice of them. -/

namespace Sys2Proof

/-- The OPEN fields of the configuration record `P` (R4, spec/92_eei_decisions.md, spec/93_implementation_defined.md U13).
The three lists of fixed params are cut to what the constraint of spec/92_eei_decisions.md allows where they are
used (Machine/Operands.lean): notes/assumptions/5.md. -/
structure Params where
  preamble : Byte
  start1 : Byte
  start2 : Byte
  postamble : Byte
  /-- Direction byte, host to chip. -/
  dirH2C : Byte
  /-- Direction byte, chip to host; no rule reads it (R4). -/
  dirC2H : Byte
  /-- The "data write" marker. -/
  markDW : Byte
  /-- The "data read" marker. -/
  markDR : Byte
  opcGetFw : Byte
  opcSam : Byte
  samParams : List Byte
  opcRfcfg : Byte
  retryPrefix : List Byte
  opcInlist : Byte
  inlistPrefix : List Byte
  fwHeader : Vector Byte 6
  samStatusOk : Byte
  /-- `DEFAULT_TIMEOUT_MS`, below `2^32`. -/
  defaultTimeoutMs : Word
deriving DecidableEq, Repr, Inhabited

namespace Config

/-- `RB_CAP`. -/
def rbCap : Nat := 64
/-- `PARAMS_MAX`. -/
def paramsMax : Nat := 63
/-- `CB_CAP` (spec/92_eei_decisions.md D3). -/
def cbCap : Nat := 64
/-- `N_ACK`. -/
def nAck : Nat := 6
/-- `N_FW`. -/
def nFw : Nat := 12
/-- `N_SAM`. -/
def nSam : Nat := 8
/-- `N_PT`. -/
def nPt : Nat := 20
/-- `FW_OFS`. -/
def fwOfs : Nat := 6
/-- `SAM_OFS`. -/
def samOfs : Nat := 6
/-- `PT_COUNT_OFS`. -/
def ptCountOfs : Nat := 7
/-- `PT_COUNT_OK`. -/
def ptCountOk : Byte := 1
/-- `PT_UIDLEN_OFS`. -/
def ptUidLenOfs : Nat := 12
/-- `PT_UID_OFS`. -/
def ptUidOfs : Nat := 13
/-- `UID_MAX`. -/
def uidMax : Nat := 7
/-- The constant `ACK` (R4, spec/30_encoding.md R70). -/
def ack : List Byte := [0x00, 0x00, 0xFF, 0x00, 0xFF, 0x00]

/-- The engine's configuration record `P`: OPEN (R4), notes/assumptions/5.md. -/
opaque params : Params

/-- FREE VALUE: the answer of a `ready()` whose answer is not listed in the state (R8), notes/assumptions/2.md. -/
opaque readyAnswer : Nat → Bool
/-- FREE VALUE: the answer of a `tick()` whose answer is not listed in the state (R8), notes/assumptions/2.md. -/
opaque tickAnswer : Nat → Word
/-- FREE VALUE: the answer of a `recv()` whose answer is not listed in the state (R8), notes/assumptions/2.md. -/
opaque recvAnswer : Nat → Byte

/-- The reference set `P0` (R5, spec/93_implementation_defined.md G1 to G14): PRESUMED by the spec from general
knowledge, for tests only; the machine never reads it (notes/assumptions/13.md). -/
def p0 : Params where
  preamble := 0x00
  start1 := 0x00
  start2 := 0xFF
  postamble := 0x00
  dirH2C := 0xD4
  dirC2H := 0xD5
  markDW := 0x01
  markDR := 0x03
  opcGetFw := 0x02
  opcSam := 0x14
  samParams := [0x01, 0x14, 0x01]
  opcRfcfg := 0x32
  retryPrefix := [0x05, 0xFF, 0x01]
  opcInlist := 0x4A
  inlistPrefix := [0x01]
  fwHeader := #v[0x00, 0xFF, 0x06, 0xFA, 0xD5, 0x03]
  samStatusOk := 0x15
  defaultTimeoutMs := 1000

end Config

end Sys2Proof
end

