-- ==== Sys2Proof/Machine/State.lean ====
section
/-! DEFINITION. The state of the engine (spec/10_state.md R10 to R27, spec/20_memory.md R40 to R42), the line of
pseudocode that is the sequencer's unit (R16), the events of the transport (spec/00_scope.md R7), the moves of the
host (spec/20_memory.md R43, spec/30_encoding.md R72), and the ways a step can stop. -/

namespace Sys2Proof.Machine

/-- The status codes of `ERR` (R13, spec/60_exceptions.md R150). -/
inductive Err where
  | ok
  | initFailure
  | transportTimeout
  | ackMismatch
  | responseStructureMismatch
  | noTagFound
  | multipleTagsUnsupported
  | invalidParameter
deriving DecidableEq, Repr

/-- The handshake states of `HS` (R14, spec/43_handshake.md R110). -/
inductive Hs where
  | idle
  | sent
  | waitingReady1
  | ackReceived
  | waitingReady2
  | responseReady
  | timeout
deriving DecidableEq, Repr

/-- The events between the engine and its environment (spec/00_scope.md R7 and section 6). An event that has an
answer records it. -/
inductive Event where
  | select (active : Bool)
  | settle
  | send (b : Byte)
  | recv (b : Byte)
  | ready (r : Bool)
  | tick (t : Word)
deriving DecidableEq, Repr

/-- The budget a ready-wait compares with (R107, spec/45_host_ops.md R143). -/
inductive Budget where
  /-- `zext_32(TMOR)`. -/
  | tmor
  /-- `DEFAULT_TIMEOUT_MS`. -/
  | fixed (ms : Word)
deriving DecidableEq, Repr

/-- One line of an operation's pseudocode: what `PHASE` can name (R16). Bodies that make no transport event
(the checksum operations, the ACK compare, the parsers) are one line each. -/
inductive Line where
  /-- `if BOUND == 0 then raise InitFailure` -/
  | requireBound
  /-- `if ARGR < 1 or ARGR > CB_CAP then raise InvalidParameter` -/
  | requireCbCount
  /-- `if ARGR > RB_CAP then raise InvalidParameter` -/
  | requireRbCount
  /-- `require CB[0..n-1] written` -/
  | requireCb (n : Nat)
  /-- `CB[i] <- b` (R136, R141) -/
  | loadCb (i : Nat) (b : Byte)
  /-- `HS <- h` -/
  | setHs (h : Hs)
  /-- `LENR <- v` -/
  | loadLen (v : Byte)
  /-- `select(a)` -/
  | select (a : Bool)
  /-- `settle` -/
  | settle
  /-- `send(b)`, `b` a constant of `P` -/
  | send (b : Byte)
  /-- `send(LENR)` -/
  | sendLen
  /-- `send(neg8(LENR))` -/
  | sendLcs
  /-- `ACC <- b` -/
  | startAcc (b : Byte)
  /-- The entry of a loop over `IDX`: `IDX <- 0` (R16). -/
  | enterLoop
  /-- `send(CB[i]); ACC <- add8(ACC, CB[i])` -/
  | sendCb (i : Nat)
  /-- `send(neg8(ACC))` -/
  | sendDcs
  /-- `T0 <- tick()` -/
  | startWait
  /-- One round of the poll loop (R107); `inExchange` says whether a timeout sets `HS` (R111, R156). -/
  | poll (budget : Budget) (inExchange : Bool)
  /-- `ACKBUF[i] <- recv()` -/
  | recvAck (i : Nat)
  /-- `if not ack_match(ACKBUF[0..5]) then raise AckMismatch` -/
  | checkAck (inExchange : Bool)
  /-- `RB[i] <- recv()` -/
  | recvRb (i : Nat)
  /-- The body of `INIT` (R135). -/
  | bind
  /-- The body of `CSUM_LCS` (R86). -/
  | csumLcs
  /-- The body of `CSUM_DCS` after its range check (R87), with the direction byte. -/
  | csumDcs (dir : Byte)
  /-- The body of `CSUM_VERIFY` (R88). -/
  | csumVerify
  /-- The body of `ACK_MATCH` (R91). -/
  | ackMatch
  /-- The body of `PARSE_FWVER` (R123), with `FW_HEADER`. -/
  | parseFwver (header : List Byte)
  /-- The body of `PARSE_SAM` (R124), with `SAM_STATUS_OK`. -/
  | parseSam (statusOk : Byte)
  /-- The body of `PARSE_TARGET` (R127). -/
  | parseTarget
  /-- The end of a reserved operation (R65): `raise InvalidParameter`. -/
  | rejectOp
  /-- `return Ok` (R156). -/
  | finish
deriving DecidableEq, Repr

/-- A move of the host or of the platform, the inputs of the engine (R43, R63, R72, spec/70_reset_and_hazards.md R170). -/
inductive HostMove where
  /-- A line of a host program: write the command word to `CMD`, then wait until `STATUS.BUSY = 0` (R72). -/
  | op (w : Word)
  /-- The wait of such a line, while the operation it started is still running. -/
  | wait
  /-- A bare 32-bit write to `CMD`, the host not waiting. -/
  | cmd (w : Word)
  /-- The host leaves the engine to take one event. -/
  | letRun
  /-- An 8-bit write to a register number (`WR CB[i], b` of R72). -/
  | write (reg b : Byte)
  /-- A read of a register number (`RD name` of R72). -/
  | read (reg : Byte)
  /-- The reset input (R170). -/
  | reset
deriving DecidableEq, Repr

/-- A file of bytes by index (`CB`, `RB`, `ACKBUF`, `UID`): index and byte pairs, indexes strictly rising. An index
without an entry is unwritten and holds no value (R25), so no entry can equal what an unlisted index reads as. -/
abbrev Memory := List Host.Cell

/-- A result register or buffer cell, as a fault names it (R25). -/
inductive DataCell where
  | res8
  | fwver
  | uidlen
  | uid (i : Nat)
  | cb (i : Nat)
  | rb (i : Nat)
  | ackbuf (i : Nat)
deriving DecidableEq, Repr

/-- The answers the environment will give to one of its primitives: those listed, the next first, and after them free
values, numbered by a counter (notes/assumptions/2.md). -/
structure Answers (α : Type) where
  listed : List α
  asked : Nat
deriving DecidableEq, Repr

/-- The machine: the engine's state (R10), then what the model holds of the environment and of the host. -/
structure State where
  /-- `BOUND` (R11). -/
  bound : Bool
  /-- `BUSY` (R12). -/
  busy : Bool
  /-- `ERR` (R13). -/
  err : Err
  /-- `HS` (R14). -/
  hs : Hs
  /-- `SEL` (R15). -/
  sel : Bool
  /-- `SEQ.OPR` (R16). -/
  opr : Byte
  /-- `SEQ.PHASE` (R16) as a continuation: the lines still to run, the empty list being `IDLE`. -/
  phase : List Line
  /-- `SEQ.IDX` (R16). -/
  idx : BitVec 7
  /-- `ARGR` (R17). -/
  argr : Byte
  /-- `TMOR` (R17). -/
  tmor : Half
  /-- `ACC` (R18). -/
  acc : Byte
  /-- `LENR` (R19). -/
  lenr : Byte
  /-- `T0` (R20). -/
  t0 : Word
  /-- `RES8` (R21), none while unwritten (R25). -/
  res8 : Option Byte
  /-- `FWVER` (R22), none while unwritten (R25). -/
  fwver : Option Word
  /-- `UIDLEN` (R23), none while unwritten (R25). -/
  uidlen : Option Byte
  /-- `UID[0..6]` (R24). -/
  uid : Memory
  /-- `CB[0..63]` (R40). -/
  cb : Memory
  /-- `RB[0..63]` (R41). -/
  rb : Memory
  /-- `ACKBUF[0..5]` (R42). -/
  ackbuf : Memory
  /-- The model's own: the answers to come of `ready()` (R8). -/
  readyIn : Answers Bool
  /-- The model's own: the answers to come of `tick()` (R8). -/
  tickIn : Answers Word
  /-- The model's own: the answers to come of `recv()` (R8). -/
  recvIn : Answers Byte
  /-- The model's own: the transport events so far, the oldest first (R7). -/
  trace : List Event
  /-- The model's own: the host's moves to come, the next first (R72). -/
  host : List HostMove
  /-- The model's own: the register numbers the host has read and the values it noted (R72), the oldest first. -/
  noted : List (Byte × Word)
deriving DecidableEq, Repr

/-- The state after reset (R27, R170). The last six fields are the model's own and start empty
(notes/assumptions/2.md, 3.md, 4.md). -/
def State.reset : State where
  bound := false
  busy := false
  err := .ok
  hs := .idle
  sel := false
  opr := 0
  phase := []
  idx := 0
  argr := 0
  tmor := 0
  acc := 0
  lenr := 0
  t0 := 0
  res8 := none
  fwver := none
  uidlen := none
  uid := []
  cb := []
  rb := []
  ackbuf := []
  readyIn := ⟨[], 0⟩
  tickIn := ⟨[], 0⟩
  recvIn := ⟨[], 0⟩
  trace := []
  host := []
  noted := []

/-- The two conditions without defined behaviour that the spec calls faults (spec/60_exceptions.md R162). -/
inductive Fault where
  /-- Raised by a read, by the host or by the engine, of a result register or buffer cell nothing has written since
  reset (R25, R162 (b)). Safe: the run stops, and the spec gives no state after it. -/
  | unwrittenRead (cell : DataCell)
  /-- Raised by the body of `PARSE_TARGET` when `RB[12] > 7` (R126, R127, R162 (a)). Safe: the run stops, and the spec
  forbids any value or status for it. -/
  | uidOverrun (length : Byte)
deriving DecidableEq, Repr

/-- What the machine has no move for. -/
inductive Refusal where
  /-- Raised by `exec` for an operation without a meaning yet; safe. No arm of this model answers it. -/
  | notModelled (mnemonic : String)
  /-- Raised by a host access outside the register map, or against the direction the map gives the register
  (spec/93_implementation_defined.md U6: "the host has no such move in the model"). Safe. -/
  | noSuchHostMove (reg : Byte)
  /-- Raised by the reset input while `BUSY = 1` (spec/93_implementation_defined.md U5: "the model has no such
  move"). Safe. -/
  | resetWhileBusy
deriving DecidableEq, Repr

end Sys2Proof.Machine
end

