-- ==== Sys2Proof/Machine/Arith.lean ====
section
/-! DEFINITION. All the arithmetic of the hardware (spec/40_checksum.md R80 to R84 and R89, spec/43_handshake.md R106,
spec/44_response_parser.md R122). -/

namespace Sys2Proof.Machine

/-- R80: 8-bit addition that wraps and drops the carry. -/
def add8 (a b : Byte) : Byte := a + b

/-- R81: the bitwise complement. -/
def not8 (a : Byte) : Byte := ~~~a

/-- R81: the two's complement, `~a + 1`. -/
def neg8 (a : Byte) : Byte := add8 (not8 a) 1

/-- R82: the mathematical sum of a byte string, mod 256. -/
def sum8 (s : List Byte) : Byte := BitVec.ofNat 8 (s.map BitVec.toNat).sum

/-- R82, R84: the accumulator's way to the same sum, one byte at a time from `acc`. -/
def accumulate (acc : Byte) (s : List Byte) : Byte := s.foldl add8 acc

/-- R83: the length checksum of a length byte. -/
def lcs (len : Byte) : Byte := neg8 len

/-- R83: the data checksum of a direction byte and frame data. -/
def dcs (dir : Byte) (d : List Byte) : Byte := neg8 (sum8 (dir :: d))

/-- R66: the length byte of `n` bytes of frame data. -/
def lengthByte (n : Nat) : Byte := BitVec.ofNat 8 (n + 1)

/-- R66: the command frame of frame data `d`. -/
def frameBytes (P : Params) (d : List Byte) : List Byte :=
  [P.preamble, P.start1, P.start2, lengthByte d.length, lcs (lengthByte d.length), P.dirH2C] ++ d ++
    [dcs P.dirH2C d, P.postamble]

/-- R106: elapsed milliseconds, a wrapping 32-bit subtraction. -/
def elapsed (t0 t : Word) : Word := t - t0

/-- R122: four bytes packed big-endian. -/
def be32 (b0 b1 b2 b3 : Byte) : Word :=
  (b0.setWidth 32 <<< 24) ||| (b1.setWidth 32 <<< 16) ||| (b2.setWidth 32 <<< 8) ||| b3.setWidth 32

end Sys2Proof.Machine
end

