-- ==== Sys2Proof/Machine/Flags.lean ====
section
/-! DEFINITION. Every flag and status computation: the verdicts of `RES8` (spec/10_state.md R21), the ACK matcher
(spec/41_ack_detector.md R90), the response tests (spec/44_response_parser.md R121, R125), the numbers of `ERR` and
`HS` (R13, R14), and the `STATUS` and `HSTATE` bytes (spec/20_memory.md R43). -/

namespace Sys2Proof.Machine

/-- R85: the length check. -/
def lenOk (len c : Byte) : Bool := add8 len c == 0

/-- R85: the data check of direction byte plus frame data. -/
def dataOk (b : List Byte) (c : Byte) : Bool := add8 (sum8 b) c == 0

/-- R88: `RES8` of `CSUM_VERIFY`: bit 0 `LEN_OK`, bit 1 `DATA_OK`, bits 7:2 zero. -/
def verifyFlags (len dat : Bool) : Byte := (0#6 ++ BitVec.ofBool dat ++ BitVec.ofBool len : BitVec 8)

/-- R90: the matcher, byte for byte and positional (R93). -/
def ackMatches (b : List Byte) : Bool := b == Config.ack

/-- R91: `RES8` of `ACK_MATCH`: bit 0 `MATCH`, bits 7:1 zero. -/
def matchFlag (m : Bool) : Byte := (0#7 ++ BitVec.ofBool m : BitVec 8)

/-- R121: the firmware header test. -/
def headerMatches (header rb : List Byte) : Bool := rb.take 6 == header

/-- R125: the tag-count policy; `ok` where exactly one tag was found. -/
def tagCountErr (c : Byte) : Err :=
  if c = 0 then .noTagFound else if c = Config.ptCountOk then .ok else .multipleTagsUnsupported

/-- R13, R150: the number of a status code. -/
def errCode : Err → BitVec 4
  | .ok => 0
  | .initFailure => 1
  | .transportTimeout => 2
  | .ackMismatch => 3
  | .responseStructureMismatch => 4
  | .noTagFound => 5
  | .multipleTagsUnsupported => 6
  | .invalidParameter => 7

/-- R14: the number of a handshake state. -/
def hsCode : Hs → BitVec 3
  | .idle => 0
  | .sent => 1
  | .waitingReady1 => 2
  | .ackReceived => 3
  | .waitingReady2 => 4
  | .responseReady => 5
  | .timeout => 6

/-- R13: the derived flag `FAIL = (ERR != 0)`. -/
def failFlag (e : Err) : Bool := errCode e != 0

/-- R43: `STATUS`, from bit 7 down `FAIL`, `SEL`, `BOUND`, `BUSY`, `ERR`. -/
def statusByte (s : State) : Byte :=
  (BitVec.ofBool (failFlag s.err) ++ BitVec.ofBool s.sel ++ BitVec.ofBool s.bound ++ BitVec.ofBool s.busy ++
    errCode s.err : BitVec 8)

/-- R43: `HSTATE`, bits 2:0 `HS`, bits 7:3 zero. -/
def hstateByte (s : State) : Byte := (0#5 ++ hsCode s.hs : BitVec 8)

end Sys2Proof.Machine
end

