-- ==== Sys2Proof/Syntax.lean ====
section
/-! DEFINITION. The operations of the command word: one constructor per row of the operation map
(spec/30_encoding.md R62, spec/opcode_table.json). Every operation carries both operand fields of format CW
as the plain unsigned integers R61 says they are, also where the map marks a field "ignored": acceptance
latches both of them whatever the operation (R63). -/

namespace Sys2Proof

inductive Instr where
  /-- `INIT` (R135): `arg` bit 0 says that the handle is valid. -/
  | init (arg tmo : Nat)
  /-- `GET_FIRMWARE_VERSION` (R137): both fields ignored. -/
  | getFirmwareVersion (arg tmo : Nat)
  /-- `CONFIGURE_SAM` (R138): both fields ignored. -/
  | configureSam (arg tmo : Nat)
  /-- `SET_PASSIVE_ACTIVATION_RETRIES` (R139): `arg` is `max_retries`. -/
  | setPassiveActivationRetries (arg tmo : Nat)
  /-- `READ_PASSIVE_TARGET_ID` (R140): `arg` is `baudrate`, `tmo` is `timeout_ms`. -/
  | readPassiveTargetId (arg tmo : Nat)
  /-- `CSUM_LCS` (R86): `arg` is the length byte. -/
  | csumLcs (arg tmo : Nat)
  /-- `CSUM_DCS` (R87): `arg` is `n`, 1 to 64. -/
  | csumDcs (arg tmo : Nat)
  /-- `CSUM_VERIFY` (R88): `arg` is the offset in `RB` of the length byte. -/
  | csumVerify (arg tmo : Nat)
  /-- `WRITE_COMMAND` (R97): `arg` is `n`, 1 to 64. -/
  | writeCommand (arg tmo : Nat)
  /-- `WAIT_READY` (R107): `tmo` is the budget in milliseconds. -/
  | waitReady (arg tmo : Nat)
  /-- `READ_ACK` (R92): both fields ignored. -/
  | readAck (arg tmo : Nat)
  /-- `ACK_MATCH` (R91): both fields ignored. -/
  | ackMatch (arg tmo : Nat)
  /-- `READ_DATA` (R108): `arg` is `N`, 0 to 64. -/
  | readData (arg tmo : Nat)
  /-- `EXCHANGE` (R111): `arg` is `n`, 1 to 64; `tmo` is the budget of each wait. -/
  | exchange (arg tmo : Nat)
  /-- `PARSE_FWVER` (R123): both fields ignored. -/
  | parseFwver (arg tmo : Nat)
  /-- `PARSE_SAM` (R124): both fields ignored. -/
  | parseSam (arg tmo : Nat)
  /-- `PARSE_TARGET` (R127): both fields ignored. -/
  | parseTarget (arg tmo : Nat)
deriving DecidableEq, Repr

/-- The `ARG` operand of an operation (R61). -/
def Instr.arg : Instr → Nat
  | .init a _ | .getFirmwareVersion a _ | .configureSam a _ | .setPassiveActivationRetries a _
  | .readPassiveTargetId a _ | .csumLcs a _ | .csumDcs a _ | .csumVerify a _ | .writeCommand a _
  | .waitReady a _ | .readAck a _ | .ackMatch a _ | .readData a _ | .exchange a _ | .parseFwver a _
  | .parseSam a _ | .parseTarget a _ => a

/-- The `TMO` operand of an operation (R61). -/
def Instr.tmo : Instr → Nat
  | .init _ t | .getFirmwareVersion _ t | .configureSam _ t | .setPassiveActivationRetries _ t
  | .readPassiveTargetId _ t | .csumLcs _ t | .csumDcs _ t | .csumVerify _ t | .writeCommand _ t
  | .waitReady _ t | .readAck _ t | .ackMatch _ t | .readData _ t | .exchange _ t | .parseFwver _ t
  | .parseSam _ t | .parseTarget _ t => t

end Sys2Proof
end

