-- ==== Sys2Proof/WellFormed.lean ====
section
/-! DEFINITION. The checks an operation must pass to have a command word: each operand fits its field of
format CW (spec/30_encoding.md R61). No other check stands here: a count out of range is a well-formed
command word that ends with InvalidParameter (R64), and an ignored field may hold anything. -/

namespace Sys2Proof

/-- `ARG` fits bits 23:16. -/
def Instr.argFits (i : Instr) : Bool := decide (i.arg < 256)

/-- `TMO` fits bits 15:0. -/
def Instr.tmoFits (i : Instr) : Bool := decide (i.tmo < 65536)

/-- An operation that some command word encodes. -/
def Instr.wellFormed (i : Instr) : Bool := i.argFits && i.tmoFits

end Sys2Proof
end

