-- ==== Sys2Proof/Decode.lean ====
section
/-! DEFINITION. The decoder and the encoder of the command word (spec/30_encoding.md R60 to R65). A command
word is one 32-bit write to `CMD`, so there is one length and no byte order to settle. The decoder is total:
every 32-bit value is an operation of R62 or is rejected by name as a reserved `OP` (R65). -/

namespace Sys2Proof

/-- What the decoder answers. -/
inductive Decoded where
  /-- An operation of the map (R62). -/
  | op (i : Instr)
  /-- A reserved operation code (R65): accepted by the engine, ends with InvalidParameter. -/
  | reservedOp (code : Byte)
deriving DecidableEq, Repr

/-- `OP`, bits 31:24 (R61). -/
def opField (w : Word) : Byte := w.extractLsb' 24 8

/-- `ARG`, bits 23:16 (R61). -/
def argField (w : Word) : Byte := w.extractLsb' 16 8

/-- `TMO`, bits 15:0 (R61). -/
def tmoField (w : Word) : Half := w.extractLsb' 0 16

/-- The operation with a given code and operands (the map of R62), or none for a reserved code (R65). -/
def operationOf (code arg tmo : Nat) : Option Instr :=
  match code with
  | 0x00 => some (.init arg tmo)
  | 0x01 => some (.getFirmwareVersion arg tmo)
  | 0x02 => some (.configureSam arg tmo)
  | 0x03 => some (.setPassiveActivationRetries arg tmo)
  | 0x04 => some (.readPassiveTargetId arg tmo)
  | 0x10 => some (.csumLcs arg tmo)
  | 0x11 => some (.csumDcs arg tmo)
  | 0x12 => some (.csumVerify arg tmo)
  | 0x20 => some (.writeCommand arg tmo)
  | 0x21 => some (.waitReady arg tmo)
  | 0x22 => some (.readAck arg tmo)
  | 0x23 => some (.ackMatch arg tmo)
  | 0x24 => some (.readData arg tmo)
  | 0x25 => some (.exchange arg tmo)
  | 0x30 => some (.parseFwver arg tmo)
  | 0x31 => some (.parseSam arg tmo)
  | 0x32 => some (.parseTarget arg tmo)
  | _ => none

/-- The decoder (R61, R62, R65). -/
def decode (w : Word) : Decoded :=
  match operationOf (opField w).toNat (argField w).toNat (tmoField w).toNat with
  | some i => .op i
  | none => .reservedOp (opField w)

/-- The operation code of an operation (R62). -/
def Instr.opcode : Instr → Byte
  | .init _ _ => 0x00
  | .getFirmwareVersion _ _ => 0x01
  | .configureSam _ _ => 0x02
  | .setPassiveActivationRetries _ _ => 0x03
  | .readPassiveTargetId _ _ => 0x04
  | .csumLcs _ _ => 0x10
  | .csumDcs _ _ => 0x11
  | .csumVerify _ _ => 0x12
  | .writeCommand _ _ => 0x20
  | .waitReady _ _ => 0x21
  | .readAck _ _ => 0x22
  | .ackMatch _ _ => 0x23
  | .readData _ _ => 0x24
  | .exchange _ _ => 0x25
  | .parseFwver _ _ => 0x30
  | .parseSam _ _ => 0x31
  | .parseTarget _ _ => 0x32

/-- The encoder: `OP`, `ARG`, `TMO` from bit 31 down (R61). -/
def encode (i : Instr) : Word := i.opcode ++ BitVec.ofNat 8 i.arg ++ BitVec.ofNat 16 i.tmo

/-- The instruction the decoder reads from the `nbits` bits of `w` in the opcode table's numbering, the bits
above `nbits` being 0. One command word is the whole instruction, and the table's bit numbers are R61's. -/
def decodeTableWord (nbits w : Nat) : Option Instr :=
  match decode (BitVec.ofNat 32 (w % 2 ^ nbits)) with
  | .op i => some i
  | .reservedOp _ => none

end Sys2Proof
end

