-- ==== Sys2Proof/Machine/Operands.lean ====
section
/-! DEFINITION. Every operand form (spec/30_encoding.md R61, R64): the two fields as the registers latch them, the
count and offset ranges (spec/60_exceptions.md R155), the budgets (spec/45_host_ops.md R143) and the frame data of
the engine operations (R136). -/

namespace Sys2Proof.Machine

/-- The `ARG` field as `ARGR` latches it (R61, R63). -/
def argByte (arg : Nat) : Byte := BitVec.ofNat 8 arg

/-- The `TMO` field as `TMOR` latches it (R61, R63). -/
def tmoHalf (tmo : Nat) : Half := BitVec.ofNat 16 tmo

/-- A byte operand taken as a count or an offset (R61: a plain unsigned integer). -/
def countOf (arg : Nat) : Nat := (argByte arg).toNat

/-- R155: the range of `n` for the operations that read `CB`. -/
def cbCountOk (n : Nat) : Bool := 1 ≤ n && n ≤ Config.cbCap

/-- R155: the range of `N` for `READ_DATA`. -/
def rbCountOk (n : Nat) : Bool := n ≤ Config.rbCap

/-- R88: the first bound of `CSUM_VERIFY`, computed without wrapping. -/
def verifyOffsetOk (o : Nat) : Bool := o + 2 ≤ Config.rbCap - 1

/-- R88: the second bound of `CSUM_VERIFY`, computed without wrapping. -/
def verifyLengthOk (o len : Nat) : Bool := o + 2 + len ≤ Config.rbCap - 1

/-- R135: bit 0 of `ARG`, "handle valid". -/
def handleValid (argr : Byte) : Bool := argr.getLsbD 0

/-- R107, R143: the budget of a ready-wait. -/
def budgetOf (b : Budget) (tmor : Half) : Word :=
  match b with
  | .tmor => tmor.setWidth 32
  | .fixed ms => ms

/-- R136: the frame data of `GET_FIRMWARE_VERSION`. -/
def getFwData (P : Params) : List Byte := [P.opcGetFw]

/-- R136: the frame data of `CONFIGURE_SAM`. At most 63 params: the constraint on `P` (notes/assumptions/5.md). -/
def samData (P : Params) : List Byte := P.opcSam :: P.samParams.take 63

/-- R136: the frame data of `SET_PASSIVE_ACTIVATION_RETRIES r`, at most 64 bytes (notes/assumptions/5.md). -/
def retriesData (P : Params) (r : Byte) : List Byte := P.opcRfcfg :: P.retryPrefix.take 62 ++ [r]

/-- R136: the frame data of `READ_PASSIVE_TARGET_ID b, t`, at most 64 bytes (notes/assumptions/5.md). -/
def inlistData (P : Params) (b : Byte) : List Byte := P.opcInlist :: P.inlistPrefix.take 62 ++ [b]

end Sys2Proof.Machine
end

