-- ==== Sys2Proof/Machine/Ops.lean ====
section
/-! DEFINITION. The named operations over buffers, registers and the environment, the acceptance of a command word
(spec/30_encoding.md R63) and the one exit of an operation, by `raise` or by `return Ok` (spec/60_exceptions.md
R156). There is no handler and no return from one (R160): the exit leaves the engine idle. -/

namespace Sys2Proof.Machine

/-! ### Buffers (R25, R40 to R42, R45) -/

/-- The byte at an index, none while nothing has written it (R25). -/
def Memory.read : Memory → Nat → Option Byte
  | [], _ => none
  | (j, b) :: rest, i => if i = j then some b else Memory.read rest i

/-- Writes one byte and keeps the canonical form. -/
def Memory.write : Memory → Nat → Byte → Memory
  | [], i, v => [(i, v)]
  | (j, b) :: rest, i, v =>
    if i < j then (i, v) :: (j, b) :: rest
    else if i = j then (i, v) :: rest
    else (j, b) :: Memory.write rest i v

/-- Writes a byte string from an index up. -/
def Memory.writeRange : Memory → Nat → List Byte → Memory
  | m, _, [] => m
  | m, i, b :: bs => Memory.writeRange (Memory.write m i b) (i + 1) bs

/-- What reading a run of cells gives. -/
inductive Cells where
  /-- Every cell is written: their bytes in ascending order. -/
  | bytes (bs : List Byte)
  /-- The first cell of the run that nothing has written. -/
  | unwritten (i : Nat)
deriving DecidableEq, Repr

/-- Reads `n` cells from an index up. -/
def Memory.readRange (m : Memory) : Nat → Nat → Cells
  | _, 0 => .bytes []
  | i, n + 1 =>
    match Memory.read m i with
    | none => .unwritten i
    | some b =>
      match Memory.readRange m (i + 1) n with
      | .bytes bs => .bytes (b :: bs)
      | .unwritten j => .unwritten j

/-- The canonical form: indexes strictly rising. (An unlisted index holds no byte, so no entry can equal it.) -/
abbrev Memory.wf (m : Memory) : Prop := m.Pairwise (fun a b => a.1 < b.1)

/-- Every written index is below the capacity. -/
abbrev Memory.below (cap : Nat) (m : Memory) : Prop := ∀ c ∈ m, c.1 < cap

/-! ### Events and the environment's answers (spec/00_scope.md R7, R8) -/

/-- Records an event. -/
def emit (e : Event) (s : State) : State := { s with trace := s.trace ++ [e] }

/-- `select(a)`: drives chip-select, which `SEL` mirrors (R15). -/
def doSelect (a : Bool) (s : State) : State := emit (.select a) { s with sel := a }

/-- `send(b)`: one byte to the transport, whatever becomes of it (spec/93_implementation_defined.md U7). -/
def doSend (b : Byte) (s : State) : State := emit (.send b) s

/-- The answer that comes next: the first listed one, or else a free value. -/
def Answers.now {α : Type} (free : Nat → α) (a : Answers α) : α :=
  match a.listed with
  | x :: _ => x
  | [] => free a.asked

/-- The answers still to come once one has been given. -/
def Answers.next {α : Type} (a : Answers α) : Answers α :=
  match a.listed with
  | _ :: xs => { a with listed := xs }
  | [] => { a with asked := a.asked + 1 }

/-- The next `n` answers. -/
def Answers.take {α : Type} (free : Nat → α) : Nat → Answers α → List α
  | 0, _ => []
  | n + 1, a => Answers.now free a :: Answers.take free n (Answers.next a)

/-- The answers still to come once `n` have been given. -/
def Answers.skip {α : Type} : Nat → Answers α → Answers α
  | 0, a => a
  | n + 1, a => Answers.skip n (Answers.next a)

/-- The answer the environment gives to `ready()` now. -/
def readyNow (s : State) : Bool := Answers.now Config.readyAnswer s.readyIn

/-- The answer the environment gives to `tick()` now. -/
def tickNow (s : State) : Word := Answers.now Config.tickAnswer s.tickIn

/-- The answer the environment gives to `recv()` now. -/
def recvNow (s : State) : Byte := Answers.now Config.recvAnswer s.recvIn

/-- The state after `ready()`: its answer is used up. -/
def afterReady (s : State) : State := emit (.ready (readyNow s)) { s with readyIn := Answers.next s.readyIn }

/-- The state after `tick()`: its answer is used up. -/
def afterTick (s : State) : State := emit (.tick (tickNow s)) { s with tickIn := Answers.next s.tickIn }

/-- The state after `recv()`: the byte is consumed (R46). -/
def afterRecv (s : State) : State := emit (.recv (recvNow s)) { s with recvIn := Answers.next s.recvIn }

/-! ### Acceptance and exit -/

/-- R63: the acceptance of a command word, in one step: the latches, `BUSY`, and the first line next. -/
def accept (op arg : Byte) (tmo : Half) (lines : List Line) (s : State) : State :=
  { s with opr := op, argr := arg, tmor := tmo, busy := true, phase := lines }

/-- R156: the exit of an operation with a status: `ERR`, then `BUSY` cleared and `PHASE` idle, and nothing more. -/
def endWith (e : Err) (s : State) : State := { s with err := e, busy := false, phase := [] }

/-- R156: `raise E` from a ready-wait or an ACK compare, which in an exchange sets `HS <- TIMEOUT` first. -/
def raiseInHandshake (inExchange : Bool) (e : Err) (s : State) : State :=
  endWith e (if inExchange then { s with hs := .timeout } else s)

/-- What one line does. -/
inductive Verdict where
  /-- The next line follows. -/
  | go (s : State)
  /-- The poll loop goes round again: the same line follows. -/
  | again (s : State)
  /-- The operation has ended. -/
  | done (s : State)
  /-- The run has gone wrong (R162). -/
  | fault (f : Fault)
deriving DecidableEq, Repr

end Sys2Proof.Machine
end

