-- ==== Sys2Proof/Machine/Lines.lean ====
section
/-! DEFINITION. What each line of the operations' pseudocode does to the state, one definition a line or body. -/

namespace Sys2Proof.Machine

/-- R152: `if BOUND == 0 then raise InitFailure`. -/
def lineRequireBound (s : State) : Verdict := if s.bound then .go s else .done (endWith .initFailure s)

/-- R155: `if ARGR < 1 or ARGR > CB_CAP then raise InvalidParameter`. -/
def lineRequireCbCount (s : State) : Verdict :=
  if cbCountOk s.argr.toNat then .go s else .done (endWith .invalidParameter s)

/-- R155: `if ARGR > RB_CAP then raise InvalidParameter`. -/
def lineRequireRbCount (s : State) : Verdict :=
  if rbCountOk s.argr.toNat then .go s else .done (endWith .invalidParameter s)

/-- R97, R111: `for IDX in 0 .. n-1: require CB[IDX] written`, before any event; `IDX` goes to the bound (R16). -/
def lineRequireCb (n : Nat) (s : State) : Verdict :=
  match Memory.readRange s.cb 0 n with
  | .bytes _ => .go { s with idx := BitVec.ofNat 7 n }
  | .unwritten i => .fault (.unwrittenRead (.cb i))

/-- R97: `send(CB[IDX]); ACC <- add8(ACC, CB[IDX])`, and `IDX` goes up by one (R16). -/
def lineSendCb (i : Nat) (s : State) : Verdict :=
  match Memory.read s.cb i with
  | none => .fault (.unwrittenRead (.cb i))
  | some b => .go { doSend b s with acc := add8 s.acc b, idx := BitVec.ofNat 7 (i + 1) }

/-- R107: one round of the poll loop: `ready()` first, and only after a false answer the clock, strictly greater. -/
def linePoll (b : Budget) (inExchange : Bool) (s : State) : Verdict :=
  let s1 := afterReady s
  if readyNow s then .go s1
  else
    let s2 := afterTick s1
    if budgetOf b s.tmor < elapsed s.t0 (tickNow s1) then
      .done (raiseInHandshake inExchange .transportTimeout s2)
    else .again s2

/-- R92: `ACKBUF[IDX] <- recv()`. -/
def lineRecvAck (i : Nat) (s : State) : Verdict :=
  .go { afterRecv s with ackbuf := Memory.write s.ackbuf i (recvNow s), idx := BitVec.ofNat 7 (i + 1) }

/-- R108: `RB[IDX] <- recv()`, the byte unchanged. -/
def lineRecvRb (i : Nat) (s : State) : Verdict :=
  .go { afterRecv s with rb := Memory.write s.rb i (recvNow s), idx := BitVec.ofNat 7 (i + 1) }

/-- R92: `if not ack_match(ACKBUF[0..5]) then raise AckMismatch`; the compare loop takes `IDX` to its bound (R16). -/
def lineCheckAck (inExchange : Bool) (s : State) : Verdict :=
  match Memory.readRange s.ackbuf 0 Config.nAck with
  | .unwritten i => .fault (.unwrittenRead (.ackbuf i))
  | .bytes bs =>
    let s1 := { s with idx := BitVec.ofNat 7 Config.nAck }
    if ackMatches bs then .go s1 else .done (raiseInHandshake inExchange .ackMismatch s1)

/-- R135: the body of `INIT`. -/
def lineBind (s : State) : Verdict :=
  if handleValid s.argr then .go { s with bound := true } else .done (endWith .initFailure s)

/-- R86: the body of `CSUM_LCS`. -/
def lineCsumLcs (s : State) : Verdict := .go { s with res8 := some (neg8 s.argr) }

/-- R87: the body of `CSUM_DCS` after its range check. -/
def lineCsumDcs (dir : Byte) (s : State) : Verdict :=
  match Memory.readRange s.cb 0 s.argr.toNat with
  | .unwritten i => .fault (.unwrittenRead (.cb i))
  | .bytes bs =>
    .go { s with
      acc := accumulate dir bs
      idx := BitVec.ofNat 7 bs.length
      res8 := some (neg8 (accumulate dir bs)) }

/-- R88: the body of `CSUM_VERIFY`, its reads in the order of the pseudocode. -/
def lineCsumVerify (s : State) : Verdict :=
  let o := s.argr.toNat
  if !verifyOffsetOk o then .done (endWith .invalidParameter s)
  else
    match Memory.read s.rb o with
    | none => .fault (.unwrittenRead (.rb o))
    | some len =>
      let l := len.toNat
      if !verifyLengthOk o l then .done (endWith .invalidParameter s)
      else
        match Memory.readRange s.rb (o + 2) l with
        | .unwritten i => .fault (.unwrittenRead (.rb i))
        | .bytes bs =>
          match Memory.read s.rb (o + 1) with
          | none => .fault (.unwrittenRead (.rb (o + 1)))
          | some lc =>
            match Memory.read s.rb (o + 2 + l) with
            | none => .fault (.unwrittenRead (.rb (o + 2 + l)))
            | some dc =>
              .go { s with
                acc := accumulate 0 bs
                idx := BitVec.ofNat 7 l
                res8 := some (verifyFlags (lenOk len lc) (add8 (accumulate 0 bs) dc == 0)) }

/-- R91: the body of `ACK_MATCH`; the compare loop takes `IDX` to its bound (R16). -/
def lineAckMatch (s : State) : Verdict :=
  match Memory.readRange s.ackbuf 0 Config.nAck with
  | .unwritten i => .fault (.unwrittenRead (.ackbuf i))
  | .bytes bs =>
    .go { s with idx := BitVec.ofNat 7 Config.nAck, res8 := some (matchFlag (ackMatches bs)) }

/-- R123: the body of `PARSE_FWVER`; the compare loop over the header (R121) takes `IDX` to its bound (R16). -/
def lineParseFwver (header : List Byte) (s : State) : Verdict :=
  match Memory.readRange s.rb 0 (Config.fwOfs + 4) with
  | .unwritten i => .fault (.unwrittenRead (.rb i))
  | .bytes bs =>
    let s1 := { s with idx := BitVec.ofNat 7 Config.fwOfs }
    if headerMatches header bs then
      .go { s1 with
        fwver := some (be32 (bs.getD Config.fwOfs 0) (bs.getD (Config.fwOfs + 1) 0)
          (bs.getD (Config.fwOfs + 2) 0) (bs.getD (Config.fwOfs + 3) 0)) }
    else .done (endWith .responseStructureMismatch s1)

/-- R124: the body of `PARSE_SAM`. -/
def lineParseSam (statusOk : Byte) (s : State) : Verdict :=
  match Memory.read s.rb Config.samOfs with
  | none => .fault (.unwrittenRead (.rb Config.samOfs))
  | some b => if b = statusOk then .go s else .done (endWith .responseStructureMismatch s)

/-- R126, R127: the UID part of `PARSE_TARGET`, once the tag count is right. -/
def extractUid (s : State) : Verdict :=
  match Memory.read s.rb Config.ptUidLenOfs with
  | none => .fault (.unwrittenRead (.rb Config.ptUidLenOfs))
  | some len =>
    if Config.uidMax < len.toNat then .fault (.uidOverrun len)
    else
      match Memory.readRange s.rb Config.ptUidOfs len.toNat with
      | .unwritten i => .fault (.unwrittenRead (.rb i))
      | .bytes bs =>
        .go { s with
          uidlen := some len
          uid := Memory.writeRange s.uid 0 bs
          idx := BitVec.ofNat 7 len.toNat }

/-- R127: the body of `PARSE_TARGET`: the count is tested before the length is read (R158). -/
def lineParseTarget (s : State) : Verdict :=
  match Memory.read s.rb Config.ptCountOfs with
  | none => .fault (.unwrittenRead (.rb Config.ptCountOfs))
  | some c =>
    match tagCountErr c with
    | .ok => extractUid s
    | e => .done (endWith e s)

end Sys2Proof.Machine
end

