-- ==== Sys2Proof/Machine/Sequencer.lean ====
section
/-! DEFINITION. The sequencer (spec/10_state.md R16): what a line does, the run of an operation to its end or to a
poll round that leaves the wait open, the run of one line, and the start and the run of an operation. -/

namespace Sys2Proof.Machine

/-- What a line does. -/
def runLine (l : Line) (s : State) : Verdict :=
  match l with
  | .requireBound => lineRequireBound s
  | .requireCbCount => lineRequireCbCount s
  | .requireRbCount => lineRequireRbCount s
  | .requireCb n => lineRequireCb n s
  | .loadCb i b => .go { s with cb := Memory.write s.cb i b }
  | .setHs h => .go { s with hs := h }
  | .loadLen v => .go { s with lenr := v }
  | .select a => .go (doSelect a s)
  | .settle => .go (emit .settle s)
  | .send b => .go (doSend b s)
  | .sendLen => .go (doSend s.lenr s)
  | .sendLcs => .go (doSend (neg8 s.lenr) s)
  | .startAcc b => .go { s with acc := b }
  | .enterLoop => .go { s with idx := 0 }
  | .sendCb i => lineSendCb i s
  | .sendDcs => .go (doSend (neg8 s.acc) s)
  | .startWait => .go { afterTick s with t0 := tickNow s }
  | .poll b x => linePoll b x s
  | .recvAck i => lineRecvAck i s
  | .checkAck x => lineCheckAck x s
  | .recvRb i => lineRecvRb i s
  | .bind => lineBind s
  | .csumLcs => lineCsumLcs s
  | .csumDcs dir => lineCsumDcs dir s
  | .csumVerify => lineCsumVerify s
  | .ackMatch => lineAckMatch s
  | .parseFwver h => lineParseFwver h s
  | .parseSam k => lineParseSam k s
  | .parseTarget => lineParseTarget s
  | .rejectOp => .done (endWith .invalidParameter s)
  | .finish => .done (endWith .ok s)

/-- Runs lines in order until the operation ends or a poll round leaves its wait open; then the engine stays busy
with the poll as its next line (R107: "otherwise go round again"). -/
def runLines : List Line → State → Host.Outcome State Fault Refusal
  | [], s => .next { s with phase := [] }
  | l :: rest, s =>
    match runLine l s with
    | .go t => runLines rest t
    | .again t => .next { t with phase := l :: rest }
    | .done t => .next t
    | .fault f => .fault f

/-- Goes on with the operation in flight. -/
def resume (s : State) : Host.Outcome State Fault Refusal := runLines s.phase s

/-- Runs one line of the operation in flight (spec/00_scope.md R7: "one event as one step"). -/
def runOne (s : State) : Host.Outcome State Fault Refusal :=
  match s.phase with
  | [] => .next s
  | l :: rest =>
    match runLine l s with
    | .go t => .next { t with phase := rest }
    | .again t => .next { t with phase := l :: rest }
    | .done t => .next t
    | .fault f => .fault f

/-- The acceptance of an operation whose pseudocode is `lines` (R63). -/
def beginOp (i : Instr) (lines : List Line) (s : State) : State :=
  accept i.opcode (argByte i.arg) (tmoHalf i.tmo) lines s

/-- An operation: accepted and run when the engine is idle; while `BUSY = 1` the command word is not accepted and
changes no state (R63). -/
def perform (i : Instr) (lines : List Line) (s : State) : Host.Outcome State Fault Refusal :=
  if s.busy then .next s else runLines lines (beginOp i lines s)

end Sys2Proof.Machine
end

