-- ==== Sys2Proof/Machine/Checksum.lean ====
section
/-! DEFINITION. The checksum operations (spec/40_checksum.md R86 to R88): their pseudocode and their meanings. -/

namespace Sys2Proof.Machine

/-- R86. -/
def csumLcsLines : List Line := [.csumLcs, .finish]

/-- R87. -/
def csumDcsLines (P : Params) : List Line := [.requireCbCount, .csumDcs P.dirH2C, .finish]

/-- R88. -/
def csumVerifyLines : List Line := [.csumVerify, .finish]

/-- `CSUM_LCS len` (R86). -/
def execCsumLcs (arg tmo : Nat) (s : State) : Host.Outcome State Fault Refusal :=
  perform (.csumLcs arg tmo) csumLcsLines s

/-- `CSUM_DCS n` (R87). -/
def execCsumDcs (arg tmo : Nat) (s : State) : Host.Outcome State Fault Refusal :=
  perform (.csumDcs arg tmo) (csumDcsLines Config.params) s

/-- `CSUM_VERIFY o` (R88). -/
def execCsumVerify (arg tmo : Nat) (s : State) : Host.Outcome State Fault Refusal :=
  perform (.csumVerify arg tmo) csumVerifyLines s

end Sys2Proof.Machine
end

