-- ==== Sys2Proof/Machine/AckDetector.lean ====
section
/-! DEFINITION. The ACK detector (spec/41_ack_detector.md R90 to R94): its pseudocode and its meanings. -/

namespace Sys2Proof.Machine

/-- The framing and compare of R92 after its check: the data-read framing of spec/30_encoding.md R69 with
`ACKBUF` as the destination. -/
def readAckBody (P : Params) (inExchange : Bool) : List Line :=
  [.select true, .settle, .send P.markDR, .enterLoop] ++ (List.range Config.nAck).map .recvAck ++
  [.select false, .checkAck inExchange]

/-- R92. -/
def readAckLines (P : Params) : List Line := [.requireBound] ++ readAckBody P false ++ [.finish]

/-- R91. -/
def ackMatchLines : List Line := [.ackMatch, .finish]

/-- `READ_ACK` (R92). -/
def execReadAck (arg tmo : Nat) (s : State) : Host.Outcome State Fault Refusal :=
  perform (.readAck arg tmo) (readAckLines Config.params) s

/-- `ACK_MATCH` (R91). -/
def execAckMatch (arg tmo : Nat) (s : State) : Host.Outcome State Fault Refusal :=
  perform (.ackMatch arg tmo) ackMatchLines s

end Sys2Proof.Machine
end

