-- ==== Sys2Proof/Machine/FrameBuilder.lean ====
section
/-! DEFINITION. The command-frame builder (spec/42_frame_builder.md R95 to R99, the data-write framing of
spec/30_encoding.md R68): its pseudocode and its meaning. -/

namespace Sys2Proof.Machine

/-- The framing of R97 after its checks, for `n` bytes of frame data in `CB`. -/
def writeBody (P : Params) (n : Nat) : List Line :=
  [.loadLen (lengthByte n), .select true, .settle, .send P.markDW, .send P.preamble, .send P.start1,
    .send P.start2, .sendLen, .sendLcs, .send P.dirH2C, .startAcc P.dirH2C, .enterLoop] ++
  (List.range n).map .sendCb ++ [.sendDcs, .send P.postamble, .select false]

/-- R97. -/
def writeCommandLines (P : Params) (n : Nat) : List Line :=
  [.requireBound, .requireCbCount, .requireCb n] ++ writeBody P n ++ [.finish]

/-- `WRITE_COMMAND n` (R97). -/
def execWriteCommand (arg tmo : Nat) (s : State) : Host.Outcome State Fault Refusal :=
  perform (.writeCommand arg tmo) (writeCommandLines Config.params (countOf arg)) s

end Sys2Proof.Machine
end

