-- ==== Sys2Proof/Machine/Handshake.lean ====
section
/-! DEFINITION. The ready-wait, the data reader and the exchange (spec/43_handshake.md R105 to R114): their
pseudocode and their meanings. -/

namespace Sys2Proof.Machine

/-- R107 after its check: a fresh `T0`, then the poll loop (R113). -/
def waitBody (b : Budget) (inExchange : Bool) : List Line := [.startWait, .poll b inExchange]

/-- R107. -/
def waitReadyLines : List Line := [.requireBound] ++ waitBody .tmor false ++ [.finish]

/-- R108 after its checks: the data-read framing of spec/30_encoding.md R69 with `RB` as the destination. -/
def readBody (P : Params) (n : Nat) : List Line :=
  [.loadLen (BitVec.ofNat 8 n), .select true, .settle, .send P.markDR, .enterLoop] ++ (List.range n).map .recvRb ++
  [.select false]

/-- R108. -/
def readDataLines (P : Params) (n : Nat) : List Line :=
  [.requireBound, .requireRbCount] ++ readBody P n ++ [.finish]

/-- R111 after its `BOUND` and range checks, with the transitions of R110. -/
def exchangeBody (P : Params) (n : Nat) (b : Budget) : List Line :=
  [.requireCb n, .setHs .idle] ++ writeBody P n ++ [.setHs .sent, .setHs .waitingReady1] ++ waitBody b true ++
  readAckBody P true ++ [.setHs .ackReceived, .setHs .waitingReady2] ++ waitBody b true ++ [.setHs .responseReady]

/-- R111. -/
def exchangeLines (P : Params) (n : Nat) : List Line :=
  [.requireBound, .requireCbCount] ++ exchangeBody P n .tmor ++ [.finish]

/-- `WAIT_READY tmo` (R107). -/
def execWaitReady (arg tmo : Nat) (s : State) : Host.Outcome State Fault Refusal :=
  perform (.waitReady arg tmo) waitReadyLines s

/-- `READ_DATA N` (R108). -/
def execReadData (arg tmo : Nat) (s : State) : Host.Outcome State Fault Refusal :=
  perform (.readData arg tmo) (readDataLines Config.params (countOf arg)) s

/-- `EXCHANGE n, tmo` (R111). -/
def execExchange (arg tmo : Nat) (s : State) : Host.Outcome State Fault Refusal :=
  perform (.exchange arg tmo) (exchangeLines Config.params (countOf arg)) s

end Sys2Proof.Machine
end

