-- ==== Sys2Proof/Machine/Parser.lean ====
section
/-! DEFINITION. The response parser (spec/44_response_parser.md R120 to R129): its pseudocode and its meanings. -/

namespace Sys2Proof.Machine

/-- R123. -/
def parseFwverLines (P : Params) : List Line := [.parseFwver P.fwHeader.toList, .finish]

/-- R124. -/
def parseSamLines (P : Params) : List Line := [.parseSam P.samStatusOk, .finish]

/-- R127. -/
def parseTargetLines : List Line := [.parseTarget, .finish]

/-- `PARSE_FWVER` (R123). -/
def execParseFwver (arg tmo : Nat) (s : State) : Host.Outcome State Fault Refusal :=
  perform (.parseFwver arg tmo) (parseFwverLines Config.params) s

/-- `PARSE_SAM` (R124). -/
def execParseSam (arg tmo : Nat) (s : State) : Host.Outcome State Fault Refusal :=
  perform (.parseSam arg tmo) (parseSamLines Config.params) s

/-- `PARSE_TARGET` (R127). -/
def execParseTarget (arg tmo : Nat) (s : State) : Host.Outcome State Fault Refusal :=
  perform (.parseTarget arg tmo) parseTargetLines s

end Sys2Proof.Machine
end

