-- ==== Sys2Proof/Machine/Engine.lean ====
section
/-! DEFINITION. The five engine operations (spec/45_host_ops.md R135 to R144): their pseudocode and their meanings. -/

namespace Sys2Proof.Machine

/-- R135. -/
def initLines : List Line := [.bind, .finish]

/-- R141: `for i in 0 .. |D|-1: CB[i] <- D[i]`, from index `i` up. -/
def loadCbLines : Nat → List Byte → List Line
  | _, [] => []
  | i, b :: bs => .loadCb i b :: loadCbLines (i + 1) bs

/-- R141: the read of `n` response bytes and the parse that follows it; none of it when `n` is 0. -/
def responseLines (P : Params) (n : Nat) (parse : List Line) : List Line :=
  if n = 0 then [] else readBody P n ++ parse

/-- R141: `REQUEST(D, tmo, N, parse)`. -/
def requestLines (P : Params) (d : List Byte) (b : Budget) (n : Nat) (parse : List Line) : List Line :=
  [.requireBound] ++ loadCbLines 0 d ++ exchangeBody P d.length b ++ responseLines P n parse ++ [.finish]

/-- R137. -/
def getFirmwareVersionLines (P : Params) : List Line :=
  requestLines P (getFwData P) (.fixed P.defaultTimeoutMs) Config.nFw [.parseFwver P.fwHeader.toList]

/-- R138. -/
def configureSamLines (P : Params) : List Line :=
  requestLines P (samData P) (.fixed P.defaultTimeoutMs) Config.nSam [.parseSam P.samStatusOk]

/-- R139: no response is read. -/
def setRetriesLines (P : Params) (r : Byte) : List Line :=
  requestLines P (retriesData P r) (.fixed P.defaultTimeoutMs) 0 []

/-- R140. -/
def readTargetLines (P : Params) (b : Byte) : List Line :=
  requestLines P (inlistData P b) .tmor Config.nPt [.parseTarget]

/-- `INIT valid` (R135). -/
def execInit (arg tmo : Nat) (s : State) : Host.Outcome State Fault Refusal :=
  perform (.init arg tmo) initLines s

/-- `GET_FIRMWARE_VERSION` (R137). -/
def execGetFirmwareVersion (arg tmo : Nat) (s : State) : Host.Outcome State Fault Refusal :=
  perform (.getFirmwareVersion arg tmo) (getFirmwareVersionLines Config.params) s

/-- `CONFIGURE_SAM` (R138). -/
def execConfigureSam (arg tmo : Nat) (s : State) : Host.Outcome State Fault Refusal :=
  perform (.configureSam arg tmo) (configureSamLines Config.params) s

/-- `SET_PASSIVE_ACTIVATION_RETRIES r` (R139). -/
def execSetPassiveActivationRetries (arg tmo : Nat) (s : State) : Host.Outcome State Fault Refusal :=
  perform (.setPassiveActivationRetries arg tmo) (setRetriesLines Config.params (argByte arg)) s

/-- `READ_PASSIVE_TARGET_ID b, t` (R140). -/
def execReadPassiveTargetId (arg tmo : Nat) (s : State) : Host.Outcome State Fault Refusal :=
  perform (.readPassiveTargetId arg tmo) (readTargetLines Config.params (argByte arg)) s

end Sys2Proof.Machine
end

