-- ==== Sys2Proof/Machine/Dispatch.lean ====
section
/-! DEFINITION. The meaning of every operation, one arm per constructor. -/

namespace Sys2Proof.Machine

def exec (i : Instr) (s : State) : Host.Outcome State Fault Refusal :=
  match i with
  | .init arg tmo => Sys2Proof.Machine.execInit arg tmo s
  | .getFirmwareVersion arg tmo => Sys2Proof.Machine.execGetFirmwareVersion arg tmo s
  | .configureSam arg tmo => Sys2Proof.Machine.execConfigureSam arg tmo s
  | .setPassiveActivationRetries arg tmo => Sys2Proof.Machine.execSetPassiveActivationRetries arg tmo s
  | .readPassiveTargetId arg tmo => Sys2Proof.Machine.execReadPassiveTargetId arg tmo s
  | .csumLcs arg tmo => Sys2Proof.Machine.execCsumLcs arg tmo s
  | .csumDcs arg tmo => Sys2Proof.Machine.execCsumDcs arg tmo s
  | .csumVerify arg tmo => Sys2Proof.Machine.execCsumVerify arg tmo s
  | .writeCommand arg tmo => Sys2Proof.Machine.execWriteCommand arg tmo s
  | .waitReady arg tmo => Sys2Proof.Machine.execWaitReady arg tmo s
  | .readAck arg tmo => Sys2Proof.Machine.execReadAck arg tmo s
  | .ackMatch arg tmo => Sys2Proof.Machine.execAckMatch arg tmo s
  | .readData arg tmo => Sys2Proof.Machine.execReadData arg tmo s
  | .exchange arg tmo => Sys2Proof.Machine.execExchange arg tmo s
  | .parseFwver arg tmo => Sys2Proof.Machine.execParseFwver arg tmo s
  | .parseSam arg tmo => Sys2Proof.Machine.execParseSam arg tmo s
  | .parseTarget arg tmo => Sys2Proof.Machine.execParseTarget arg tmo s

end Sys2Proof.Machine
end

