-- ==== Sys2Proof/Machine/HostPort.lean ====
section
/-! DEFINITION. The host's port (spec/20_memory.md R43, R46, R48, spec/30_encoding.md R60 to R65, R72,
spec/10_state.md R12) and the reset input (spec/70_reset_and_hazards.md R170): one definition per move. -/

namespace Sys2Proof.Machine

/-- The registers of the host register space (the map of R43). -/
inductive HostReg where
  | cmd
  | status
  | hstate
  | res8
  | fwver
  | uidlen
  | uid (i : Nat)
  | cb (i : Nat)
  | rb (i : Nat)
  | ackbuf (i : Nat)
deriving DecidableEq, Repr

/-- The map of R43: none for a reserved number. -/
def hostReg (r : Byte) : Option HostReg :=
  let n := r.toNat
  if n = 0x00 then some .cmd
  else if n = 0x01 then some .status
  else if n = 0x02 then some .hstate
  else if n = 0x03 then some .res8
  else if n = 0x04 then some .fwver
  else if n = 0x05 then some .uidlen
  else if 0x08 ≤ n ∧ n ≤ 0x0E then some (.uid (n - 0x08))
  else if 0x40 ≤ n ∧ n ≤ 0x7F then some (.cb (n - 0x40))
  else if 0x80 ≤ n ∧ n ≤ 0xBF then some (.rb (n - 0x80))
  else if 0xC0 ≤ n ∧ n ≤ 0xC5 then some (.ackbuf (n - 0xC0))
  else none

/-- The host notes a value it has read (R72). -/
def note (r : Byte) (v : Word) (s : State) : State := { s with noted := s.noted ++ [(r, v)] }

/-- A read of a byte-wide data register: its byte, or the fault of R25. -/
def readData8 (r : Byte) (c : DataCell) (v : Option Byte) (s : State) : Host.Outcome State Fault Refusal :=
  match v with
  | some b => .next (note r (b.setWidth 32) s)
  | none => .fault (.unwrittenRead c)

/-- A read of `FWVER`, the whole word (R44), or the fault of R25. -/
def readFwver (r : Byte) (s : State) : Host.Outcome State Fault Refusal :=
  match s.fwver with
  | some w => .next (note r w s)
  | none => .fault (.unwrittenRead .fwver)

/-- A read of a data register while the engine is idle. -/
def readIdle (r : Byte) (h : HostReg) (s : State) : Host.Outcome State Fault Refusal :=
  match h with
  | .cmd => .refused (.noSuchHostMove r)
  | .status => .next (note r ((statusByte s).setWidth 32) s)
  | .hstate => .next (note r ((hstateByte s).setWidth 32) s)
  | .res8 => readData8 r .res8 s.res8 s
  | .fwver => readFwver r s
  | .uidlen => readData8 r .uidlen s.uidlen s
  | .uid i => readData8 r (.uid i) (Memory.read s.uid i) s
  | .cb i => readData8 r (.cb i) (Memory.read s.cb i) s
  | .rb i => readData8 r (.rb i) (Memory.read s.rb i) s
  | .ackbuf i => readData8 r (.ackbuf i) (Memory.read s.ackbuf i) s

/-- A read while `BUSY = 1`: only `STATUS` and `HSTATE` give a value, any other read of the map is not accepted and
changes no state (R12, R63, U12). -/
def readBusy (r : Byte) (h : HostReg) (s : State) : Host.Outcome State Fault Refusal :=
  match h with
  | .cmd => .refused (.noSuchHostMove r)
  | .status => .next (note r ((statusByte s).setWidth 32) s)
  | .hstate => .next (note r ((hstateByte s).setWidth 32) s)
  | _ => .next s

/-- `RD name` (R72): a read of a register number; reserved numbers are no move (U6). -/
def hostRead (r : Byte) (s : State) : Host.Outcome State Fault Refusal :=
  match hostReg r with
  | none => .refused (.noSuchHostMove r)
  | some h => if s.busy then readBusy r h s else readIdle r h s

/-- `WR CB[i], b` (R40, R46, R72): only `CB` can be written a byte at a time (R48), every other number is no move
(U6); while `BUSY = 1` the write is not accepted and changes no state (R63). -/
def hostWrite (r b : Byte) (s : State) : Host.Outcome State Fault Refusal :=
  match hostReg r with
  | some (.cb i) => if s.busy then .next s else .next { s with cb := Memory.write s.cb i b }
  | _ => .refused (.noSuchHostMove r)

/-- The pseudocode of every operation, for a given configuration record. -/
def linesOf (P : Params) : Instr → List Line
  | .init _ _ => initLines
  | .getFirmwareVersion _ _ => getFirmwareVersionLines P
  | .configureSam _ _ => configureSamLines P
  | .setPassiveActivationRetries arg _ => setRetriesLines P (argByte arg)
  | .readPassiveTargetId arg _ => readTargetLines P (argByte arg)
  | .csumLcs _ _ => csumLcsLines
  | .csumDcs _ _ => csumDcsLines P
  | .csumVerify _ _ => csumVerifyLines
  | .writeCommand arg _ => writeCommandLines P (countOf arg)
  | .waitReady _ _ => waitReadyLines
  | .readAck _ _ => readAckLines P
  | .ackMatch _ _ => ackMatchLines
  | .readData arg _ => readDataLines P (countOf arg)
  | .exchange arg _ => exchangeLines P (countOf arg)
  | .parseFwver _ _ => parseFwverLines P
  | .parseSam _ _ => parseSamLines P
  | .parseTarget _ _ => parseTargetLines

/-- R65: a command word with a reserved `OP` is accepted as any other, and its one line raises InvalidParameter. -/
def beginReserved (w : Word) (s : State) : State := accept (opField w) (argField w) (tmoField w) [.rejectOp] s

/-- A bare write of `CMD` (R63): accepted when idle, the first line next; otherwise it changes no state. -/
def writeCmd (w : Word) (s : State) : Host.Outcome State Fault Refusal :=
  if s.busy then .next s
  else
    match decode w with
    | .op i => .next (beginOp i (linesOf Config.params i) s)
    | .reservedOp _ => .next (beginReserved w s)

/-- The command word of a program line at an idle engine (R72): the operation runs. -/
def runWord (w : Word) (s : State) : Host.Outcome State Fault Refusal :=
  match decode w with
  | .op i => exec i s
  | .reservedOp _ => runLines [.rejectOp] (beginReserved w s)

/-- R72: the host of a program line waits while the operation is running. -/
def hostWaits (s : State) : State := if s.busy then { s with host := .wait :: s.host } else s

/-- Applies a function to the next state of an outcome. -/
def mapNext (f : State → State) : Host.Outcome State Fault Refusal → Host.Outcome State Fault Refusal
  | .next s => .next (f s)
  | .fault x => .fault x
  | .refused x => .refused x

/-- The reset input (R170): every piece of the engine's state at the value of R27, no event; what the environment
will answer, the record of events and the host are not the engine's and stay. -/
def applyReset (s : State) : State :=
  { State.reset with
    readyIn := s.readyIn
    tickIn := s.tickIn
    recvIn := s.recvIn
    trace := s.trace
    host := s.host
    noted := s.noted }

/-- The reset input is a move only while `BUSY = 0` (U5). -/
def hostReset (s : State) : Host.Outcome State Fault Refusal :=
  if s.busy then .refused .resetWhileBusy else .next (applyReset s)

/-- The host's next move `m`, where `s` is the state without it and `whole` the state with it. -/
def hostMove (m : HostMove) (s whole : State) : Host.Outcome State Fault Refusal :=
  match m with
  | .op w => if s.busy then resume whole else mapNext hostWaits (runWord w s)
  | .wait => if s.busy then resume whole else .next s
  | .cmd w => writeCmd w s
  | .letRun => if s.busy then runOne s else .next s
  | .write r b => hostWrite r b s
  | .read r => hostRead r s
  | .reset => hostReset s

/-- A step with no move of the host pending: the operation in flight goes on; an idle engine waits (R170). -/
def noMove (s : State) : Host.Outcome State Fault Refusal := if s.busy then resume s else .next s

/-- The command word the host port presents next, as the engine's fetch: `w` at the head of the host's moves and the
engine idle to accept it. -/
def presentWord (w : Word) (s : State) : State :=
  { s with host := .op w :: s.host, busy := false, phase := [] }

end Sys2Proof.Machine
end

