-- ==== Sys2Proof/Safety.lean ====
section
/-! DEFINITION. The terms the statements use: what a state of the machine always satisfies (`State.Inv`), the events of
a frame, of a read and of a wait, an operation with the steps after it, the premise that the clock moves on, and the
state an operation leaves when it only ends with a status. -/

namespace Sys2Proof.Machine

/-! ### Select brackets (spec/20_memory.md R50, spec/70_reset_and_hazards.md R174, spec/10_state.md R15) -/

/-- The chip-select level after an event, none if the event may not stand at that level: bytes move only inside a
bracket (R50), the chip is polled only outside one (R107), and a bracket is opened and closed once. -/
def eventLevel (e : Event) (sel : Bool) : Option Bool :=
  match e with
  | .select a => if a = sel then none else some a
  | .settle | .send _ | .recv _ => if sel then some true else none
  | .ready _ | .tick _ => if sel then none else some false

/-- The chip-select level after a record of events, none if one of them stands where it may not. -/
def traceLevel : Bool → List Event → Option Bool
  | sel, [] => some sel
  | sel, e :: es =>
    match eventLevel e sel with
    | some sel' => traceLevel sel' es
    | none => none

/-- The chip-select level after a line, none if the line may not stand at that level: a line that can raise an error
or end the operation stands outside every bracket (R156). -/
def lineLevel (l : Line) (sel : Bool) : Option Bool :=
  match l with
  | .select a => if a = sel then none else some a
  | .settle | .send _ | .sendLen | .sendLcs | .sendCb _ | .sendDcs | .recvAck _ | .recvRb _ =>
    if sel then some true else none
  | .requireCb _ | .loadCb _ _ | .setHs _ | .loadLen _ | .startAcc _ | .enterLoop => some sel
  | .requireBound | .requireCbCount | .requireRbCount | .startWait | .poll _ _ | .checkAck _ | .bind | .csumLcs
  | .csumDcs _ | .csumVerify | .ackMatch | .parseFwver _ | .parseSam _ | .parseTarget | .rejectOp | .finish =>
    if sel then none else some false

/-- The chip-select level after a list of lines. -/
def linesLevel : Bool → List Line → Option Bool
  | sel, [] => some sel
  | sel, l :: ls =>
    match lineLevel l sel with
    | some sel' => linesLevel sel' ls
    | none => none

/-- The last line of every operation: `return Ok`, or the rejection of a reserved code. -/
def endsOperation (l : Line) : Bool := l == .finish || l == .rejectOp

/-- The lines still to run keep the framing from level `sel` on, close the bracket, and end the operation. -/
def Bracketed (sel : Bool) (ls : List Line) : Prop :=
  linesLevel sel ls = some false ∧ ∃ l, ls.getLast? = some l ∧ endsOperation l = true

/-- The indexes of a line are inside its buffer (R16, R45). -/
def lineInRange (l : Line) : Prop :=
  match l with
  | .loadCb i _ | .sendCb i => i < Config.cbCap
  | .recvRb i => i < Config.rbCap
  | .recvAck i => i < Config.nAck
  | _ => True

/-- A count check lets the lines after it be reached (R155); every other line does. -/
def countPasses (l : Line) (argr : Byte) : Bool :=
  match l with
  | .requireCbCount => cbCountOk argr.toNat
  | .requireRbCount => rbCountOk argr.toNat
  | _ => true

/-- The indexes of every line that can still be reached are inside its buffer: the lines after a count check are
reached only with a count in range. -/
def LinesInRange (argr : Byte) : List Line → Prop
  | [] => True
  | l :: ls => lineInRange l ∧ (countPasses l argr = true → LinesInRange argr ls)

/-- The byte of a send or receive loop that a line works on (R16). -/
def lineIndex (l : Line) : Option Nat :=
  match l with
  | .sendCb i | .recvAck i | .recvRb i => some i
  | _ => none

/-- The lines still to run go over the bytes of each loop one after the other, from the value `idx` of `IDX` on: a
loop's line works on the byte `IDX` names and adds 1 to it, and the entry of a loop sets it to 0 (R16). Other lines stand
between loops and may leave any value. -/
def IndexFollows : Nat → List Line → Prop
  | _, [] => True
  | idx, l :: ls =>
    match lineIndex l with
    | some i => idx = i ∧ IndexFollows (i + 1) ls
    | none => if l = .enterLoop then IndexFollows 0 ls else ∀ j, IndexFollows j ls

/-! ### The invariant -/

/-- What every state of the machine satisfies. -/
structure State.Inv (s : State) : Prop where
  /-- The buffers and the UID file are in canonical form. -/
  cbWf : Memory.wf s.cb
  rbWf : Memory.wf s.rb
  ackbufWf : Memory.wf s.ackbuf
  uidWf : Memory.wf s.uid
  /-- And hold nothing outside their capacity (R24, R40 to R42). -/
  cbBelow : Memory.below Config.cbCap s.cb
  rbBelow : Memory.below Config.rbCap s.rb
  ackbufBelow : Memory.below Config.nAck s.ackbuf
  uidBelow : Memory.below Config.uidMax s.uid
  /-- `UIDLEN` holds 0 to 7 (R23). -/
  uidlenSmall : ∀ v, s.uidlen = some v → v.toNat ≤ Config.uidMax
  /-- `IDX` never exceeds 64 (R16). -/
  idxSmall : s.idx.toNat ≤ 64
  /-- Inside a send or receive loop `IDX` is the index of the byte that is next (R16). -/
  indexFollows : IndexFollows s.idx.toNat s.phase
  /-- When `BUSY = 0`, `PHASE` is `IDLE` (R16) and chip-select is deasserted (R15). -/
  idle : s.busy = false → s.phase = [] ∧ s.sel = false
  /-- When `BUSY = 1`, the lines still to run keep the framing and end the operation. -/
  running : s.busy = true → Bracketed s.sel s.phase
  /-- And their indexes stay inside the buffers. -/
  inRange : LinesInRange s.argr s.phase
  /-- The record of events is well framed, and `SEL` is the level last driven (R15). -/
  framed : traceLevel false s.trace = some s.sel

/-! ### Events of an operation -/

/-- The data-write framing of a frame (R68, R97). -/
def frameEvents (P : Params) (d : List Byte) : List Event :=
  [.select true, .settle, .send P.markDW] ++ (frameBytes P d).map .send ++ [.select false]

/-- The data-read framing of the bytes received (R69). -/
def readEvents (P : Params) (bs : List Byte) : List Event :=
  [.select true, .settle, .send P.markDR] ++ bs.map .recv ++ [.select false]

/-- A wait that finds the chip ready at its first poll (R107). -/
def waitEvents (t : Word) : List Event := [.tick t, .ready true]

/-- A wait whose first poll fails, up to the clock read after it (R107). -/
def failedPollEvents (t0 t : Word) : List Event := [.tick t0, .ready false, .tick t]

/-- A wait whose polls have failed so far, with the readings `ts` of the clock after them (R107): its start, and each
failed poll followed by the clock. -/
def openEvents (t0 : Word) (ts : List Word) : List Event := .tick t0 :: ts.flatMap fun t => [.ready false, .tick t]

/-- The readings `ts` of the clock, after the failed polls of a wait that began at `t0`, are all within its budget in
milliseconds, so that each leaves the wait open (R107). -/
def WithinBudget (budget : Nat) (t0 : Word) (ts : List Word) : Prop :=
  ∀ t ∈ ts, (t.toNat + 2 ^ 32 - t0.toNat) % 2 ^ 32 ≤ budget

/-! ### The answers an operation meets -/

/-- The `n` answers of `ready()` to come. -/
def readyAnswers (n : Nat) (s : State) : List Bool := Answers.take Config.readyAnswer n s.readyIn
/-- The `n` answers of `tick()` to come. -/
def tickAnswers (n : Nat) (s : State) : List Word := Answers.take Config.tickAnswer n s.tickIn
/-- The `n` answers of `recv()` to come. -/
def recvAnswers (n : Nat) (s : State) : List Byte := Answers.take Config.recvAnswer n s.recvIn

/-- `s` with the next answers of `ready()` and of `tick()` those listed. -/
def answered (rs : List Bool) (ts : List Word) (s : State) : State := { s with readyIn := ⟨rs, 0⟩, tickIn := ⟨ts, 0⟩ }

/-- The final state `v` of another run from `s`, but for the answers used and the events made: they are the next `m` of
`ready()`, the next `n` of `tick()`, and `es`. -/
def havingUsed (m n : Nat) (es : List Event) (s v : State) : State :=
  { v with
    readyIn := Answers.skip m s.readyIn
    tickIn := Answers.skip n s.tickIn
    trace := s.trace ++ es }

/-- The state an operation leaves that has latched its command word (R63) and ended with a status (R156), doing
nothing else. -/
def ended (e : Err) (op : Byte) (arg tmo : Nat) (s : State) : State :=
  { s with
    opr := op
    argr := BitVec.ofNat 8 arg
    tmor := BitVec.ofNat 16 tmo
    err := e
    busy := false
    phase := [] }

/-- The bytes `bs` stand at indexes 0 and up of a buffer, and the other cells are those of an earlier buffer. -/
def Overwrites (bs : List Byte) (old new : Memory) : Prop :=
  (∀ i, i < bs.length → Memory.read new i = bs[i]?) ∧ (∀ i, bs.length ≤ i → Memory.read new i = Memory.read old i)

/-- The first `n` cells of a buffer hold `bs`. -/
def Holds (bs : List Byte) (m : Memory) : Prop := ∀ i, i < bs.length → Memory.read m i = bs[i]?

/-- `k` lines of the operation in flight, one by one (an idle engine has none left, and stays as it is). -/
def runEvents : Nat → State → Host.Outcome State Fault Refusal
  | 0, s => .next s
  | k + 1, s =>
    match runOne s with
    | .next t => runEvents k t
    | .fault f => .fault f
    | .refused r => .refused r

/-! ### Waits and the clock (spec/00_scope.md R8, spec/43_handshake.md R107, R109) -/

/-- The answer of `ready()` after `n` more of them. -/
def readyAt (n : Nat) (s : State) : Bool := Answers.now Config.readyAnswer (Answers.skip n s.readyIn)

/-- The answer of `tick()` after `n` more of them. -/
def tickAt (n : Nat) (s : State) : Word := Answers.now Config.tickAnswer (Answers.skip n s.tickIn)

/-- The events of `n` rounds of a poll loop that leave the wait open. -/
def roundEvents : Nat → State → List Event
  | 0, _ => []
  | n + 1, s => roundEvents n s ++ [.ready (readyAt n s), .tick (tickAt n s)]

/-- The state of a wait once `n` rounds have left it open: the answers are used up, and nothing else. -/
def afterRounds (n : Nat) (s : State) : State :=
  { s with
    readyIn := Answers.skip n s.readyIn
    tickIn := Answers.skip n s.tickIn
    trace := s.trace ++ roundEvents n s }

/-- Steps of the machine, stopping at the first fault or refusal. -/
def runSteps : Nat → State → Host.Outcome State Fault Refusal
  | 0, s => .next s
  | k + 1, s =>
    match step s with
    | .next t => runSteps k t
    | .fault f => .fault f
    | .refused r => .refused r

/-- An operation and `k` more steps of the machine: 0 is `exec` itself, and each step after it runs one more round of a
wait that `exec` left open, and what follows that wait. -/
def runOp (k : Nat) (i : Instr) (s : State) : Host.Outcome State Fault Refusal :=
  match exec i s with
  | .next t => runSteps k t
  | .fault f => .fault f
  | .refused r => .refused r

/-- The `k` steps after `exec` are the operation's own: there are none, or the operation began at an idle engine and the
host makes no move. -/
def OwnSteps (k : Nat) (s : State) : Prop := k = 0 ∨ (s.busy = false ∧ s.host = [])

/-- R8, the liveness premise for one wait: some reading of the clock to come is past the budget, counted from the
wait's own `T0`. It is a premise of statements and no part of the step (R8: "a fairness premise"). -/
def TickPasses (budget : Word) (s : State) : Prop := ∃ n, budget < elapsed s.t0 (tickAt n s)

/-- R8, the liveness premise for a run: whenever the run from `s` polls, the clock goes on to pass the budget of that
wait. -/
def TickLive (s : State) : Prop :=
  ∀ (k : Nat) (u : State) (b : Budget) (x : Bool) (ls : List Line), runSteps k s = .next u → u.busy = true →
    u.phase = .poll b x :: ls → TickPasses (budgetOf b u.tmor) u

/-! ### Kinds of operation -/

/-- The four requests (R141). -/
def isRequest : Instr → Bool
  | .getFirmwareVersion _ _ | .configureSam _ _ | .setPassiveActivationRetries _ _ | .readPassiveTargetId _ _ => true
  | _ => false

/-- The frame data of a request (R136). -/
def requestData (P : Params) : Instr → List Byte
  | .getFirmwareVersion _ _ => getFwData P
  | .configureSam _ _ => samData P
  | .setPassiveActivationRetries arg _ => retriesData P (BitVec.ofNat 8 arg)
  | .readPassiveTargetId arg _ => inlistData P (BitVec.ofNat 8 arg)
  | _ => []

/-- The budget of both waits of a request, in milliseconds (R143). -/
def requestBudget (P : Params) : Instr → Nat
  | .readPassiveTargetId _ tmo => tmo % 65536
  | _ => P.defaultTimeoutMs.toNat

/-- The operations that run the handshake (R111, R141). -/
def isHandshake : Instr → Bool
  | .exchange _ _ => true
  | i => isRequest i

/-- The budget of both waits of a handshake, in milliseconds (R111, R143). -/
def handshakeBudget (P : Params) : Instr → Nat
  | .exchange _ tmo => tmo % 65536
  | i => requestBudget P i

/-- `d` is the frame data that a handshake sends: 1 to 64 written bytes of `CB` (R111), or that of the request (R136). -/
def SendsData (P : Params) (i : Instr) (s : State) (d : List Byte) : Prop :=
  match i with
  | .exchange arg _ => 1 ≤ arg ∧ arg ≤ 64 ∧ d.length = arg ∧ Holds d s.cb
  | i => d = requestData P i

/-- How many bytes are read after a handshake that succeeds (R136, R139, R141). -/
def responseLength : Instr → Nat
  | .getFirmwareVersion _ _ => 12
  | .configureSam _ _ => 8
  | .readPassiveTargetId _ _ => 20
  | _ => 0

/-- The events after a handshake that succeeds: the read of the response, where there is one, after the six ACK bytes. -/
def responseEvents (P : Params) (i : Instr) (s : State) : List Event :=
  if responseLength i = 0 then []
  else readEvents P (Answers.take Config.recvAnswer (responseLength i) (Answers.skip 6 s.recvIn))

/-- The operations that produce transport events (R152). -/
def usesTransport : Instr → Bool
  | .writeCommand _ _ | .waitReady _ _ | .readAck _ _ | .readData _ _ | .exchange _ _ => true
  | i => isRequest i

end Sys2Proof.Machine
end

