-- ==== Sys2Proof/Certificates/Slice0/Obligations.lean ====
section
/-! DEFINITION. The statements for the provers. Each docstring names the rule of spec/ it formalises. `Config.params`,
`Config.readyAnswer`, `Config.tickAnswer` and `Config.recvAnswer` are opaque, so each statement holds for every
configuration record and for every answer of the environment. Where an operation runs a loop or a compare, its
statement leaves open the value of `IDX` afterwards, which R16 calls not meaningful (notes/assumptions/14.md). -/

open Sys2Proof Sys2Proof.Machine

/-! ### Encoding (spec/30_encoding.md) -/

/-- R61, R62: decoding the command word of any well-formed operation gives that operation, with every value of both
operands. -/
def Obligations.DecodeOfEncodeIsIdentity : Prop :=
  ∀ i : Instr, i.wellFormed = true → decode (encode i) = .op i

/-- R61, R62: a command word that decodes is the command word of a well-formed operation, so no bit of it is dropped,
not even of an ignored field. -/
def Obligations.EncodeOfDecodeIsIdentity : Prop :=
  ∀ (w : Word) (i : Instr), decode w = .op i → i.wellFormed = true ∧ encode i = w

/-- R61, R62, R65: the decoder rejects exactly the words whose top byte is outside the operation map. -/
def Obligations.ReservedCodesAreExactlyTheUnlisted : Prop :=
  ∀ w : Word, decode w = .reservedOp (w.extractLsb' 24 8) ↔
    (w.toNat / 2 ^ 24) ∉ [0x00, 0x01, 0x02, 0x03, 0x04, 0x10, 0x11, 0x12, 0x20, 0x21, 0x22, 0x23, 0x24, 0x25, 0x30,
      0x31, 0x32]

/-- R61, R62, R72: some command words written out from the spec's encoding decode to their operations (R72's two
examples among them), and a reserved one is rejected. -/
def Obligations.SpecCommandWordsDecode : Prop :=
  decode 0x040003E8 = .op (.readPassiveTargetId 0 1000) ∧ decode 0x00010000 = .op (.init 1 0) ∧
  decode 0x12030000 = .op (.csumVerify 3 0) ∧ decode 0x20400000 = .op (.writeCommand 64 0) ∧
  decode 0x2100FFFF = .op (.waitReady 0 65535) ∧ decode 0x23000000 = .op (.ackMatch 0 0) ∧
  decode 0x250103E8 = .op (.exchange 1 1000) ∧ decode 0x32000000 = .op (.parseTarget 0 0) ∧
  decode 0x7F123456 = .reservedOp 0x7F

/-! ### The step and the host port (spec/20_memory.md, spec/30_encoding.md, spec/70_reset_and_hazards.md) -/

/-- When the host's next move is a program line whose word decodes to an operation and the engine is idle, the step is
`exec` of that operation on the state without the line; if the operation is still running after it, the host's wait is
put back as its next move (R72). -/
def Obligations.StepRunsTheDecodedOperation : Prop :=
  ∀ (s : State) (w : Word) (rest : List HostMove) (i : Instr),
    s.busy = false → s.host = .op w :: rest → decode w = .op i →
    step s = mapNext hostWaits (exec i { s with host := rest })

/-- R65: a command word with a reserved `OP` is accepted and ends with InvalidParameter, changing nothing else but the
latches of its acceptance. -/
def Obligations.ReservedWordEndsInvalidParameter : Prop :=
  ∀ (s : State) (w : Word) (rest : List HostMove),
    s.busy = false → s.host = .op w :: rest →
    (w.toNat / 2 ^ 24) ∉ [0x00, 0x01, 0x02, 0x03, 0x04, 0x10, 0x11, 0x12, 0x20, 0x21, 0x22, 0x23, 0x24, 0x25, 0x30,
      0x31, 0x32] →
    step s = .next { s with
      host := rest
      opr := w.extractLsb' 24 8
      argr := w.extractLsb' 16 8
      tmor := w.extractLsb' 0 16
      err := .invalidParameter
      busy := false
      phase := [] }

/-- R63: a bare write of `CMD` is accepted if and only if `BUSY = 0`, latching its three fields, setting `BUSY` and
putting the lines of the operation's pseudocode next; while `BUSY = 1` it changes no state, and so does every write of `CB` and every
read of the map but of `STATUS` and `HSTATE`; an access the map does not give is no move. -/
def Obligations.CommandWordAcceptance : Prop :=
  ∀ (s : State) (rest : List HostMove),
    (∀ w, s.busy = false → s.host = .cmd w :: rest →
      step s = .next { s with
        host := rest
        opr := w.extractLsb' 24 8
        argr := w.extractLsb' 16 8
        tmor := w.extractLsb' 0 16
        busy := true
        phase := match decode w with
          | .op i => linesOf Config.params i
          | .reservedOp _ => [.rejectOp] }) ∧
    (∀ w, s.busy = true → s.host = .cmd w :: rest → step s = .next { s with host := rest }) ∧
    (∀ r b : Byte, s.busy = true → s.host = .write r b :: rest →
      step s = if 0x40 ≤ r.toNat ∧ r.toNat < 0x80 then .next { s with host := rest }
        else .refused (.noSuchHostMove r)) ∧
    (∀ r : Byte, s.busy = true → r ≠ 0x01 → r ≠ 0x02 → s.host = .read r :: rest →
      step s = if (0x03 ≤ r.toNat ∧ r.toNat ≤ 0x05) ∨ (0x08 ≤ r.toNat ∧ r.toNat ≤ 0x0E) ∨
          (0x40 ≤ r.toNat ∧ r.toNat ≤ 0xC5) then .next { s with host := rest }
        else .refused (.noSuchHostMove r))

/-- R13, R14, R150: the numbers of the status codes and of the handshake states. -/
def Obligations.ErrAndHsHaveTheirCodes : Prop :=
  [Err.ok, .initFailure, .transportTimeout, .ackMismatch, .responseStructureMismatch, .noTagFound,
    .multipleTagsUnsupported, .invalidParameter].map errCode = [0, 1, 2, 3, 4, 5, 6, 7] ∧
  [Hs.idle, .sent, .waitingReady1, .ackReceived, .waitingReady2, .responseReady, .timeout].map hsCode =
    [0, 1, 2, 3, 4, 5, 6] ∧
  (∀ e : Err, failFlag e = true ↔ e ≠ .ok)

/-- R13, R43: a read of `STATUS` or `HSTATE` is answered always, busy or idle, with the fields of the map, and has no
other effect (R46). -/
def Obligations.StatusReadsGiveTheirFields : Prop :=
  ∀ (s : State) (rest : List HostMove),
    (s.host = .read 0x01 :: rest →
      step s = .next { s with
        host := rest
        noted := s.noted ++ [(0x01, BitVec.ofNat 32 ((errCode s.err).toNat + 16 * s.busy.toNat + 32 * s.bound.toNat +
          64 * s.sel.toNat + 128 * (decide (s.err ≠ .ok)).toNat))] }) ∧
    (s.host = .read 0x02 :: rest →
      step s = .next { s with host := rest, noted := s.noted ++ [(0x02, BitVec.ofNat 32 (hsCode s.hs).toNat)] })

/-- R25, R43: an idle read of a data register gives the value it holds and nothing else happens; where nothing has
written it, the read is the fault UnwrittenRead; a number outside the map, and `CMD`, is no move
(spec/93_implementation_defined.md U6). -/
def Obligations.IdleReadsGiveTheDataOrFault : Prop :=
  ∀ (s : State) (r : Byte) (rest : List HostMove), s.busy = false → s.host = .read r :: rest →
    (r = 0x03 → step s = match s.res8 with
      | some b => .next { s with host := rest, noted := s.noted ++ [(r, b.setWidth 32)] }
      | none => .fault (.unwrittenRead .res8)) ∧
    (r = 0x04 → step s = match s.fwver with
      | some w => .next { s with host := rest, noted := s.noted ++ [(r, w)] }
      | none => .fault (.unwrittenRead .fwver)) ∧
    (r = 0x05 → step s = match s.uidlen with
      | some b => .next { s with host := rest, noted := s.noted ++ [(r, b.setWidth 32)] }
      | none => .fault (.unwrittenRead .uidlen)) ∧
    (∀ i, i < 7 → r = BitVec.ofNat 8 (0x08 + i) → step s = match Memory.read s.uid i with
      | some b => .next { s with host := rest, noted := s.noted ++ [(r, b.setWidth 32)] }
      | none => .fault (.unwrittenRead (.uid i))) ∧
    (∀ i, i < 64 → r = BitVec.ofNat 8 (0x40 + i) → step s = match Memory.read s.cb i with
      | some b => .next { s with host := rest, noted := s.noted ++ [(r, b.setWidth 32)] }
      | none => .fault (.unwrittenRead (.cb i))) ∧
    (∀ i, i < 64 → r = BitVec.ofNat 8 (0x80 + i) → step s = match Memory.read s.rb i with
      | some b => .next { s with host := rest, noted := s.noted ++ [(r, b.setWidth 32)] }
      | none => .fault (.unwrittenRead (.rb i))) ∧
    (∀ i, i < 6 → r = BitVec.ofNat 8 (0xC0 + i) → step s = match Memory.read s.ackbuf i with
      | some b => .next { s with host := rest, noted := s.noted ++ [(r, b.setWidth 32)] }
      | none => .fault (.unwrittenRead (.ackbuf i))) ∧
    ((r.toNat = 0 ∨ r.toNat = 6 ∨ r.toNat = 7 ∨ (0x0F ≤ r.toNat ∧ r.toNat ≤ 0x3F) ∨ 0xC6 ≤ r.toNat) →
      step s = .refused (.noSuchHostMove r))

/-- R40, R46, R48: an idle host write changes exactly one cell of `CB` and nothing else; no other number of the map can
be written a byte at a time (spec/93_implementation_defined.md U6). -/
def Obligations.HostWritesOnlyOneCellOfCb : Prop :=
  ∀ (s : State) (r b : Byte) (rest : List HostMove), s.busy = false → s.host = .write r b :: rest →
    (∀ i, i < 64 → r = BitVec.ofNat 8 (0x40 + i) →
      ∃ cb, step s = .next { s with host := rest, cb := cb } ∧ Memory.read cb i = some b ∧
        ∀ j, j ≠ i → Memory.read cb j = Memory.read s.cb j) ∧
    ((r.toNat < 0x40 ∨ 0x80 ≤ r.toNat) → step s = .refused (.noSuchHostMove r))

/-- R27: the state after reset, every piece of it. -/
def Obligations.ResetLeavesTheTable : Prop :=
  State.reset.bound = false ∧ State.reset.busy = false ∧ errCode State.reset.err = 0 ∧ hsCode State.reset.hs = 0 ∧
  State.reset.sel = false ∧ State.reset.phase = [] ∧ State.reset.opr = 0 ∧ State.reset.idx = 0 ∧
  State.reset.argr = 0 ∧ State.reset.tmor = 0 ∧ State.reset.acc = 0 ∧ State.reset.lenr = 0 ∧ State.reset.t0 = 0 ∧
  State.reset.res8 = none ∧ State.reset.fwver = none ∧ State.reset.uidlen = none ∧
  (∀ i, Memory.read State.reset.uid i = none) ∧ (∀ i, Memory.read State.reset.cb i = none) ∧
  (∀ i, Memory.read State.reset.rb i = none) ∧ (∀ i, Memory.read State.reset.ackbuf i = none)

/-- R170, spec/93_implementation_defined.md U5: the reset input at an idle engine puts the engine's state at that of
reset, produces no event and leaves the environment and the host as they are; while `BUSY = 1` it is no move. -/
def Obligations.ResetInputIsAMoveOnlyWhenIdle : Prop :=
  ∀ (s : State) (rest : List HostMove), s.host = .reset :: rest →
    (s.busy = false → step s = .next { State.reset with
      readyIn := s.readyIn, tickIn := s.tickIn, recvIn := s.recvIn, trace := s.trace, host := rest, noted := s.noted }) ∧
    (s.busy = true → step s = .refused .resetWhileBusy)

/-- R107, R156: one step of a ready-wait in flight, the host having no move or only the line or the wait that has to
wait for the engine. A true `ready()` ends the wait
and the rest of the operation runs; a false one is followed by the clock, and the operation ends with TransportTimeout
(`HS` to TIMEOUT in an exchange) exactly when the elapsed time is strictly above the budget, and otherwise only the
answers are used up and the same poll is next. -/
def Obligations.PollStepFollowsReadyThenClock : Prop :=
  ∀ (s : State) (b : Budget) (x : Bool) (ls : List Line), s.busy = true → s.phase = .poll b x :: ls →
    (∀ m, s.host.head? = some m → m = .wait ∨ ∃ w, m = .op w) →
    (readyAnswers 1 s = [true] →
      step s = runLines ls { s with readyIn := Answers.skip 1 s.readyIn, trace := s.trace ++ [.ready true] }) ∧
    (readyAnswers 1 s = [false] → ∀ t, tickAnswers 1 s = [t] →
      ((budgetOf b s.tmor).toNat < (t.toNat + 2 ^ 32 - s.t0.toNat) % 2 ^ 32 →
        step s = .next { s with
          readyIn := Answers.skip 1 s.readyIn
          tickIn := Answers.skip 1 s.tickIn
          trace := s.trace ++ [.ready false, .tick t]
          hs := if x then .timeout else s.hs
          err := .transportTimeout
          busy := false
          phase := [] }) ∧
      ((t.toNat + 2 ^ 32 - s.t0.toNat) % 2 ^ 32 ≤ (budgetOf b s.tmor).toNat →
        step s = .next { s with
          readyIn := Answers.skip 1 s.readyIn
          tickIn := Answers.skip 1 s.tickIn
          trace := s.trace ++ [.ready false, .tick t] }))

/-! ### Invariants -/

/-- Every step, of the engine, the host or reset, keeps the invariant of `State.Inv`: canonical buffers inside their
capacities, `UIDLEN` at most 7, `IDX` at most 64 and, inside a send or receive loop, the index of the next byte, an idle
sequencer and a deasserted chip-select when `BUSY = 0`, and a record of events whose bytes all lie inside select
brackets. -/
def Obligations.StepKeepsTheInvariant : Prop :=
  ∀ s t : State, s.Inv → step s = .next t → t.Inv

/-- The state after reset meets the invariant. -/
def Obligations.ResetMeetsTheInvariant : Prop := State.reset.Inv

/-- R7, R16, R63: running an operation in one go is running its lines one at a time after a bare write of its command
word: the same final state, or the same fault. -/
def Obligations.OperationIsItsLinesOneByOne : Prop :=
  ∀ (i : Instr) (s : State), i.wellFormed = true → s.busy = false →
    ∃ (s0 : State) (k : Nat), step { s with host := .cmd (encode i) :: s.host } = .next s0 ∧
      runEvents k s0 = exec i s

/-! ### Arithmetic (spec/40_checksum.md, spec/43_handshake.md, spec/44_response_parser.md) -/

/-- R80, R81: wrapping addition, complement and two's complement, as the rules give them on integers, with the four
corner cases. -/
def Obligations.ByteArithmeticIsModular : Prop :=
  (∀ a b : Byte, (add8 a b).toNat = (a.toNat + b.toNat) % 256) ∧
  (∀ a : Byte, (not8 a).toNat = 255 - a.toNat ∧ (neg8 a).toNat = (256 - a.toNat) % 256 ∧
    neg8 a = add8 (not8 a) 1 ∧ add8 a (neg8 a) = 0) ∧
  neg8 0x00 = 0x00 ∧ neg8 0x80 = 0x80 ∧ neg8 0x01 = 0xFF ∧ neg8 0xFF = 0x01

/-- R82, R84: folding `add8` over a byte string from 0, in any order, gives its sum mod 256; and the accumulator seeded
with the direction byte, negated, is the data checksum. -/
def Obligations.AccumulatorGivesTheSum : Prop :=
  (∀ s s' : List Byte, s.Perm s' → accumulate 0 s' = sum8 s ∧ (sum8 s).toNat = (s.map BitVec.toNat).sum % 256) ∧
  (∀ (dir : Byte) (d : List Byte), neg8 (accumulate (add8 0 dir) d) = dcs dir d)

/-- R83, R85: each checksum makes its sum zero, and no other byte does: a checksum off by any amount is rejected. -/
def Obligations.ChecksumsAreTheUniqueOnes : Prop :=
  (∀ len c : Byte, lenOk len c = true ↔ c = lcs len) ∧
  (∀ (dir : Byte) (d : List Byte) (c : Byte), dataOk (dir :: d) c = true ↔ c = dcs dir d) ∧
  (∀ len : Byte, add8 (lcs len) len = 0) ∧
  (∀ (dir : Byte) (d : List Byte), add8 (dcs dir d) (sum8 (dir :: d)) = 0)

/-- R66, R67, R98: the frame of 1 to 64 bytes of frame data, for every configuration record: its length, its offsets,
its length byte without overflow, and its two sums zero. -/
def Obligations.FrameLayoutAndSums : Prop :=
  ∀ (P : Params) (d : List Byte), 1 ≤ d.length → d.length ≤ 64 →
    (frameBytes P d).length = d.length + 8 ∧
    (frameBytes P d).take 3 = [P.preamble, P.start1, P.start2] ∧
    (∃ len c : Byte, (frameBytes P d)[3]? = some len ∧ (frameBytes P d)[4]? = some c ∧ len.toNat = d.length + 1 ∧
      add8 len c = 0) ∧
    (frameBytes P d)[5]? = some P.dirH2C ∧
    ((frameBytes P d).drop 6).take d.length = d ∧
    sum8 (((frameBytes P d).drop 5).take (d.length + 2)) = 0 ∧
    (frameBytes P d)[d.length + 7]? = some P.postamble

/-- R90, R93: of all six-byte strings exactly the ACK constant is accepted, position by position. -/
def Obligations.AckMatcherAcceptsOneString : Prop :=
  ∀ b0 b1 b2 b3 b4 b5 : Byte, ackMatches [b0, b1, b2, b3, b4, b5] = true ↔
    (b0 = 0x00 ∧ b1 = 0x00 ∧ b2 = 0xFF ∧ b3 = 0x00 ∧ b4 = 0xFF ∧ b5 = 0x00)

/-- R122: the big-endian packing as a number. -/
def Obligations.Be32PacksBigEndian : Prop :=
  ∀ b0 b1 b2 b3 : Byte,
    (be32 b0 b1 b2 b3).toNat = b0.toNat * 2 ^ 24 + b1.toNat * 2 ^ 16 + b2.toNat * 2 ^ 8 + b3.toNat

/-- R106: the elapsed time is the wrapping subtraction, and is the true time across a wrap while fewer than `2^32`
milliseconds have passed. -/
def Obligations.ElapsedIsTrueAcrossAWrap : Prop :=
  (∀ t0 t : Word, (elapsed t0 t).toNat = (t.toNat + 2 ^ 32 - t0.toNat) % 2 ^ 32) ∧
  (∀ t0 d : Nat, d < 2 ^ 32 → (elapsed (BitVec.ofNat 32 t0) (BitVec.ofNat 32 (t0 + d))).toNat = d)

/-! ### The operations that make no event -/

/-- R135: `INIT` binds when bit 0 of `ARG` is 1, and otherwise ends with InitFailure and leaves the binding. -/
def Obligations.InitBindsOrFails : Prop :=
  ∀ (s : State) (arg tmo : Nat), s.busy = false →
    exec (.init arg tmo) s = .next
      (if arg % 2 = 1 then { ended .ok 0x00 arg tmo s with bound := true } else ended .initFailure 0x00 arg tmo s)

/-- R86: `CSUM_LCS` writes the two's complement of `ARG` to `RES8` and nothing else. -/
def Obligations.CsumLcsWritesTheLengthChecksum : Prop :=
  ∀ (s : State) (arg tmo : Nat), s.busy = false →
    exec (.csumLcs arg tmo) s = .next { ended .ok 0x10 arg tmo s with res8 := some (neg8 (BitVec.ofNat 8 arg)) }

/-- R87: `CSUM_DCS` of `n` written bytes, 1 to 64, writes their data checksum to `RES8`; a count out of range ends with
InvalidParameter and `RES8` unchanged; an unwritten cell among the first `n` faults. -/
def Obligations.CsumDcsWritesTheDataChecksum : Prop :=
  ∀ (s : State) (arg tmo : Nat), s.busy = false → arg < 256 →
    (∀ d : List Byte, 1 ≤ arg → arg ≤ 64 → d.length = arg → Holds d s.cb →
      ∃ idx, exec (.csumDcs arg tmo) s = .next { ended .ok 0x11 arg tmo s with
        res8 := some (dcs Config.params.dirH2C d)
        acc := sum8 (Config.params.dirH2C :: d)
        idx := idx }) ∧
    ((arg = 0 ∨ 64 < arg) → exec (.csumDcs arg tmo) s = .next (ended .invalidParameter 0x11 arg tmo s)) ∧
    (∀ i, arg ≤ 64 → i < arg → Memory.read s.cb i = none →
      ∃ j, j ≤ i ∧ Memory.read s.cb j = none ∧ exec (.csumDcs arg tmo) s = .fault (.unwrittenRead (.cb j)))

/-- R88: `CSUM_VERIFY` of an image that lies in `RB`: `LEN` at `o`, `LCS` after it, `LEN` bytes, and `DCS`. A failed
check is a result; an image that would leave `RB` ends with InvalidParameter; an unwritten byte of the image faults. -/
def Obligations.CsumVerifyReportsBothChecks : Prop :=
  ∀ (s : State) (arg tmo : Nat), s.busy = false → arg < 256 →
    (∀ (len lc dc : Byte) (body : List Byte), arg + 2 + len.toNat ≤ 63 → body.length = len.toNat →
      Memory.read s.rb arg = some len → Memory.read s.rb (arg + 1) = some lc →
      (∀ k, k < body.length → Memory.read s.rb (arg + 2 + k) = body[k]?) →
      Memory.read s.rb (arg + 2 + len.toNat) = some dc →
      ∃ idx, exec (.csumVerify arg tmo) s = .next { ended .ok 0x12 arg tmo s with
        res8 := some (BitVec.ofNat 8 ((lenOk len lc).toNat + 2 * (dataOk body dc).toNat))
        acc := sum8 body
        idx := idx }) ∧
    (63 < arg + 2 → exec (.csumVerify arg tmo) s = .next (ended .invalidParameter 0x12 arg tmo s)) ∧
    (∀ len : Byte, arg + 2 ≤ 63 → Memory.read s.rb arg = some len → 63 < arg + 2 + len.toNat →
      exec (.csumVerify arg tmo) s = .next (ended .invalidParameter 0x12 arg tmo s)) ∧
    (arg + 2 ≤ 63 → Memory.read s.rb arg = none →
      exec (.csumVerify arg tmo) s = .fault (.unwrittenRead (.rb arg))) ∧
    (∀ (len : Byte) (k : Nat), Memory.read s.rb arg = some len → arg + 2 + len.toNat ≤ 63 → arg < k →
      k ≤ arg + 2 + len.toNat → Memory.read s.rb k = none →
      ∃ j, arg < j ∧ j ≤ arg + 2 + len.toNat ∧ Memory.read s.rb j = none ∧
        exec (.csumVerify arg tmo) s = .fault (.unwrittenRead (.rb j)))

/-- R91: `ACK_MATCH` compares the six bytes of `ACKBUF` with the constant, into `RES8` bit 0; with one of the six
unwritten it faults, naming an unwritten one of the six. -/
def Obligations.AckMatchReportsTheCompare : Prop :=
  ∀ (s : State) (arg tmo : Nat), s.busy = false →
    (∀ bs : List Byte, bs.length = 6 → Holds bs s.ackbuf →
      ∃ idx, exec (.ackMatch arg tmo) s = .next { ended .ok 0x23 arg tmo s with
        idx := idx
        res8 := some (if bs = [0x00, 0x00, 0xFF, 0x00, 0xFF, 0x00] then 0x01 else 0x00) }) ∧
    (∀ i, i < 6 → Memory.read s.ackbuf i = none →
      ∃ j, j < 6 ∧ Memory.read s.ackbuf j = none ∧ exec (.ackMatch arg tmo) s = .fault (.unwrittenRead (.ackbuf j)))

/-- R123: `PARSE_FWVER` on ten written bytes: a matching header gives `FWVER`, any other ends with
ResponseStructureMismatch and changes no result; with one of the ten unwritten it faults, naming an unwritten one of
the ten. -/
def Obligations.ParseFwverPacksOrRejects : Prop :=
  ∀ (s : State) (arg tmo : Nat), s.busy = false →
    (∀ (h : List Byte) (b6 b7 b8 b9 : Byte), h.length = 6 → Holds (h ++ [b6, b7, b8, b9]) s.rb →
      ∃ idx, exec (.parseFwver arg tmo) s = .next
        (if h = Config.params.fwHeader.toList then
          { ended .ok 0x30 arg tmo s with fwver := some (be32 b6 b7 b8 b9), idx := idx }
        else { ended .responseStructureMismatch 0x30 arg tmo s with idx := idx })) ∧
    (∀ i, i < 10 → Memory.read s.rb i = none →
      ∃ j, j < 10 ∧ Memory.read s.rb j = none ∧ exec (.parseFwver arg tmo) s = .fault (.unwrittenRead (.rb j)))

/-- R124: `PARSE_SAM` tests `RB[6]` against the status code and writes no result. -/
def Obligations.ParseSamTestsTheStatusByte : Prop :=
  ∀ (s : State) (arg tmo : Nat), s.busy = false →
    (∀ b, Memory.read s.rb 6 = some b →
      exec (.parseSam arg tmo) s = .next
        (if b = Config.params.samStatusOk then ended .ok 0x31 arg tmo s
        else ended .responseStructureMismatch 0x31 arg tmo s)) ∧
    (Memory.read s.rb 6 = none → exec (.parseSam arg tmo) s = .fault (.unwrittenRead (.rb 6)))

/-- R127: `PARSE_TARGET`. With one tag and a written UID of length `L`, 0 to 7, it writes `UIDLEN` and `UID[0..L-1]` and
leaves the rest of `UID`; with no tag or several it ends with their error and changes no result, reading nothing else;
with a length above 7 it is the fault UidOverrun; with the count, the length or a UID byte unwritten it is the fault
UnwrittenRead, naming the count, the length or an unwritten UID byte. -/
def Obligations.ParseTargetExtractsTheUid : Prop :=
  ∀ (s : State) (arg tmo : Nat), s.busy = false →
    (∀ (len : Byte) (u : List Byte), Memory.read s.rb 7 = some 1 → Memory.read s.rb 12 = some len →
      len.toNat ≤ 7 → u.length = len.toNat → (∀ k, k < u.length → Memory.read s.rb (13 + k) = u[k]?) →
      ∃ (uid : Memory) (idx : BitVec 7),
        exec (.parseTarget arg tmo) s = .next { ended .ok 0x32 arg tmo s with
          uidlen := some len, uid := uid, idx := idx } ∧ Overwrites u s.uid uid) ∧
    (Memory.read s.rb 7 = some 0 → exec (.parseTarget arg tmo) s = .next (ended .noTagFound 0x32 arg tmo s)) ∧
    (∀ c : Byte, Memory.read s.rb 7 = some c → 2 ≤ c.toNat →
      exec (.parseTarget arg tmo) s = .next (ended .multipleTagsUnsupported 0x32 arg tmo s)) ∧
    (∀ len : Byte, Memory.read s.rb 7 = some 1 → Memory.read s.rb 12 = some len → 7 < len.toNat →
      exec (.parseTarget arg tmo) s = .fault (.uidOverrun len)) ∧
    (Memory.read s.rb 7 = none → exec (.parseTarget arg tmo) s = .fault (.unwrittenRead (.rb 7))) ∧
    (Memory.read s.rb 7 = some 1 → Memory.read s.rb 12 = none →
      exec (.parseTarget arg tmo) s = .fault (.unwrittenRead (.rb 12))) ∧
    (∀ (len : Byte) (k : Nat), Memory.read s.rb 7 = some 1 → Memory.read s.rb 12 = some len → len.toNat ≤ 7 →
      k < len.toNat → Memory.read s.rb (13 + k) = none →
      ∃ j, j < len.toNat ∧ Memory.read s.rb (13 + j) = none ∧
        exec (.parseTarget arg tmo) s = .fault (.unwrittenRead (.rb (13 + j))))

/-! ### The operations that use the transport -/

/-- R97, R66, R68: `WRITE_COMMAND` of `n` written bytes, 1 to 64, at a bound engine sends the marker and the frame in
one select bracket; a count out of range ends with InvalidParameter; an unwritten cell among the first `n` faults. At an
unbound engine it ends with InitFailure whatever the count and the cells. -/
def Obligations.WriteCommandSendsTheFrame : Prop :=
  ∀ (s : State) (arg tmo : Nat), s.busy = false → arg < 256 →
    (s.bound = false → exec (.writeCommand arg tmo) s = .next (ended .initFailure 0x20 arg tmo s)) ∧
    (∀ d : List Byte, s.bound = true → 1 ≤ arg → arg ≤ 64 → d.length = arg → Holds d s.cb →
      ∃ idx, exec (.writeCommand arg tmo) s = .next { ended .ok 0x20 arg tmo s with
        sel := false
        lenr := BitVec.ofNat 8 (arg + 1)
        acc := sum8 (Config.params.dirH2C :: d)
        idx := idx
        trace := s.trace ++ frameEvents Config.params d }) ∧
    (s.bound = true → (arg = 0 ∨ 64 < arg) →
      exec (.writeCommand arg tmo) s = .next (ended .invalidParameter 0x20 arg tmo s)) ∧
    (∀ i, s.bound = true → arg ≤ 64 → i < arg → Memory.read s.cb i = none →
      ∃ j, j ≤ i ∧ Memory.read s.cb j = none ∧ exec (.writeCommand arg tmo) s = .fault (.unwrittenRead (.cb j)))

/-- R107: `WAIT_READY` at a bound engine, up to its first round: ready ends it with Ok after two events; not ready and
the budget exceeded ends it with TransportTimeout; not ready within the budget leaves it running, its next line the
same poll. -/
def Obligations.WaitReadyFirstRound : Prop :=
  ∀ (s : State) (arg tmo : Nat) (t0 t : Word), s.busy = false → s.bound = true → tmo < 65536 →
    tickAnswers 2 s = [t0, t] →
    (readyAnswers 1 s = [true] →
      exec (.waitReady arg tmo) s = .next { ended .ok 0x21 arg tmo s with
        t0 := t0
        readyIn := Answers.skip 1 s.readyIn
        tickIn := Answers.skip 1 s.tickIn
        trace := s.trace ++ waitEvents t0 }) ∧
    (readyAnswers 1 s = [false] → tmo < (t.toNat + 2 ^ 32 - t0.toNat) % 2 ^ 32 →
      exec (.waitReady arg tmo) s = .next { ended .transportTimeout 0x21 arg tmo s with
        t0 := t0
        readyIn := Answers.skip 1 s.readyIn
        tickIn := Answers.skip 2 s.tickIn
        trace := s.trace ++ failedPollEvents t0 t }) ∧
    (readyAnswers 1 s = [false] → (t.toNat + 2 ^ 32 - t0.toNat) % 2 ^ 32 ≤ tmo →
      exec (.waitReady arg tmo) s = .next { ended s.err 0x21 arg tmo s with
        busy := true
        phase := [.poll .tmor false, .finish]
        t0 := t0
        readyIn := Answers.skip 1 s.readyIn
        tickIn := Answers.skip 2 s.tickIn
        trace := s.trace ++ failedPollEvents t0 t })

/-- R92: `READ_ACK` at a bound engine always reads six bytes into `ACKBUF` in one bracket, and then ends with Ok when
they are the ACK constant and with AckMismatch when they are not; at an unbound engine it ends with InitFailure. -/
def Obligations.ReadAckReadsSixAndCompares : Prop :=
  ∀ (s : State) (arg tmo : Nat), s.busy = false →
    (s.bound = false → exec (.readAck arg tmo) s = .next (ended .initFailure 0x22 arg tmo s)) ∧
    (s.bound = true →
      ∃ (ackbuf : Memory) (idx : BitVec 7),
        exec (.readAck arg tmo) s = .next
          { ended (if recvAnswers 6 s = [0x00, 0x00, 0xFF, 0x00, 0xFF, 0x00] then .ok else .ackMismatch)
              0x22 arg tmo s with
            sel := false
            ackbuf := ackbuf
            idx := idx
            recvIn := Answers.skip 6 s.recvIn
            trace := s.trace ++ readEvents Config.params (recvAnswers 6 s) } ∧
        Overwrites (recvAnswers 6 s) s.ackbuf ackbuf)

/-- R108: `READ_DATA` of 0 to 64 bytes at a bound engine writes them, unchanged and in order, to `RB[0..N-1]` and leaves
`RB[N..63]`; a count above 64 ends with InvalidParameter and no event; at an unbound engine it ends with InitFailure
whatever the count. -/
def Obligations.ReadDataFillsTheResponseBuffer : Prop :=
  ∀ (s : State) (arg tmo : Nat), s.busy = false → arg < 256 →
    (s.bound = false → exec (.readData arg tmo) s = .next (ended .initFailure 0x24 arg tmo s)) ∧
    (s.bound = true → arg ≤ 64 →
      ∃ (rb : Memory) (idx : BitVec 7),
        exec (.readData arg tmo) s = .next { ended .ok 0x24 arg tmo s with
          sel := false
          lenr := BitVec.ofNat 8 arg
          rb := rb
          idx := idx
          recvIn := Answers.skip arg s.recvIn
          trace := s.trace ++ readEvents Config.params (recvAnswers arg s) } ∧
        Overwrites (recvAnswers arg s) s.rb rb) ∧
    (s.bound = true → 64 < arg → exec (.readData arg tmo) s = .next (ended .invalidParameter 0x24 arg tmo s))

/-- R111, R110, R113: `EXCHANGE` of `n` written bytes at a bound engine, the chip ready at the first poll of both waits
and acknowledging: the frame, a wait, the ACK read, a wait with a `T0` of its own, `HS = RESPONSE_READY`, and neither
`RB` nor a result register touched. -/
def Obligations.ExchangeSucceeds : Prop :=
  ∀ (s : State) (arg tmo : Nat) (d : List Byte) (t1 t2 : Word), s.busy = false → s.bound = true →
    1 ≤ arg → arg ≤ 64 → d.length = arg → Holds d s.cb →
    readyAnswers 2 s = [true, true] → tickAnswers 2 s = [t1, t2] →
    recvAnswers 6 s = [0x00, 0x00, 0xFF, 0x00, 0xFF, 0x00] →
    ∃ (ackbuf : Memory) (idx : BitVec 7),
      exec (.exchange arg tmo) s = .next { ended .ok 0x25 arg tmo s with
        hs := .responseReady
        sel := false
        lenr := BitVec.ofNat 8 (arg + 1)
        acc := sum8 (Config.params.dirH2C :: d)
        t0 := t2
        ackbuf := ackbuf
        idx := idx
        readyIn := Answers.skip 2 s.readyIn
        tickIn := Answers.skip 2 s.tickIn
        recvIn := Answers.skip 6 s.recvIn
        trace := s.trace ++ frameEvents Config.params d ++ waitEvents t1 ++
          readEvents Config.params [0x00, 0x00, 0xFF, 0x00, 0xFF, 0x00] ++ waitEvents t2 } ∧
      Overwrites [0x00, 0x00, 0xFF, 0x00, 0xFF, 0x00] s.ackbuf ackbuf

/-- R111, R155, R158: the checks of an `EXCHANGE` at a bound engine, before any event: a count of 0 or above 64 ends it
with InvalidParameter and changes nothing else, `HS` included; an unwritten cell among the first `n` is the fault
UnwrittenRead. -/
def Obligations.ExchangeChecksComeFirst : Prop :=
  ∀ (s : State) (arg tmo : Nat), s.busy = false → s.bound = true → arg < 256 →
    ((arg = 0 ∨ 64 < arg) → exec (.exchange arg tmo) s = .next (ended .invalidParameter 0x25 arg tmo s)) ∧
    (∀ i, arg ≤ 64 → i < arg → Memory.read s.cb i = none →
      ∃ j, j ≤ i ∧ Memory.read s.cb j = none ∧ exec (.exchange arg tmo) s = .fault (.unwrittenRead (.cb j)))

/-- R107, R110, R111: an `EXCHANGE` of `n` written bytes at a bound engine goes on waiting when the first poll of either
wait finds the chip not ready within the budget: the engine stays busy with `ERR` as it was, `HS` at the state of that
wait, and the rest of the pseudocode from that poll on to run. -/
def Obligations.ExchangeGoesOnWaitingWithinItsBudget : Prop :=
  ∀ (s : State) (arg tmo : Nat) (d : List Byte), s.busy = false → s.bound = true →
    1 ≤ arg → arg ≤ 64 → d.length = arg → Holds d s.cb → tmo < 65536 →
    (∀ t0 t : Word, readyAnswers 1 s = [false] → tickAnswers 2 s = [t0, t] →
      (t.toNat + 2 ^ 32 - t0.toNat) % 2 ^ 32 ≤ tmo →
      ∃ idx, exec (.exchange arg tmo) s = .next { ended s.err 0x25 arg tmo s with
        busy := true
        phase := .poll .tmor true :: (readAckBody Config.params true ++ [.setHs .ackReceived, .setHs .waitingReady2] ++
          waitBody .tmor true ++ [.setHs .responseReady, .finish])
        hs := .waitingReady1
        sel := false
        lenr := BitVec.ofNat 8 (arg + 1)
        acc := sum8 (Config.params.dirH2C :: d)
        t0 := t0
        idx := idx
        readyIn := Answers.skip 1 s.readyIn
        tickIn := Answers.skip 2 s.tickIn
        trace := s.trace ++ frameEvents Config.params d ++ failedPollEvents t0 t }) ∧
    (∀ t1 t2 t : Word, readyAnswers 2 s = [true, false] → tickAnswers 3 s = [t1, t2, t] →
      recvAnswers 6 s = [0x00, 0x00, 0xFF, 0x00, 0xFF, 0x00] → (t.toNat + 2 ^ 32 - t2.toNat) % 2 ^ 32 ≤ tmo →
      ∃ (ackbuf : Memory) (idx : BitVec 7),
        exec (.exchange arg tmo) s = .next { ended s.err 0x25 arg tmo s with
          busy := true
          phase := [.poll .tmor true, .setHs .responseReady, .finish]
          hs := .waitingReady2
          sel := false
          lenr := BitVec.ofNat 8 (arg + 1)
          acc := sum8 (Config.params.dirH2C :: d)
          t0 := t2
          ackbuf := ackbuf
          idx := idx
          readyIn := Answers.skip 2 s.readyIn
          tickIn := Answers.skip 3 s.tickIn
          recvIn := Answers.skip 6 s.recvIn
          trace := s.trace ++ frameEvents Config.params d ++ waitEvents t1 ++
            readEvents Config.params [0x00, 0x00, 0xFF, 0x00, 0xFF, 0x00] ++ failedPollEvents t2 t } ∧
        Overwrites [0x00, 0x00, 0xFF, 0x00, 0xFF, 0x00] s.ackbuf ackbuf)

/-- R110, R111, R156: how an `EXCHANGE` of `n` written bytes fails in its handshake at a bound engine: a first poll of
either wait that finds the budget exceeded ends it with TransportTimeout, six bytes other than the ACK end it with
AckMismatch; in all three `HS = TIMEOUT` and chip-select is deasserted, and the events stop at the failing step. (Its
checks before the handshake are ExchangeChecksComeFirst and InitFailureIsTheFirstCheck, a first poll within the budget
is ExchangeGoesOnWaitingWithinItsBudget.) -/
def Obligations.ExchangeFailsAtTheFailingStep : Prop :=
  ∀ (s : State) (arg tmo : Nat) (d : List Byte), s.busy = false → s.bound = true →
    1 ≤ arg → arg ≤ 64 → d.length = arg → Holds d s.cb → tmo < 65536 →
    (∀ t0 t : Word, readyAnswers 1 s = [false] → tickAnswers 2 s = [t0, t] →
      tmo < (t.toNat + 2 ^ 32 - t0.toNat) % 2 ^ 32 →
      ∃ u, exec (.exchange arg tmo) s = .next u ∧ u.err = .transportTimeout ∧ u.hs = .timeout ∧ u.sel = false ∧
        u.busy = false ∧ u.ackbuf = s.ackbuf ∧ u.rb = s.rb ∧
        u.trace = s.trace ++ frameEvents Config.params d ++ failedPollEvents t0 t) ∧
    (∀ t0 : Word, readyAnswers 1 s = [true] → tickAnswers 1 s = [t0] →
      recvAnswers 6 s ≠ [0x00, 0x00, 0xFF, 0x00, 0xFF, 0x00] →
      ∃ u, exec (.exchange arg tmo) s = .next u ∧ u.err = .ackMismatch ∧ u.hs = .timeout ∧ u.sel = false ∧
        u.busy = false ∧ Overwrites (recvAnswers 6 s) s.ackbuf u.ackbuf ∧ u.rb = s.rb ∧
        u.trace = s.trace ++ frameEvents Config.params d ++ waitEvents t0 ++
          readEvents Config.params (recvAnswers 6 s)) ∧
    (∀ t1 t2 t : Word, readyAnswers 2 s = [true, false] → tickAnswers 3 s = [t1, t2, t] →
      recvAnswers 6 s = [0x00, 0x00, 0xFF, 0x00, 0xFF, 0x00] → tmo < (t.toNat + 2 ^ 32 - t2.toNat) % 2 ^ 32 →
      ∃ u, exec (.exchange arg tmo) s = .next u ∧ u.err = .transportTimeout ∧ u.hs = .timeout ∧ u.sel = false ∧
        u.busy = false ∧ Overwrites (recvAnswers 6 s) s.ackbuf u.ackbuf ∧ u.rb = s.rb ∧
        u.trace = s.trace ++ frameEvents Config.params d ++ waitEvents t1 ++
          readEvents Config.params (recvAnswers 6 s) ++ failedPollEvents t2 t)

/-- R112: `EXCHANGE n, tmo` and the program `WRITE_COMMAND n; WAIT_READY tmo; READ_ACK; WAIT_READY tmo`, stopped at its
first failing line, end with the same events, the same `ACKBUF` and the same `ERR` under the same answers, however many
rounds the two waits take: the waits of the program need together no more steps than the exchange. -/
def Obligations.ExchangeEqualsItsUnits : Prop :=
  ∀ (s t : State) (arg tmo k : Nat), s.busy = false → OwnSteps k s → runOp k (.exchange arg tmo) s = .next t →
    t.busy = false →
    ∃ u1, exec (.writeCommand arg tmo) s = .next u1 ∧
      ((u1.err ≠ .ok ∧ t.trace = u1.trace ∧ t.ackbuf = u1.ackbuf ∧ t.err = u1.err) ∨
       (u1.err = .ok ∧ ∃ k1 u2, k1 ≤ k ∧ runOp k1 (.waitReady 0 tmo) u1 = .next u2 ∧ u2.busy = false ∧
        ((u2.err ≠ .ok ∧ t.trace = u2.trace ∧ t.ackbuf = u2.ackbuf ∧ t.err = u2.err) ∨
         (u2.err = .ok ∧ ∃ u3, exec (.readAck 0 0) u2 = .next u3 ∧
          ((u3.err ≠ .ok ∧ t.trace = u3.trace ∧ t.ackbuf = u3.ackbuf ∧ t.err = u3.err) ∨
           (u3.err = .ok ∧ ∃ k2 u4, k1 + k2 ≤ k ∧ runOp k2 (.waitReady 0 tmo) u3 = .next u4 ∧ u4.busy = false ∧
            t.trace = u4.trace ∧ t.ackbuf = u4.ackbuf ∧ t.err = u4.err))))))

/-! ### The four requests (spec/45_host_ops.md) -/

/-- R137, R141: `GET_FIRMWARE_VERSION` at a bound engine, the chip ready at each first poll, acknowledging and answering
twelve bytes: the frame of `[OPC_GETFW]`, the handshake, the read, `RB[0..11]` the bytes, and `FWVER` packed from
offsets 6 to 9 when the first six are the header, else ResponseStructureMismatch with `FWVER` as it was. -/
def Obligations.GetFirmwareVersionReadsAndPacks : Prop :=
  ∀ (s : State) (arg tmo : Nat) (t1 t2 : Word) (h : List Byte) (b6 b7 b8 b9 b10 b11 : Byte), s.busy = false →
    s.bound = true → readyAnswers 2 s = [true, true] → tickAnswers 2 s = [t1, t2] → h.length = 6 →
    recvAnswers 18 s = [0x00, 0x00, 0xFF, 0x00, 0xFF, 0x00] ++ (h ++ [b6, b7, b8, b9, b10, b11]) →
    ∃ (cb ackbuf rb : Memory) (idx : BitVec 7),
      exec (.getFirmwareVersion arg tmo) s = .next
        { ended (if h = Config.params.fwHeader.toList then .ok else .responseStructureMismatch) 0x01 arg tmo s with
          fwver := if h = Config.params.fwHeader.toList then some (be32 b6 b7 b8 b9) else s.fwver
          hs := .responseReady
          sel := false
          lenr := 12
          acc := sum8 [Config.params.dirH2C, Config.params.opcGetFw]
          t0 := t2
          cb := cb
          ackbuf := ackbuf
          rb := rb
          idx := idx
          readyIn := Answers.skip 2 s.readyIn
          tickIn := Answers.skip 2 s.tickIn
          recvIn := Answers.skip 18 s.recvIn
          trace := s.trace ++ frameEvents Config.params [Config.params.opcGetFw] ++ waitEvents t1 ++
            readEvents Config.params [0x00, 0x00, 0xFF, 0x00, 0xFF, 0x00] ++ waitEvents t2 ++
            readEvents Config.params (h ++ [b6, b7, b8, b9, b10, b11]) } ∧
      Overwrites [Config.params.opcGetFw] s.cb cb ∧
      Overwrites [0x00, 0x00, 0xFF, 0x00, 0xFF, 0x00] s.ackbuf ackbuf ∧
      Overwrites (h ++ [b6, b7, b8, b9, b10, b11]) s.rb rb

/-- R138, R141: `CONFIGURE_SAM` at a bound engine, the chip ready at each first poll, acknowledging and answering eight
bytes: it ends with Ok when the byte at offset 6 is the status code and with ResponseStructureMismatch when not, and no
result register is written. -/
def Obligations.ConfigureSamTestsOneByte : Prop :=
  ∀ (s : State) (arg tmo : Nat) (t1 t2 : Word) (h : List Byte) (b6 b7 : Byte), s.busy = false →
    s.bound = true → readyAnswers 2 s = [true, true] → tickAnswers 2 s = [t1, t2] → h.length = 6 →
    recvAnswers 14 s = [0x00, 0x00, 0xFF, 0x00, 0xFF, 0x00] ++ (h ++ [b6, b7]) →
    ∃ (cb ackbuf rb : Memory) (idx : BitVec 7),
      exec (.configureSam arg tmo) s = .next
        { ended (if b6 = Config.params.samStatusOk then .ok else .responseStructureMismatch) 0x02 arg tmo s with
          hs := .responseReady
          sel := false
          lenr := 8
          acc := sum8 (Config.params.dirH2C :: samData Config.params)
          t0 := t2
          cb := cb
          ackbuf := ackbuf
          rb := rb
          idx := idx
          readyIn := Answers.skip 2 s.readyIn
          tickIn := Answers.skip 2 s.tickIn
          recvIn := Answers.skip 14 s.recvIn
          trace := s.trace ++ frameEvents Config.params (samData Config.params) ++ waitEvents t1 ++
            readEvents Config.params [0x00, 0x00, 0xFF, 0x00, 0xFF, 0x00] ++ waitEvents t2 ++
            readEvents Config.params (h ++ [b6, b7]) } ∧
      Overwrites (samData Config.params) s.cb cb ∧
      Overwrites [0x00, 0x00, 0xFF, 0x00, 0xFF, 0x00] s.ackbuf ackbuf ∧
      Overwrites (h ++ [b6, b7]) s.rb rb

/-- R139, R141: `SET_PASSIVE_ACTIVATION_RETRIES r` at a bound engine, the chip ready at each first poll and
acknowledging: the frame carries `ARG` unchecked as its last frame-data byte, the handshake runs whole, nothing is read
after it, and `RB` and every result register are untouched. -/
def Obligations.SetRetriesStopsAfterTheHandshake : Prop :=
  ∀ (s : State) (arg tmo : Nat) (t1 t2 : Word), s.busy = false →
    s.bound = true → readyAnswers 2 s = [true, true] → tickAnswers 2 s = [t1, t2] →
    recvAnswers 6 s = [0x00, 0x00, 0xFF, 0x00, 0xFF, 0x00] →
    ∃ (cb ackbuf : Memory) (idx : BitVec 7),
      exec (.setPassiveActivationRetries arg tmo) s = .next { ended .ok 0x03 arg tmo s with
        hs := .responseReady
        sel := false
        lenr := lengthByte (retriesData Config.params (BitVec.ofNat 8 arg)).length
        acc := sum8 (Config.params.dirH2C :: retriesData Config.params (BitVec.ofNat 8 arg))
        t0 := t2
        cb := cb
        ackbuf := ackbuf
        idx := idx
        readyIn := Answers.skip 2 s.readyIn
        tickIn := Answers.skip 2 s.tickIn
        recvIn := Answers.skip 6 s.recvIn
        trace := s.trace ++ frameEvents Config.params (retriesData Config.params (BitVec.ofNat 8 arg)) ++
          waitEvents t1 ++ readEvents Config.params [0x00, 0x00, 0xFF, 0x00, 0xFF, 0x00] ++ waitEvents t2 } ∧
      Overwrites (retriesData Config.params (BitVec.ofNat 8 arg)) s.cb cb ∧
      Overwrites [0x00, 0x00, 0xFF, 0x00, 0xFF, 0x00] s.ackbuf ackbuf

/-- R140, R141: `READ_PASSIVE_TARGET_ID b, t` at a bound engine, the chip ready at each first poll, acknowledging and
answering twenty bytes `r`. One tag and a length 0 to 7 give `UIDLEN` and `UID[0..L-1]`; no tag gives NoTagFound and
several MultipleTagsUnsupported, the results as they were; one tag and a length above 7 is the fault UidOverrun. In all
but the last, `RB[0..19]` are the bytes. -/
def Obligations.ReadPassiveTargetReturnsTheUid : Prop :=
  ∀ (s : State) (arg tmo : Nat) (t1 t2 : Word) (r : List Byte) (c len : Byte), s.busy = false →
    s.bound = true → readyAnswers 2 s = [true, true] → tickAnswers 2 s = [t1, t2] → r.length = 20 →
    recvAnswers 26 s = [0x00, 0x00, 0xFF, 0x00, 0xFF, 0x00] ++ r → r[7]? = some c → r[12]? = some len →
    (c ≠ 1 ∨ len.toNat ≤ 7 →
      ∃ (cb ackbuf rb uid : Memory) (idx : BitVec 7),
        exec (.readPassiveTargetId arg tmo) s = .next
          { ended (if c = 1 then .ok else if c = 0 then .noTagFound else .multipleTagsUnsupported) 0x04 arg tmo s with
            uidlen := if c = 1 then some len else s.uidlen
            uid := uid
            hs := .responseReady
            sel := false
            lenr := 20
            acc := sum8 (Config.params.dirH2C :: inlistData Config.params (BitVec.ofNat 8 arg))
            t0 := t2
            cb := cb
            ackbuf := ackbuf
            rb := rb
            idx := idx
            readyIn := Answers.skip 2 s.readyIn
            tickIn := Answers.skip 2 s.tickIn
            recvIn := Answers.skip 26 s.recvIn
            trace := s.trace ++ frameEvents Config.params (inlistData Config.params (BitVec.ofNat 8 arg)) ++
              waitEvents t1 ++ readEvents Config.params [0x00, 0x00, 0xFF, 0x00, 0xFF, 0x00] ++ waitEvents t2 ++
              readEvents Config.params r } ∧
        Overwrites (inlistData Config.params (BitVec.ofNat 8 arg)) s.cb cb ∧
        Overwrites [0x00, 0x00, 0xFF, 0x00, 0xFF, 0x00] s.ackbuf ackbuf ∧
        Overwrites r s.rb rb ∧
        (c = 1 → Overwrites ((r.drop 13).take len.toNat) s.uid uid) ∧ (c ≠ 1 → uid = s.uid)) ∧
    (c = 1 → 7 < len.toNat → exec (.readPassiveTargetId arg tmo) s = .fault (.uidOverrun len))

/-- R142 (b), R143, R156: how a request fails in its handshake at a bound engine, its budget being `TMOR` for
`READ_PASSIVE_TARGET_ID` and `DEFAULT_TIMEOUT_MS` for the other three. In all cases the frame of its frame data has been
sent and `CB` holds that data; a first poll of either wait over the budget ends it with TransportTimeout, a first poll
within it leaves the operation waiting, six bytes other than the ACK end it with AckMismatch; on an error
`HS = TIMEOUT`, and always chip-select is deasserted and `RB` and the result registers are as they were. -/
def Obligations.RequestsFailInTheHandshake : Prop :=
  ∀ (i : Instr) (s : State), isRequest i = true → s.busy = false → s.bound = true →
    (∀ t0 t : Word, readyAnswers 1 s = [false] → tickAnswers 2 s = [t0, t] →
      ∃ u, exec i s = .next u ∧ u.sel = false ∧ u.rb = s.rb ∧ u.ackbuf = s.ackbuf ∧
        u.res8 = s.res8 ∧ u.fwver = s.fwver ∧ u.uidlen = s.uidlen ∧ u.uid = s.uid ∧
        Overwrites (requestData Config.params i) s.cb u.cb ∧
        u.trace = s.trace ++ frameEvents Config.params (requestData Config.params i) ++ failedPollEvents t0 t ∧
        (requestBudget Config.params i < (t.toNat + 2 ^ 32 - t0.toNat) % 2 ^ 32 →
          u.err = .transportTimeout ∧ u.hs = .timeout ∧ u.busy = false) ∧
        ((t.toNat + 2 ^ 32 - t0.toNat) % 2 ^ 32 ≤ requestBudget Config.params i →
          u.err = s.err ∧ u.hs = .waitingReady1 ∧ u.busy = true)) ∧
    (∀ t0 : Word, readyAnswers 1 s = [true] → tickAnswers 1 s = [t0] →
      recvAnswers 6 s ≠ [0x00, 0x00, 0xFF, 0x00, 0xFF, 0x00] →
      ∃ u, exec i s = .next u ∧ u.res8 = s.res8 ∧ u.fwver = s.fwver ∧ u.uidlen = s.uidlen ∧ u.uid = s.uid ∧
        u.sel = false ∧ u.rb = s.rb ∧ Overwrites (recvAnswers 6 s) s.ackbuf u.ackbuf ∧
        Overwrites (requestData Config.params i) s.cb u.cb ∧
        u.trace = s.trace ++ frameEvents Config.params (requestData Config.params i) ++ waitEvents t0 ++
          readEvents Config.params (recvAnswers 6 s) ∧
        u.err = .ackMismatch ∧ u.hs = .timeout ∧ u.busy = false) ∧
    (∀ t1 t2 t : Word, readyAnswers 2 s = [true, false] → tickAnswers 3 s = [t1, t2, t] →
      recvAnswers 6 s = [0x00, 0x00, 0xFF, 0x00, 0xFF, 0x00] →
      ∃ u, exec i s = .next u ∧ u.res8 = s.res8 ∧ u.fwver = s.fwver ∧ u.uidlen = s.uidlen ∧ u.uid = s.uid ∧
        u.sel = false ∧ u.rb = s.rb ∧ Overwrites (recvAnswers 6 s) s.ackbuf u.ackbuf ∧
        Overwrites (requestData Config.params i) s.cb u.cb ∧
        u.trace = s.trace ++ frameEvents Config.params (requestData Config.params i) ++ waitEvents t1 ++
          readEvents Config.params (recvAnswers 6 s) ++ failedPollEvents t2 t ∧
        (requestBudget Config.params i < (t.toNat + 2 ^ 32 - t2.toNat) % 2 ^ 32 →
          u.err = .transportTimeout ∧ u.hs = .timeout ∧ u.busy = false) ∧
        ((t.toNat + 2 ^ 32 - t2.toNat) % 2 ^ 32 ≤ requestBudget Config.params i →
          u.err = s.err ∧ u.hs = .waitingReady2 ∧ u.busy = true))

/-! ### Rules over all operations -/

/-- R152, R158: every operation that uses the transport, at an idle and unbound engine, and `INIT` with bit 0 of `ARG`
clear, ends with InitFailure and nothing else: no event, no buffer write, whatever its other operands. -/
def Obligations.InitFailureIsTheFirstCheck : Prop :=
  ∀ (i : Instr) (s : State), s.busy = false →
    (s.bound = false ∧ usesTransport i = true ∨ i.opcode = 0x00 ∧ i.arg % 2 = 0) →
    exec i s = .next (ended .initFailure i.opcode i.arg i.tmo s)

/-- R156, R120: an operation that fails, at its first step or after any number of rounds of its waits, or that is still
waiting, has written no result register. -/
def Obligations.FailureLeavesTheResults : Prop :=
  ∀ (i : Instr) (s t : State) (k : Nat), s.busy = false → OwnSteps k s → runOp k i s = .next t →
    (t.err ≠ .ok ∨ t.busy = true) →
    t.res8 = s.res8 ∧ t.fwver = s.fwver ∧ t.uidlen = s.uidlen ∧ t.uid = s.uid

/-- R11, R13 to R15, R17 to R24, R40 to R42, R63: which operation can change which register or buffer, in its first step
and in every later one: `BOUND`, `HS`, `SEL`, `ACC`, `LENR`, `T0`, the result registers and the buffers have the
writers named; `ERR` is as it was while the operation is still running; `OPR`, `ARGR` and `TMOR` hold what acceptance latched; no operation touches the host's
side, and a busy engine takes none. (`BUSY` and `PHASE` are in OperationsEndIdleOrWait, the events and the answers in
EventsComeFromTransportOperationsOnly; `IDX` is left open, R16.) -/
def Obligations.RegistersAndBuffersHaveTheirWriters : Prop :=
  ∀ (i : Instr) (s t : State) (k : Nat), OwnSteps k s → runOp k i s = .next t →
    (i.opcode ≠ 0x00 → t.bound = s.bound) ∧ (s.bound = true → t.bound = true) ∧
    (isRequest i = false → i.opcode ≠ 0x25 → t.hs = s.hs) ∧
    (i.opcode ≠ 0x10 → i.opcode ≠ 0x11 → i.opcode ≠ 0x12 → i.opcode ≠ 0x23 → t.res8 = s.res8) ∧
    (i.opcode ≠ 0x01 → i.opcode ≠ 0x30 → t.fwver = s.fwver) ∧
    (i.opcode ≠ 0x04 → i.opcode ≠ 0x32 → t.uidlen = s.uidlen ∧ t.uid = s.uid) ∧
    (isRequest i = false → t.cb = s.cb) ∧
    (i.opcode ≠ 0x01 → i.opcode ≠ 0x02 → i.opcode ≠ 0x04 → i.opcode ≠ 0x24 → t.rb = s.rb) ∧
    (isRequest i = false → i.opcode ≠ 0x22 → i.opcode ≠ 0x25 → t.ackbuf = s.ackbuf) ∧
    (isRequest i = false → i.opcode ≠ 0x20 → i.opcode ≠ 0x22 → i.opcode ≠ 0x24 → i.opcode ≠ 0x25 → t.sel = s.sel) ∧
    (isRequest i = false → i.opcode ≠ 0x11 → i.opcode ≠ 0x12 → i.opcode ≠ 0x20 → i.opcode ≠ 0x25 → t.acc = s.acc) ∧
    (isRequest i = false → i.opcode ≠ 0x20 → i.opcode ≠ 0x24 → i.opcode ≠ 0x25 → t.lenr = s.lenr) ∧
    (isRequest i = false → i.opcode ≠ 0x21 → i.opcode ≠ 0x25 → t.t0 = s.t0) ∧
    (t.busy = true → t.err = s.err) ∧
    (s.busy = false → t.opr = i.opcode ∧ t.argr = BitVec.ofNat 8 i.arg ∧ t.tmor = BitVec.ofNat 16 i.tmo) ∧
    (s.busy = true → t = s) ∧
    t.host = s.host ∧ t.noted = s.noted

/-- R86 to R88, R91, R120, R135: an operation that does not use the transport makes no event and asks the environment
nothing; and every operation, in its first step and in every later one, leaves the record of earlier events as it was
and only adds to it. -/
def Obligations.EventsComeFromTransportOperationsOnly : Prop :=
  ∀ (i : Instr) (s t : State) (k : Nat), OwnSteps k s → runOp k i s = .next t →
    (∃ es, t.trace = s.trace ++ es) ∧
    (usesTransport i = false →
      t.trace = s.trace ∧ t.readyIn = s.readyIn ∧ t.tickIn = s.tickIn ∧ t.recvIn = s.recvIn ∧ t.sel = s.sel)

/-- R15, R50, R174: the events of an operation that starts with chip-select deasserted are well framed, every byte
inside a select bracket and every poll outside one, and it ends, or waits, with chip-select deasserted, after any number
of rounds of its waits. -/
def Obligations.OperationsKeepTheSelectFraming : Prop :=
  ∀ (i : Instr) (s t : State) (k : Nat), s.busy = false → s.sel = false → OwnSteps k s → runOp k i s = .next t →
    t.sel = false ∧ ∃ es, t.trace = s.trace ++ es ∧ traceLevel false es = some false

/-- R25, R128, R162: from a bound engine an engine operation never reads anything unwritten, in its first step or in any
later one; the one fault it can meet is a UID length above 7, in `READ_PASSIVE_TARGET_ID`. -/
def Obligations.EngineOperationsReadOnlyFreshBytes : Prop :=
  ∀ (i : Instr) (s : State) (f : Fault) (k : Nat), s.bound = true → (isRequest i = true ∨ i.opcode = 0x00) →
    OwnSteps k s → runOp k i s = .fault f → i.opcode = 0x04 ∧ ∃ len : Byte, f = .uidOverrun len ∧ 7 < len.toNat

/-- R16, R142 (c), R160: after any outcome that is not a fault or an open wait the engine is idle, in the first step of an
operation and in every later one; no operation is ever refused. -/
def Obligations.OperationsEndIdleOrWait : Prop :=
  ∀ (i : Instr) (s : State) (k : Nat), s.busy = false → OwnSteps k s →
    (∀ r, runOp k i s ≠ .refused r) ∧
    (∀ t, runOp k i s = .next t →
      (t.busy = false ∧ t.phase = []) ∨ (t.busy = true ∧ ∃ b x ls, t.phase = .poll b x :: ls))

/-! ### Liveness (spec/00_scope.md R8) -/

/-- R8, R107, R109: a wait in flight ends when the clock goes on to pass its budget. There is a number of rounds that
find the chip not ready within the budget and leave the wait open, after which the next step either finds it ready and
runs the rest of the operation, or reads a time past the budget and ends with TransportTimeout (`HS` to TIMEOUT in an
exchange). The passing of the clock is R8's fairness premise, a premise here and no part of the step. -/
def Obligations.EveryWaitEndsWhenTheTickPasses : Prop :=
  ∀ (s : State) (b : Budget) (x : Bool) (ls : List Line), s.host = [] → s.busy = true → s.phase = .poll b x :: ls →
    TickPasses (budgetOf b s.tmor) s →
    ∃ k, (∀ j, j < k → readyAt j s = false ∧
        ((tickAt j s).toNat + 2 ^ 32 - s.t0.toNat) % 2 ^ 32 ≤ (budgetOf b s.tmor).toNat) ∧
      runSteps k s = .next (afterRounds k s) ∧
      ((readyAt k s = true ∧
          step (afterRounds k s) = runLines ls { afterRounds k s with
            readyIn := Answers.skip (k + 1) s.readyIn
            trace := (afterRounds k s).trace ++ [.ready true] }) ∨
        (readyAt k s = false ∧
          (budgetOf b s.tmor).toNat < ((tickAt k s).toNat + 2 ^ 32 - s.t0.toNat) % 2 ^ 32 ∧
          step (afterRounds k s) = .next { afterRounds (k + 1) s with
            hs := if x then .timeout else s.hs
            err := .transportTimeout
            busy := false
            phase := [] }))

/-- R7, R8: an operation that has gone into a wait comes to its end, or to a fault, in finitely many steps, when the
clock goes on to pass the budget of every wait the run meets (R8's fairness premise). -/
def Obligations.OperationsEndWhenTheTickIsLive : Prop :=
  ∀ (i : Instr) (s t : State), s.busy = false → s.host = [] → exec i s = .next t → TickLive t →
    ∃ k, (∃ u, runSteps k t = .next u ∧ u.busy = false) ∨ ∃ f, runSteps k t = .fault f

/-! ### Waits that take several rounds (spec/43_handshake.md R107, R109, R113) -/

/-- R107, R109 (c), R113, R141: a chip that is ready at later polls only delays an `EXCHANGE` or a request. At a bound
engine, when the polls of the two waits before the ready ones fail within the budget, each wait counting from its own
`T0`, and the chip acknowledges, the operation reaches, a step for each failed poll after `exec`, the same end as when
the chip is ready at both first polls (ExchangeSucceeds and the four statements of the requests): the same final state,
but for the answers used and the record of events, which has the failed polls, or the same fault. -/
def Obligations.LaterPollsOnlyDelayTheHandshake : Prop :=
  ∀ (i : Instr) (s : State) (d : List Byte) (t1 t2 : Word) (ts1 ts2 : List Word),
    s.busy = false → s.bound = true → s.host = [] → isHandshake i = true → SendsData Config.params i s d →
    WithinBudget (handshakeBudget Config.params i) t1 ts1 → WithinBudget (handshakeBudget Config.params i) t2 ts2 →
    readyAnswers (ts1.length + 1 + (ts2.length + 1)) s =
      List.replicate ts1.length false ++ [true] ++ (List.replicate ts2.length false ++ [true]) →
    tickAnswers (ts1.length + 1 + (ts2.length + 1)) s = t1 :: ts1 ++ t2 :: ts2 →
    recvAnswers 6 s = [0x00, 0x00, 0xFF, 0x00, 0xFF, 0x00] →
    runOp (ts1.length + ts2.length) i s =
      mapNext (havingUsed (ts1.length + 1 + (ts2.length + 1)) (ts1.length + 1 + (ts2.length + 1))
          (frameEvents Config.params d ++ openEvents t1 ts1 ++ [.ready true] ++
            readEvents Config.params [0x00, 0x00, 0xFF, 0x00, 0xFF, 0x00] ++ openEvents t2 ts2 ++ [.ready true] ++
            responseEvents Config.params i s) s)
        (exec i (answered [true, true] [t1, t2] s))

/-- R107, R110, R111, R156: a failure of an `EXCHANGE` or a request after failed polls within the budget is the failure
it has without them (ExchangeFailsAtTheFailingStep, RequestsFailInTheHandshake), reached a step for each failed poll
later: a poll of the first wait over the budget, an ACK that does not match, a poll of the second wait over the budget.
The final state is the same, but for the answers used and the record of events, which has the failed polls. -/
def Obligations.LaterFailuresAreThoseOfTheFirstPoll : Prop :=
  ∀ (i : Instr) (s : State) (d : List Byte) (t1 : Word) (ts1 : List Word),
    s.busy = false → s.bound = true → s.host = [] → isHandshake i = true → SendsData Config.params i s d →
    WithinBudget (handshakeBudget Config.params i) t1 ts1 →
    (∀ t : Word, readyAnswers (ts1.length + 1) s = List.replicate (ts1.length + 1) false →
      tickAnswers (ts1.length + 2) s = t1 :: (ts1 ++ [t]) →
      handshakeBudget Config.params i < (t.toNat + 2 ^ 32 - t1.toNat) % 2 ^ 32 →
      runOp ts1.length i s =
        mapNext (havingUsed (ts1.length + 1) (ts1.length + 2)
            (frameEvents Config.params d ++ openEvents t1 (ts1 ++ [t])) s)
          (exec i (answered [false] [t1, t] s))) ∧
    (readyAnswers (ts1.length + 1) s = List.replicate ts1.length false ++ [true] →
      tickAnswers (ts1.length + 1) s = t1 :: ts1 → recvAnswers 6 s ≠ [0x00, 0x00, 0xFF, 0x00, 0xFF, 0x00] →
      runOp ts1.length i s =
        mapNext (havingUsed (ts1.length + 1) (ts1.length + 1)
            (frameEvents Config.params d ++ openEvents t1 ts1 ++ [.ready true] ++
              readEvents Config.params (recvAnswers 6 s)) s)
          (exec i (answered [true] [t1] s))) ∧
    (∀ (t2 t : Word) (ts2 : List Word),
      readyAnswers (ts1.length + 1 + (ts2.length + 1)) s =
        List.replicate ts1.length false ++ [true] ++ List.replicate (ts2.length + 1) false →
      tickAnswers (ts1.length + 1 + (ts2.length + 2)) s = t1 :: ts1 ++ t2 :: (ts2 ++ [t]) →
      recvAnswers 6 s = [0x00, 0x00, 0xFF, 0x00, 0xFF, 0x00] →
      WithinBudget (handshakeBudget Config.params i) t2 ts2 →
      handshakeBudget Config.params i < (t.toNat + 2 ^ 32 - t2.toNat) % 2 ^ 32 →
      runOp (ts1.length + ts2.length) i s =
        mapNext (havingUsed (ts1.length + 1 + (ts2.length + 1)) (ts1.length + 1 + (ts2.length + 2))
            (frameEvents Config.params d ++ openEvents t1 ts1 ++ [.ready true] ++
              readEvents Config.params [0x00, 0x00, 0xFF, 0x00, 0xFF, 0x00] ++ openEvents t2 (ts2 ++ [t])) s)
          (exec i (answered [true, false] [t1, t2, t] s)))

/-- R107, R109 (c): `WAIT_READY` at a bound engine after failed polls within the budget, a step for each of them after
`exec`: it ends with Ok at the first true answer; at a further false one it ends with TransportTimeout when the clock
read after it is over the budget, and otherwise goes on waiting. -/
def Obligations.WaitReadyEndsAtItsFirstTrueAnswer : Prop :=
  ∀ (s : State) (arg tmo : Nat) (t0 : Word) (ts : List Word), s.busy = false → s.bound = true → tmo < 65536 →
    OwnSteps ts.length s → WithinBudget tmo t0 ts →
    (readyAnswers (ts.length + 1) s = List.replicate ts.length false ++ [true] →
      tickAnswers (ts.length + 1) s = t0 :: ts →
      runOp ts.length (.waitReady arg tmo) s = .next { ended .ok 0x21 arg tmo s with
        t0 := t0
        readyIn := Answers.skip (ts.length + 1) s.readyIn
        tickIn := Answers.skip (ts.length + 1) s.tickIn
        trace := s.trace ++ openEvents t0 ts ++ [.ready true] }) ∧
    (∀ t : Word, readyAnswers (ts.length + 1) s = List.replicate (ts.length + 1) false →
      tickAnswers (ts.length + 2) s = t0 :: (ts ++ [t]) →
      (tmo < (t.toNat + 2 ^ 32 - t0.toNat) % 2 ^ 32 →
        runOp ts.length (.waitReady arg tmo) s = .next { ended .transportTimeout 0x21 arg tmo s with
          t0 := t0
          readyIn := Answers.skip (ts.length + 1) s.readyIn
          tickIn := Answers.skip (ts.length + 2) s.tickIn
          trace := s.trace ++ openEvents t0 (ts ++ [t]) }) ∧
      ((t.toNat + 2 ^ 32 - t0.toNat) % 2 ^ 32 ≤ tmo →
        runOp ts.length (.waitReady arg tmo) s = .next { ended s.err 0x21 arg tmo s with
          busy := true
          phase := [.poll .tmor false, .finish]
          t0 := t0
          readyIn := Answers.skip (ts.length + 1) s.readyIn
          tickIn := Answers.skip (ts.length + 2) s.tickIn
          trace := s.trace ++ openEvents t0 (ts ++ [t]) }))

/-- R109 (a) to (c): however a `WAIT_READY` at a bound engine ends, it ends with Ok at the first true answer of `ready()`,
no clock before it being over the budget, or with TransportTimeout at a clock strictly over the budget, no answer up to
it being true and no earlier clock being over it. -/
def Obligations.WaitReadyEndsOnlySo : Prop :=
  ∀ (s u : State) (arg tmo k : Nat), s.busy = false → s.bound = true → tmo < 65536 → OwnSteps k s →
    runOp k (.waitReady arg tmo) s = .next u → u.busy = false →
    ∃ n, n ≤ k ∧
      (∀ j, j < n → readyAt j s = false ∧
        ((tickAt (j + 1) s).toNat + 2 ^ 32 - (tickAt 0 s).toNat) % 2 ^ 32 ≤ tmo) ∧
      ((u.err = .ok ∧ readyAt n s = true) ∨
        (u.err = .transportTimeout ∧ readyAt n s = false ∧
          tmo < ((tickAt (n + 1) s).toNat + 2 ^ 32 - (tickAt 0 s).toNat) % 2 ^ 32))
end

