-- ==== Sys2Proof/Laws/Memory.lean ====
section
/-! SUPPORT. The laws of the buffers: a read after a write, the canonical form, and reading and writing runs of
cells. And the laws of the environment's answers. -/

namespace Sys2Proof.Machine

/-! ### One cell -/

theorem read_write_same (m : Memory) (i : Nat) (v : Byte) : Memory.read (Memory.write m i v) i = some v := by
  induction m with
  | nil => simp [Memory.write, Memory.read]
  | cons c rest ih =>
    obtain ⟨j, b⟩ := c
    by_cases h1 : i < j
    · simp [Memory.write, Memory.read, h1]
    · by_cases h2 : i = j
      · simp [Memory.write, Memory.read, h2]
      · simp [Memory.write, Memory.read, h1, h2, ih]

theorem read_write_other (m : Memory) (i k : Nat) (v : Byte) (h : k ≠ i) :
    Memory.read (Memory.write m i v) k = Memory.read m k := by
  induction m with
  | nil => simp [Memory.write, Memory.read, h]
  | cons c rest ih =>
    obtain ⟨j, b⟩ := c
    by_cases h1 : i < j
    · simp [Memory.write, Memory.read, h1, h]
    · by_cases h2 : i = j
      · subst h2
        simp [Memory.write, Memory.read, h]
      · simp [Memory.write, Memory.read, h1, h2, ih]

theorem read_write (m : Memory) (i k : Nat) (v : Byte) :
    Memory.read (Memory.write m i v) k = if k = i then some v else Memory.read m k := by
  split
  · next h => rw [h, read_write_same]
  · next h => exact read_write_other m i k v h

theorem mem_write (m : Memory) (i : Nat) (v : Byte) (c : Host.Cell) (h : c ∈ Memory.write m i v) :
    c = (i, v) ∨ c ∈ m := by
  induction m with
  | nil => simpa [Memory.write] using h
  | cons d rest ih =>
    obtain ⟨j, b⟩ := d
    unfold Memory.write at h
    split at h
    · simpa using h
    · split at h
      · rcases List.mem_cons.1 h with h | h
        · exact .inl h
        · exact .inr (List.mem_cons_of_mem _ h)
      · rcases List.mem_cons.1 h with h | h
        · exact .inr (by simp [h])
        · rcases ih h with h | h
          · exact .inl h
          · exact .inr (List.mem_cons_of_mem _ h)

theorem wf_write (m : Memory) (i : Nat) (v : Byte) (h : Memory.wf m) : Memory.wf (Memory.write m i v) := by
  induction m with
  | nil => simp [Memory.write, Memory.wf]
  | cons d rest ih =>
    obtain ⟨j, b⟩ := d
    obtain ⟨h1, h2⟩ := List.pairwise_cons.1 h
    unfold Memory.write
    split
    · next hij =>
      refine List.pairwise_cons.2 ⟨fun c hc => ?_, h⟩
      rcases List.mem_cons.1 hc with rfl | hc
      · exact hij
      · exact Nat.lt_trans hij (h1 c hc)
    · split
      · next hij =>
        subst hij
        exact List.pairwise_cons.2 ⟨h1, h2⟩
      · next hlt hne =>
        refine List.pairwise_cons.2 ⟨fun c hc => ?_, ih h2⟩
        rcases mem_write rest i v c hc with rfl | hc
        · exact Nat.lt_of_le_of_ne (Nat.le_of_not_lt hlt) (Ne.symm hne)
        · exact h1 c hc

theorem below_write (cap : Nat) (m : Memory) (i : Nat) (v : Byte) (hi : i < cap) (h : Memory.below cap m) :
    Memory.below cap (Memory.write m i v) := by
  intro c hc
  rcases mem_write m i v c hc with rfl | hc
  · exact hi
  · exact h c hc

theorem read_below (cap : Nat) (m : Memory) (h : Memory.below cap m) (i : Nat) (hi : cap ≤ i) :
    Memory.read m i = none := by
  induction m with
  | nil => rfl
  | cons d rest ih =>
    obtain ⟨j, b⟩ := d
    have hj : j < cap := h (j, b) (by simp)
    have hne : ¬ i = j := by omega
    simp [Memory.read, hne, ih fun c hc => h c (List.mem_cons_of_mem _ hc)]

/-! ### Runs of cells -/

theorem writeRange_append (m : Memory) (i : Nat) (bs cs : List Byte) :
    Memory.writeRange m i (bs ++ cs) = Memory.writeRange (Memory.writeRange m i bs) (i + bs.length) cs := by
  induction bs generalizing m i with
  | nil => simp [Memory.writeRange]
  | cons b bs ih => simp [Memory.writeRange, ih, Nat.add_assoc, Nat.add_comm 1]

theorem wf_writeRange (m : Memory) (i : Nat) (bs : List Byte) (h : Memory.wf m) :
    Memory.wf (Memory.writeRange m i bs) := by
  induction bs generalizing m i with
  | nil => exact h
  | cons b bs ih => exact ih _ _ (wf_write m i b h)

theorem below_writeRange (cap : Nat) (m : Memory) (i : Nat) (bs : List Byte) (hi : i + bs.length ≤ cap)
    (h : Memory.below cap m) : Memory.below cap (Memory.writeRange m i bs) := by
  induction bs generalizing m i with
  | nil => exact h
  | cons b bs ih =>
    simp only [List.length_cons] at hi
    exact ih _ _ (by omega) (below_write cap m i b (by omega) h)

theorem read_writeRange (m : Memory) (i : Nat) (bs : List Byte) (k : Nat) :
    Memory.read (Memory.writeRange m i bs) k =
      if i ≤ k ∧ k < i + bs.length then bs[k - i]? else Memory.read m k := by
  induction bs generalizing m i with
  | nil =>
    have : ¬ (i ≤ k ∧ k < i + ([] : List Byte).length) := by simp
    rw [if_neg this]
    rfl
  | cons b bs ih =>
    simp only [Memory.writeRange, ih, read_write, List.length_cons]
    by_cases h0 : k = i
    · subst h0
      simp
    · by_cases h1 : i + 1 ≤ k ∧ k < i + 1 + bs.length
      · rw [if_pos h1, if_pos (by omega)]
        obtain ⟨d, hd⟩ : ∃ d, k - i = d + 1 := ⟨k - i - 1, by omega⟩
        rw [hd, List.getElem?_cons_succ]
        congr 1
        omega
      · rw [if_neg h1, if_neg h0, if_neg (by omega)]

theorem overwrites_writeRange (m : Memory) (bs : List Byte) : Overwrites bs m (Memory.writeRange m 0 bs) := by
  constructor
  · intro i hi
    rw [read_writeRange, if_pos ⟨Nat.zero_le _, by omega⟩]
    simp
  · intro i hi
    rw [read_writeRange, if_neg (by omega)]

theorem holds_of_overwrites {bs : List Byte} {old new : Memory} (h : Overwrites bs old new) : Holds bs new := h.1

/-- Reading a run of cells answers their bytes exactly when each one is written with its byte. -/
theorem readRange_eq_bytes (m : Memory) (i n : Nat) (bs : List Byte) :
    Memory.readRange m i n = .bytes bs ↔ bs.length = n ∧ ∀ k, k < n → Memory.read m (i + k) = bs[k]? := by
  induction n generalizing i bs with
  | zero =>
    cases bs with
    | nil => simp [Memory.readRange]
    | cons b bs => simp [Memory.readRange]
  | succ n ih =>
    constructor
    · intro h
      unfold Memory.readRange at h
      split at h
      · simp at h
      · next b hb =>
        split at h
        · next cs hcs =>
          obtain ⟨hl, hr⟩ := (ih (i + 1) cs).1 hcs
          obtain rfl : b :: cs = bs := by simpa using h
          refine ⟨by simp [hl], fun k hk => ?_⟩
          cases k with
          | zero => simpa using hb
          | succ k =>
            rw [List.getElem?_cons_succ, ← hr k (by omega)]
            congr 1
            omega
        · simp at h
    · rintro ⟨hl, hr⟩
      cases bs with
      | nil => simp at hl
      | cons b bs =>
        have h0 : Memory.read m i = some b := by simpa using hr 0 (by omega)
        have h1 : Memory.readRange m (i + 1) n = .bytes bs := by
          refine (ih (i + 1) bs).2 ⟨by simpa using hl, fun k hk => ?_⟩
          have := hr (k + 1) (by omega)
          rw [List.getElem?_cons_succ] at this
          rw [← this]
          congr 1
          omega
        simp [Memory.readRange, h0, h1]

theorem readRange_of_holds {m : Memory} {bs : List Byte} (h : Holds bs m) :
    Memory.readRange m 0 bs.length = .bytes bs :=
  (readRange_eq_bytes m 0 bs.length bs).2 ⟨rfl, fun k hk => by simpa using h k hk⟩

/-- Reading a run of cells names the first of them that is unwritten. -/
theorem readRange_unwritten (m : Memory) (i n j : Nat) (h : Memory.readRange m i n = .unwritten j) :
    i ≤ j ∧ j < i + n ∧ Memory.read m j = none := by
  induction n generalizing i with
  | zero => simp [Memory.readRange] at h
  | succ n ih =>
    unfold Memory.readRange at h
    split at h
    · next hb =>
      obtain rfl : i = j := by simpa using h
      exact ⟨Nat.le_refl _, by omega, hb⟩
    · split at h
      · simp at h
      · next k hk =>
        obtain rfl : k = j := by simpa using h
        obtain ⟨h1, h2, h3⟩ := ih (i + 1) hk
        exact ⟨by omega, by omega, h3⟩

/-- Reading a run of cells with an unwritten one in it stops there or before it. -/
theorem readRange_stops {m : Memory} {a n i : Nat} (h1 : a ≤ i) (h2 : i < a + n) (h : Memory.read m i = none) :
    ∃ j, a ≤ j ∧ j ≤ i ∧ Memory.read m j = none ∧ Memory.readRange m a n = .unwritten j := by
  induction n generalizing a with
  | zero => omega
  | succ n ih =>
    unfold Memory.readRange
    by_cases e : Memory.read m a = none
    · exact ⟨a, Nat.le_refl _, h1, e, by simp [e]⟩
    · obtain ⟨b, hb⟩ := Option.ne_none_iff_exists'.1 e
      have : i ≠ a := by
        rintro rfl
        simp [h] at hb
      obtain ⟨j, j1, j2, j3, j4⟩ := ih (a := a + 1) (by omega) (by omega)
      exact ⟨j, by omega, j2, j3, by simp [hb, j4]⟩

/-! ### The environment's answers -/

theorem take_length {α : Type} (free : Nat → α) (n : Nat) (a : Answers α) : (Answers.take free n a).length = n := by
  induction n generalizing a with
  | zero => rfl
  | succ n ih => simp [Answers.take, ih]

theorem take_succ_last {α : Type} (free : Nat → α) (n : Nat) (a : Answers α) :
    Answers.take free (n + 1) a = Answers.take free n a ++ [Answers.now free (Answers.skip n a)] := by
  induction n generalizing a with
  | zero => rfl
  | succ n ih =>
    rw [Answers.take, ih]
    rfl

theorem skip_succ_last {α : Type} (n : Nat) (a : Answers α) :
    Answers.skip (n + 1) a = Answers.next (Answers.skip n a) := by
  induction n generalizing a with
  | zero => rfl
  | succ n ih =>
    rw [Answers.skip, ih]
    rfl

theorem take_add {α : Type} (free : Nat → α) (m n : Nat) (a : Answers α) :
    Answers.take free (m + n) a = Answers.take free m a ++ Answers.take free n (Answers.skip m a) := by
  induction m generalizing a with
  | zero => simp [Answers.take, Answers.skip]
  | succ m ih =>
    rw [Nat.add_right_comm, Answers.take, ih]
    rfl

theorem skip_add {α : Type} (m n : Nat) (a : Answers α) :
    Answers.skip (m + n) a = Answers.skip n (Answers.skip m a) := by
  induction m generalizing a with
  | zero => simp [Answers.skip]
  | succ m ih =>
    rw [Nat.add_right_comm, Answers.skip, ih]
    rfl

end Sys2Proof.Machine
end

