-- ==== Sys2Proof/Laws/State.lean ====
section
/-! SUPPORT. One lemma per field per named update of the state, true by unfolding, so that no later proof unfolds a
record update. -/

namespace Sys2Proof.Machine

/-! ### `emit` -/

@[simp] theorem emit_bound (e : Event) (s : State) : (emit e s).bound = s.bound := rfl
@[simp] theorem emit_busy (e : Event) (s : State) : (emit e s).busy = s.busy := rfl
@[simp] theorem emit_err (e : Event) (s : State) : (emit e s).err = s.err := rfl
@[simp] theorem emit_hs (e : Event) (s : State) : (emit e s).hs = s.hs := rfl
@[simp] theorem emit_sel (e : Event) (s : State) : (emit e s).sel = s.sel := rfl
@[simp] theorem emit_opr (e : Event) (s : State) : (emit e s).opr = s.opr := rfl
@[simp] theorem emit_phase (e : Event) (s : State) : (emit e s).phase = s.phase := rfl
@[simp] theorem emit_idx (e : Event) (s : State) : (emit e s).idx = s.idx := rfl
@[simp] theorem emit_argr (e : Event) (s : State) : (emit e s).argr = s.argr := rfl
@[simp] theorem emit_tmor (e : Event) (s : State) : (emit e s).tmor = s.tmor := rfl
@[simp] theorem emit_acc (e : Event) (s : State) : (emit e s).acc = s.acc := rfl
@[simp] theorem emit_lenr (e : Event) (s : State) : (emit e s).lenr = s.lenr := rfl
@[simp] theorem emit_t0 (e : Event) (s : State) : (emit e s).t0 = s.t0 := rfl
@[simp] theorem emit_res8 (e : Event) (s : State) : (emit e s).res8 = s.res8 := rfl
@[simp] theorem emit_fwver (e : Event) (s : State) : (emit e s).fwver = s.fwver := rfl
@[simp] theorem emit_uidlen (e : Event) (s : State) : (emit e s).uidlen = s.uidlen := rfl
@[simp] theorem emit_uid (e : Event) (s : State) : (emit e s).uid = s.uid := rfl
@[simp] theorem emit_cb (e : Event) (s : State) : (emit e s).cb = s.cb := rfl
@[simp] theorem emit_rb (e : Event) (s : State) : (emit e s).rb = s.rb := rfl
@[simp] theorem emit_ackbuf (e : Event) (s : State) : (emit e s).ackbuf = s.ackbuf := rfl
@[simp] theorem emit_readyIn (e : Event) (s : State) : (emit e s).readyIn = s.readyIn := rfl
@[simp] theorem emit_tickIn (e : Event) (s : State) : (emit e s).tickIn = s.tickIn := rfl
@[simp] theorem emit_recvIn (e : Event) (s : State) : (emit e s).recvIn = s.recvIn := rfl
@[simp] theorem emit_trace (e : Event) (s : State) : (emit e s).trace = s.trace ++ [e] := rfl
@[simp] theorem emit_host (e : Event) (s : State) : (emit e s).host = s.host := rfl
@[simp] theorem emit_noted (e : Event) (s : State) : (emit e s).noted = s.noted := rfl

/-! ### `doSelect` -/

@[simp] theorem doSelect_bound (a : Bool) (s : State) : (doSelect a s).bound = s.bound := rfl
@[simp] theorem doSelect_busy (a : Bool) (s : State) : (doSelect a s).busy = s.busy := rfl
@[simp] theorem doSelect_err (a : Bool) (s : State) : (doSelect a s).err = s.err := rfl
@[simp] theorem doSelect_hs (a : Bool) (s : State) : (doSelect a s).hs = s.hs := rfl
@[simp] theorem doSelect_sel (a : Bool) (s : State) : (doSelect a s).sel = a := rfl
@[simp] theorem doSelect_opr (a : Bool) (s : State) : (doSelect a s).opr = s.opr := rfl
@[simp] theorem doSelect_phase (a : Bool) (s : State) : (doSelect a s).phase = s.phase := rfl
@[simp] theorem doSelect_idx (a : Bool) (s : State) : (doSelect a s).idx = s.idx := rfl
@[simp] theorem doSelect_argr (a : Bool) (s : State) : (doSelect a s).argr = s.argr := rfl
@[simp] theorem doSelect_tmor (a : Bool) (s : State) : (doSelect a s).tmor = s.tmor := rfl
@[simp] theorem doSelect_acc (a : Bool) (s : State) : (doSelect a s).acc = s.acc := rfl
@[simp] theorem doSelect_lenr (a : Bool) (s : State) : (doSelect a s).lenr = s.lenr := rfl
@[simp] theorem doSelect_t0 (a : Bool) (s : State) : (doSelect a s).t0 = s.t0 := rfl
@[simp] theorem doSelect_res8 (a : Bool) (s : State) : (doSelect a s).res8 = s.res8 := rfl
@[simp] theorem doSelect_fwver (a : Bool) (s : State) : (doSelect a s).fwver = s.fwver := rfl
@[simp] theorem doSelect_uidlen (a : Bool) (s : State) : (doSelect a s).uidlen = s.uidlen := rfl
@[simp] theorem doSelect_uid (a : Bool) (s : State) : (doSelect a s).uid = s.uid := rfl
@[simp] theorem doSelect_cb (a : Bool) (s : State) : (doSelect a s).cb = s.cb := rfl
@[simp] theorem doSelect_rb (a : Bool) (s : State) : (doSelect a s).rb = s.rb := rfl
@[simp] theorem doSelect_ackbuf (a : Bool) (s : State) : (doSelect a s).ackbuf = s.ackbuf := rfl
@[simp] theorem doSelect_readyIn (a : Bool) (s : State) : (doSelect a s).readyIn = s.readyIn := rfl
@[simp] theorem doSelect_tickIn (a : Bool) (s : State) : (doSelect a s).tickIn = s.tickIn := rfl
@[simp] theorem doSelect_recvIn (a : Bool) (s : State) : (doSelect a s).recvIn = s.recvIn := rfl
@[simp] theorem doSelect_trace (a : Bool) (s : State) : (doSelect a s).trace = s.trace ++ [.select a] := rfl
@[simp] theorem doSelect_host (a : Bool) (s : State) : (doSelect a s).host = s.host := rfl
@[simp] theorem doSelect_noted (a : Bool) (s : State) : (doSelect a s).noted = s.noted := rfl

/-! ### `doSend` -/

@[simp] theorem doSend_bound (b : Byte) (s : State) : (doSend b s).bound = s.bound := rfl
@[simp] theorem doSend_busy (b : Byte) (s : State) : (doSend b s).busy = s.busy := rfl
@[simp] theorem doSend_err (b : Byte) (s : State) : (doSend b s).err = s.err := rfl
@[simp] theorem doSend_hs (b : Byte) (s : State) : (doSend b s).hs = s.hs := rfl
@[simp] theorem doSend_sel (b : Byte) (s : State) : (doSend b s).sel = s.sel := rfl
@[simp] theorem doSend_opr (b : Byte) (s : State) : (doSend b s).opr = s.opr := rfl
@[simp] theorem doSend_phase (b : Byte) (s : State) : (doSend b s).phase = s.phase := rfl
@[simp] theorem doSend_idx (b : Byte) (s : State) : (doSend b s).idx = s.idx := rfl
@[simp] theorem doSend_argr (b : Byte) (s : State) : (doSend b s).argr = s.argr := rfl
@[simp] theorem doSend_tmor (b : Byte) (s : State) : (doSend b s).tmor = s.tmor := rfl
@[simp] theorem doSend_acc (b : Byte) (s : State) : (doSend b s).acc = s.acc := rfl
@[simp] theorem doSend_lenr (b : Byte) (s : State) : (doSend b s).lenr = s.lenr := rfl
@[simp] theorem doSend_t0 (b : Byte) (s : State) : (doSend b s).t0 = s.t0 := rfl
@[simp] theorem doSend_res8 (b : Byte) (s : State) : (doSend b s).res8 = s.res8 := rfl
@[simp] theorem doSend_fwver (b : Byte) (s : State) : (doSend b s).fwver = s.fwver := rfl
@[simp] theorem doSend_uidlen (b : Byte) (s : State) : (doSend b s).uidlen = s.uidlen := rfl
@[simp] theorem doSend_uid (b : Byte) (s : State) : (doSend b s).uid = s.uid := rfl
@[simp] theorem doSend_cb (b : Byte) (s : State) : (doSend b s).cb = s.cb := rfl
@[simp] theorem doSend_rb (b : Byte) (s : State) : (doSend b s).rb = s.rb := rfl
@[simp] theorem doSend_ackbuf (b : Byte) (s : State) : (doSend b s).ackbuf = s.ackbuf := rfl
@[simp] theorem doSend_readyIn (b : Byte) (s : State) : (doSend b s).readyIn = s.readyIn := rfl
@[simp] theorem doSend_tickIn (b : Byte) (s : State) : (doSend b s).tickIn = s.tickIn := rfl
@[simp] theorem doSend_recvIn (b : Byte) (s : State) : (doSend b s).recvIn = s.recvIn := rfl
@[simp] theorem doSend_trace (b : Byte) (s : State) : (doSend b s).trace = s.trace ++ [.send b] := rfl
@[simp] theorem doSend_host (b : Byte) (s : State) : (doSend b s).host = s.host := rfl
@[simp] theorem doSend_noted (b : Byte) (s : State) : (doSend b s).noted = s.noted := rfl

/-! ### `afterReady` -/

@[simp] theorem afterReady_bound (s : State) : (afterReady s).bound = s.bound := rfl
@[simp] theorem afterReady_busy (s : State) : (afterReady s).busy = s.busy := rfl
@[simp] theorem afterReady_err (s : State) : (afterReady s).err = s.err := rfl
@[simp] theorem afterReady_hs (s : State) : (afterReady s).hs = s.hs := rfl
@[simp] theorem afterReady_sel (s : State) : (afterReady s).sel = s.sel := rfl
@[simp] theorem afterReady_opr (s : State) : (afterReady s).opr = s.opr := rfl
@[simp] theorem afterReady_phase (s : State) : (afterReady s).phase = s.phase := rfl
@[simp] theorem afterReady_idx (s : State) : (afterReady s).idx = s.idx := rfl
@[simp] theorem afterReady_argr (s : State) : (afterReady s).argr = s.argr := rfl
@[simp] theorem afterReady_tmor (s : State) : (afterReady s).tmor = s.tmor := rfl
@[simp] theorem afterReady_acc (s : State) : (afterReady s).acc = s.acc := rfl
@[simp] theorem afterReady_lenr (s : State) : (afterReady s).lenr = s.lenr := rfl
@[simp] theorem afterReady_t0 (s : State) : (afterReady s).t0 = s.t0 := rfl
@[simp] theorem afterReady_res8 (s : State) : (afterReady s).res8 = s.res8 := rfl
@[simp] theorem afterReady_fwver (s : State) : (afterReady s).fwver = s.fwver := rfl
@[simp] theorem afterReady_uidlen (s : State) : (afterReady s).uidlen = s.uidlen := rfl
@[simp] theorem afterReady_uid (s : State) : (afterReady s).uid = s.uid := rfl
@[simp] theorem afterReady_cb (s : State) : (afterReady s).cb = s.cb := rfl
@[simp] theorem afterReady_rb (s : State) : (afterReady s).rb = s.rb := rfl
@[simp] theorem afterReady_ackbuf (s : State) : (afterReady s).ackbuf = s.ackbuf := rfl
@[simp] theorem afterReady_readyIn (s : State) : (afterReady s).readyIn = Answers.next s.readyIn := rfl
@[simp] theorem afterReady_tickIn (s : State) : (afterReady s).tickIn = s.tickIn := rfl
@[simp] theorem afterReady_recvIn (s : State) : (afterReady s).recvIn = s.recvIn := rfl
@[simp] theorem afterReady_trace (s : State) : (afterReady s).trace = s.trace ++ [.ready (readyNow s)] := rfl
@[simp] theorem afterReady_host (s : State) : (afterReady s).host = s.host := rfl
@[simp] theorem afterReady_noted (s : State) : (afterReady s).noted = s.noted := rfl

/-! ### `afterTick` -/

@[simp] theorem afterTick_bound (s : State) : (afterTick s).bound = s.bound := rfl
@[simp] theorem afterTick_busy (s : State) : (afterTick s).busy = s.busy := rfl
@[simp] theorem afterTick_err (s : State) : (afterTick s).err = s.err := rfl
@[simp] theorem afterTick_hs (s : State) : (afterTick s).hs = s.hs := rfl
@[simp] theorem afterTick_sel (s : State) : (afterTick s).sel = s.sel := rfl
@[simp] theorem afterTick_opr (s : State) : (afterTick s).opr = s.opr := rfl
@[simp] theorem afterTick_phase (s : State) : (afterTick s).phase = s.phase := rfl
@[simp] theorem afterTick_idx (s : State) : (afterTick s).idx = s.idx := rfl
@[simp] theorem afterTick_argr (s : State) : (afterTick s).argr = s.argr := rfl
@[simp] theorem afterTick_tmor (s : State) : (afterTick s).tmor = s.tmor := rfl
@[simp] theorem afterTick_acc (s : State) : (afterTick s).acc = s.acc := rfl
@[simp] theorem afterTick_lenr (s : State) : (afterTick s).lenr = s.lenr := rfl
@[simp] theorem afterTick_t0 (s : State) : (afterTick s).t0 = s.t0 := rfl
@[simp] theorem afterTick_res8 (s : State) : (afterTick s).res8 = s.res8 := rfl
@[simp] theorem afterTick_fwver (s : State) : (afterTick s).fwver = s.fwver := rfl
@[simp] theorem afterTick_uidlen (s : State) : (afterTick s).uidlen = s.uidlen := rfl
@[simp] theorem afterTick_uid (s : State) : (afterTick s).uid = s.uid := rfl
@[simp] theorem afterTick_cb (s : State) : (afterTick s).cb = s.cb := rfl
@[simp] theorem afterTick_rb (s : State) : (afterTick s).rb = s.rb := rfl
@[simp] theorem afterTick_ackbuf (s : State) : (afterTick s).ackbuf = s.ackbuf := rfl
@[simp] theorem afterTick_readyIn (s : State) : (afterTick s).readyIn = s.readyIn := rfl
@[simp] theorem afterTick_tickIn (s : State) : (afterTick s).tickIn = Answers.next s.tickIn := rfl
@[simp] theorem afterTick_recvIn (s : State) : (afterTick s).recvIn = s.recvIn := rfl
@[simp] theorem afterTick_trace (s : State) : (afterTick s).trace = s.trace ++ [.tick (tickNow s)] := rfl
@[simp] theorem afterTick_host (s : State) : (afterTick s).host = s.host := rfl
@[simp] theorem afterTick_noted (s : State) : (afterTick s).noted = s.noted := rfl

/-! ### `afterRecv` -/

@[simp] theorem afterRecv_bound (s : State) : (afterRecv s).bound = s.bound := rfl
@[simp] theorem afterRecv_busy (s : State) : (afterRecv s).busy = s.busy := rfl
@[simp] theorem afterRecv_err (s : State) : (afterRecv s).err = s.err := rfl
@[simp] theorem afterRecv_hs (s : State) : (afterRecv s).hs = s.hs := rfl
@[simp] theorem afterRecv_sel (s : State) : (afterRecv s).sel = s.sel := rfl
@[simp] theorem afterRecv_opr (s : State) : (afterRecv s).opr = s.opr := rfl
@[simp] theorem afterRecv_phase (s : State) : (afterRecv s).phase = s.phase := rfl
@[simp] theorem afterRecv_idx (s : State) : (afterRecv s).idx = s.idx := rfl
@[simp] theorem afterRecv_argr (s : State) : (afterRecv s).argr = s.argr := rfl
@[simp] theorem afterRecv_tmor (s : State) : (afterRecv s).tmor = s.tmor := rfl
@[simp] theorem afterRecv_acc (s : State) : (afterRecv s).acc = s.acc := rfl
@[simp] theorem afterRecv_lenr (s : State) : (afterRecv s).lenr = s.lenr := rfl
@[simp] theorem afterRecv_t0 (s : State) : (afterRecv s).t0 = s.t0 := rfl
@[simp] theorem afterRecv_res8 (s : State) : (afterRecv s).res8 = s.res8 := rfl
@[simp] theorem afterRecv_fwver (s : State) : (afterRecv s).fwver = s.fwver := rfl
@[simp] theorem afterRecv_uidlen (s : State) : (afterRecv s).uidlen = s.uidlen := rfl
@[simp] theorem afterRecv_uid (s : State) : (afterRecv s).uid = s.uid := rfl
@[simp] theorem afterRecv_cb (s : State) : (afterRecv s).cb = s.cb := rfl
@[simp] theorem afterRecv_rb (s : State) : (afterRecv s).rb = s.rb := rfl
@[simp] theorem afterRecv_ackbuf (s : State) : (afterRecv s).ackbuf = s.ackbuf := rfl
@[simp] theorem afterRecv_readyIn (s : State) : (afterRecv s).readyIn = s.readyIn := rfl
@[simp] theorem afterRecv_tickIn (s : State) : (afterRecv s).tickIn = s.tickIn := rfl
@[simp] theorem afterRecv_recvIn (s : State) : (afterRecv s).recvIn = Answers.next s.recvIn := rfl
@[simp] theorem afterRecv_trace (s : State) : (afterRecv s).trace = s.trace ++ [.recv (recvNow s)] := rfl
@[simp] theorem afterRecv_host (s : State) : (afterRecv s).host = s.host := rfl
@[simp] theorem afterRecv_noted (s : State) : (afterRecv s).noted = s.noted := rfl

/-! ### `accept` -/

@[simp] theorem accept_bound (op arg : Byte) (tmo : Half) (ls : List Line) (s : State) : (accept op arg tmo ls s).bound = s.bound := rfl
@[simp] theorem accept_busy (op arg : Byte) (tmo : Half) (ls : List Line) (s : State) : (accept op arg tmo ls s).busy = true := rfl
@[simp] theorem accept_err (op arg : Byte) (tmo : Half) (ls : List Line) (s : State) : (accept op arg tmo ls s).err = s.err := rfl
@[simp] theorem accept_hs (op arg : Byte) (tmo : Half) (ls : List Line) (s : State) : (accept op arg tmo ls s).hs = s.hs := rfl
@[simp] theorem accept_sel (op arg : Byte) (tmo : Half) (ls : List Line) (s : State) : (accept op arg tmo ls s).sel = s.sel := rfl
@[simp] theorem accept_opr (op arg : Byte) (tmo : Half) (ls : List Line) (s : State) : (accept op arg tmo ls s).opr = op := rfl
@[simp] theorem accept_phase (op arg : Byte) (tmo : Half) (ls : List Line) (s : State) : (accept op arg tmo ls s).phase = ls := rfl
@[simp] theorem accept_idx (op arg : Byte) (tmo : Half) (ls : List Line) (s : State) : (accept op arg tmo ls s).idx = s.idx := rfl
@[simp] theorem accept_argr (op arg : Byte) (tmo : Half) (ls : List Line) (s : State) : (accept op arg tmo ls s).argr = arg := rfl
@[simp] theorem accept_tmor (op arg : Byte) (tmo : Half) (ls : List Line) (s : State) : (accept op arg tmo ls s).tmor = tmo := rfl
@[simp] theorem accept_acc (op arg : Byte) (tmo : Half) (ls : List Line) (s : State) : (accept op arg tmo ls s).acc = s.acc := rfl
@[simp] theorem accept_lenr (op arg : Byte) (tmo : Half) (ls : List Line) (s : State) : (accept op arg tmo ls s).lenr = s.lenr := rfl
@[simp] theorem accept_t0 (op arg : Byte) (tmo : Half) (ls : List Line) (s : State) : (accept op arg tmo ls s).t0 = s.t0 := rfl
@[simp] theorem accept_res8 (op arg : Byte) (tmo : Half) (ls : List Line) (s : State) : (accept op arg tmo ls s).res8 = s.res8 := rfl
@[simp] theorem accept_fwver (op arg : Byte) (tmo : Half) (ls : List Line) (s : State) : (accept op arg tmo ls s).fwver = s.fwver := rfl
@[simp] theorem accept_uidlen (op arg : Byte) (tmo : Half) (ls : List Line) (s : State) : (accept op arg tmo ls s).uidlen = s.uidlen := rfl
@[simp] theorem accept_uid (op arg : Byte) (tmo : Half) (ls : List Line) (s : State) : (accept op arg tmo ls s).uid = s.uid := rfl
@[simp] theorem accept_cb (op arg : Byte) (tmo : Half) (ls : List Line) (s : State) : (accept op arg tmo ls s).cb = s.cb := rfl
@[simp] theorem accept_rb (op arg : Byte) (tmo : Half) (ls : List Line) (s : State) : (accept op arg tmo ls s).rb = s.rb := rfl
@[simp] theorem accept_ackbuf (op arg : Byte) (tmo : Half) (ls : List Line) (s : State) : (accept op arg tmo ls s).ackbuf = s.ackbuf := rfl
@[simp] theorem accept_readyIn (op arg : Byte) (tmo : Half) (ls : List Line) (s : State) : (accept op arg tmo ls s).readyIn = s.readyIn := rfl
@[simp] theorem accept_tickIn (op arg : Byte) (tmo : Half) (ls : List Line) (s : State) : (accept op arg tmo ls s).tickIn = s.tickIn := rfl
@[simp] theorem accept_recvIn (op arg : Byte) (tmo : Half) (ls : List Line) (s : State) : (accept op arg tmo ls s).recvIn = s.recvIn := rfl
@[simp] theorem accept_trace (op arg : Byte) (tmo : Half) (ls : List Line) (s : State) : (accept op arg tmo ls s).trace = s.trace := rfl
@[simp] theorem accept_host (op arg : Byte) (tmo : Half) (ls : List Line) (s : State) : (accept op arg tmo ls s).host = s.host := rfl
@[simp] theorem accept_noted (op arg : Byte) (tmo : Half) (ls : List Line) (s : State) : (accept op arg tmo ls s).noted = s.noted := rfl

/-! ### `beginOp` -/

@[simp] theorem beginOp_bound (i : Instr) (ls : List Line) (s : State) : (beginOp i ls s).bound = s.bound := rfl
@[simp] theorem beginOp_busy (i : Instr) (ls : List Line) (s : State) : (beginOp i ls s).busy = true := rfl
@[simp] theorem beginOp_err (i : Instr) (ls : List Line) (s : State) : (beginOp i ls s).err = s.err := rfl
@[simp] theorem beginOp_hs (i : Instr) (ls : List Line) (s : State) : (beginOp i ls s).hs = s.hs := rfl
@[simp] theorem beginOp_sel (i : Instr) (ls : List Line) (s : State) : (beginOp i ls s).sel = s.sel := rfl
@[simp] theorem beginOp_opr (i : Instr) (ls : List Line) (s : State) : (beginOp i ls s).opr = i.opcode := rfl
@[simp] theorem beginOp_phase (i : Instr) (ls : List Line) (s : State) : (beginOp i ls s).phase = ls := rfl
@[simp] theorem beginOp_idx (i : Instr) (ls : List Line) (s : State) : (beginOp i ls s).idx = s.idx := rfl
@[simp] theorem beginOp_argr (i : Instr) (ls : List Line) (s : State) : (beginOp i ls s).argr = argByte i.arg := rfl
@[simp] theorem beginOp_tmor (i : Instr) (ls : List Line) (s : State) : (beginOp i ls s).tmor = tmoHalf i.tmo := rfl
@[simp] theorem beginOp_acc (i : Instr) (ls : List Line) (s : State) : (beginOp i ls s).acc = s.acc := rfl
@[simp] theorem beginOp_lenr (i : Instr) (ls : List Line) (s : State) : (beginOp i ls s).lenr = s.lenr := rfl
@[simp] theorem beginOp_t0 (i : Instr) (ls : List Line) (s : State) : (beginOp i ls s).t0 = s.t0 := rfl
@[simp] theorem beginOp_res8 (i : Instr) (ls : List Line) (s : State) : (beginOp i ls s).res8 = s.res8 := rfl
@[simp] theorem beginOp_fwver (i : Instr) (ls : List Line) (s : State) : (beginOp i ls s).fwver = s.fwver := rfl
@[simp] theorem beginOp_uidlen (i : Instr) (ls : List Line) (s : State) : (beginOp i ls s).uidlen = s.uidlen := rfl
@[simp] theorem beginOp_uid (i : Instr) (ls : List Line) (s : State) : (beginOp i ls s).uid = s.uid := rfl
@[simp] theorem beginOp_cb (i : Instr) (ls : List Line) (s : State) : (beginOp i ls s).cb = s.cb := rfl
@[simp] theorem beginOp_rb (i : Instr) (ls : List Line) (s : State) : (beginOp i ls s).rb = s.rb := rfl
@[simp] theorem beginOp_ackbuf (i : Instr) (ls : List Line) (s : State) : (beginOp i ls s).ackbuf = s.ackbuf := rfl
@[simp] theorem beginOp_readyIn (i : Instr) (ls : List Line) (s : State) : (beginOp i ls s).readyIn = s.readyIn := rfl
@[simp] theorem beginOp_tickIn (i : Instr) (ls : List Line) (s : State) : (beginOp i ls s).tickIn = s.tickIn := rfl
@[simp] theorem beginOp_recvIn (i : Instr) (ls : List Line) (s : State) : (beginOp i ls s).recvIn = s.recvIn := rfl
@[simp] theorem beginOp_trace (i : Instr) (ls : List Line) (s : State) : (beginOp i ls s).trace = s.trace := rfl
@[simp] theorem beginOp_host (i : Instr) (ls : List Line) (s : State) : (beginOp i ls s).host = s.host := rfl
@[simp] theorem beginOp_noted (i : Instr) (ls : List Line) (s : State) : (beginOp i ls s).noted = s.noted := rfl

/-! ### `endWith` -/

@[simp] theorem endWith_bound (e : Err) (s : State) : (endWith e s).bound = s.bound := rfl
@[simp] theorem endWith_busy (e : Err) (s : State) : (endWith e s).busy = false := rfl
@[simp] theorem endWith_err (e : Err) (s : State) : (endWith e s).err = e := rfl
@[simp] theorem endWith_hs (e : Err) (s : State) : (endWith e s).hs = s.hs := rfl
@[simp] theorem endWith_sel (e : Err) (s : State) : (endWith e s).sel = s.sel := rfl
@[simp] theorem endWith_opr (e : Err) (s : State) : (endWith e s).opr = s.opr := rfl
@[simp] theorem endWith_phase (e : Err) (s : State) : (endWith e s).phase = [] := rfl
@[simp] theorem endWith_idx (e : Err) (s : State) : (endWith e s).idx = s.idx := rfl
@[simp] theorem endWith_argr (e : Err) (s : State) : (endWith e s).argr = s.argr := rfl
@[simp] theorem endWith_tmor (e : Err) (s : State) : (endWith e s).tmor = s.tmor := rfl
@[simp] theorem endWith_acc (e : Err) (s : State) : (endWith e s).acc = s.acc := rfl
@[simp] theorem endWith_lenr (e : Err) (s : State) : (endWith e s).lenr = s.lenr := rfl
@[simp] theorem endWith_t0 (e : Err) (s : State) : (endWith e s).t0 = s.t0 := rfl
@[simp] theorem endWith_res8 (e : Err) (s : State) : (endWith e s).res8 = s.res8 := rfl
@[simp] theorem endWith_fwver (e : Err) (s : State) : (endWith e s).fwver = s.fwver := rfl
@[simp] theorem endWith_uidlen (e : Err) (s : State) : (endWith e s).uidlen = s.uidlen := rfl
@[simp] theorem endWith_uid (e : Err) (s : State) : (endWith e s).uid = s.uid := rfl
@[simp] theorem endWith_cb (e : Err) (s : State) : (endWith e s).cb = s.cb := rfl
@[simp] theorem endWith_rb (e : Err) (s : State) : (endWith e s).rb = s.rb := rfl
@[simp] theorem endWith_ackbuf (e : Err) (s : State) : (endWith e s).ackbuf = s.ackbuf := rfl
@[simp] theorem endWith_readyIn (e : Err) (s : State) : (endWith e s).readyIn = s.readyIn := rfl
@[simp] theorem endWith_tickIn (e : Err) (s : State) : (endWith e s).tickIn = s.tickIn := rfl
@[simp] theorem endWith_recvIn (e : Err) (s : State) : (endWith e s).recvIn = s.recvIn := rfl
@[simp] theorem endWith_trace (e : Err) (s : State) : (endWith e s).trace = s.trace := rfl
@[simp] theorem endWith_host (e : Err) (s : State) : (endWith e s).host = s.host := rfl
@[simp] theorem endWith_noted (e : Err) (s : State) : (endWith e s).noted = s.noted := rfl

/-! ### `note` -/

@[simp] theorem note_bound (r : Byte) (v : Word) (s : State) : (note r v s).bound = s.bound := rfl
@[simp] theorem note_busy (r : Byte) (v : Word) (s : State) : (note r v s).busy = s.busy := rfl
@[simp] theorem note_err (r : Byte) (v : Word) (s : State) : (note r v s).err = s.err := rfl
@[simp] theorem note_hs (r : Byte) (v : Word) (s : State) : (note r v s).hs = s.hs := rfl
@[simp] theorem note_sel (r : Byte) (v : Word) (s : State) : (note r v s).sel = s.sel := rfl
@[simp] theorem note_opr (r : Byte) (v : Word) (s : State) : (note r v s).opr = s.opr := rfl
@[simp] theorem note_phase (r : Byte) (v : Word) (s : State) : (note r v s).phase = s.phase := rfl
@[simp] theorem note_idx (r : Byte) (v : Word) (s : State) : (note r v s).idx = s.idx := rfl
@[simp] theorem note_argr (r : Byte) (v : Word) (s : State) : (note r v s).argr = s.argr := rfl
@[simp] theorem note_tmor (r : Byte) (v : Word) (s : State) : (note r v s).tmor = s.tmor := rfl
@[simp] theorem note_acc (r : Byte) (v : Word) (s : State) : (note r v s).acc = s.acc := rfl
@[simp] theorem note_lenr (r : Byte) (v : Word) (s : State) : (note r v s).lenr = s.lenr := rfl
@[simp] theorem note_t0 (r : Byte) (v : Word) (s : State) : (note r v s).t0 = s.t0 := rfl
@[simp] theorem note_res8 (r : Byte) (v : Word) (s : State) : (note r v s).res8 = s.res8 := rfl
@[simp] theorem note_fwver (r : Byte) (v : Word) (s : State) : (note r v s).fwver = s.fwver := rfl
@[simp] theorem note_uidlen (r : Byte) (v : Word) (s : State) : (note r v s).uidlen = s.uidlen := rfl
@[simp] theorem note_uid (r : Byte) (v : Word) (s : State) : (note r v s).uid = s.uid := rfl
@[simp] theorem note_cb (r : Byte) (v : Word) (s : State) : (note r v s).cb = s.cb := rfl
@[simp] theorem note_rb (r : Byte) (v : Word) (s : State) : (note r v s).rb = s.rb := rfl
@[simp] theorem note_ackbuf (r : Byte) (v : Word) (s : State) : (note r v s).ackbuf = s.ackbuf := rfl
@[simp] theorem note_readyIn (r : Byte) (v : Word) (s : State) : (note r v s).readyIn = s.readyIn := rfl
@[simp] theorem note_tickIn (r : Byte) (v : Word) (s : State) : (note r v s).tickIn = s.tickIn := rfl
@[simp] theorem note_recvIn (r : Byte) (v : Word) (s : State) : (note r v s).recvIn = s.recvIn := rfl
@[simp] theorem note_trace (r : Byte) (v : Word) (s : State) : (note r v s).trace = s.trace := rfl
@[simp] theorem note_host (r : Byte) (v : Word) (s : State) : (note r v s).host = s.host := rfl
@[simp] theorem note_noted (r : Byte) (v : Word) (s : State) : (note r v s).noted = s.noted ++ [(r, v)] := rfl

/-! ### `raiseInHandshake` -/

@[simp] theorem raiseInHandshake_bound (x : Bool) (e : Err) (s : State) : (raiseInHandshake x e s).bound = s.bound := by cases x <;> rfl
@[simp] theorem raiseInHandshake_busy (x : Bool) (e : Err) (s : State) : (raiseInHandshake x e s).busy = false := by cases x <;> rfl
@[simp] theorem raiseInHandshake_err (x : Bool) (e : Err) (s : State) : (raiseInHandshake x e s).err = e := by cases x <;> rfl
@[simp] theorem raiseInHandshake_hs (x : Bool) (e : Err) (s : State) : (raiseInHandshake x e s).hs = if x then .timeout else s.hs := by cases x <;> rfl
@[simp] theorem raiseInHandshake_sel (x : Bool) (e : Err) (s : State) : (raiseInHandshake x e s).sel = s.sel := by cases x <;> rfl
@[simp] theorem raiseInHandshake_opr (x : Bool) (e : Err) (s : State) : (raiseInHandshake x e s).opr = s.opr := by cases x <;> rfl
@[simp] theorem raiseInHandshake_phase (x : Bool) (e : Err) (s : State) : (raiseInHandshake x e s).phase = [] := by cases x <;> rfl
@[simp] theorem raiseInHandshake_idx (x : Bool) (e : Err) (s : State) : (raiseInHandshake x e s).idx = s.idx := by cases x <;> rfl
@[simp] theorem raiseInHandshake_argr (x : Bool) (e : Err) (s : State) : (raiseInHandshake x e s).argr = s.argr := by cases x <;> rfl
@[simp] theorem raiseInHandshake_tmor (x : Bool) (e : Err) (s : State) : (raiseInHandshake x e s).tmor = s.tmor := by cases x <;> rfl
@[simp] theorem raiseInHandshake_acc (x : Bool) (e : Err) (s : State) : (raiseInHandshake x e s).acc = s.acc := by cases x <;> rfl
@[simp] theorem raiseInHandshake_lenr (x : Bool) (e : Err) (s : State) : (raiseInHandshake x e s).lenr = s.lenr := by cases x <;> rfl
@[simp] theorem raiseInHandshake_t0 (x : Bool) (e : Err) (s : State) : (raiseInHandshake x e s).t0 = s.t0 := by cases x <;> rfl
@[simp] theorem raiseInHandshake_res8 (x : Bool) (e : Err) (s : State) : (raiseInHandshake x e s).res8 = s.res8 := by cases x <;> rfl
@[simp] theorem raiseInHandshake_fwver (x : Bool) (e : Err) (s : State) : (raiseInHandshake x e s).fwver = s.fwver := by cases x <;> rfl
@[simp] theorem raiseInHandshake_uidlen (x : Bool) (e : Err) (s : State) : (raiseInHandshake x e s).uidlen = s.uidlen := by cases x <;> rfl
@[simp] theorem raiseInHandshake_uid (x : Bool) (e : Err) (s : State) : (raiseInHandshake x e s).uid = s.uid := by cases x <;> rfl
@[simp] theorem raiseInHandshake_cb (x : Bool) (e : Err) (s : State) : (raiseInHandshake x e s).cb = s.cb := by cases x <;> rfl
@[simp] theorem raiseInHandshake_rb (x : Bool) (e : Err) (s : State) : (raiseInHandshake x e s).rb = s.rb := by cases x <;> rfl
@[simp] theorem raiseInHandshake_ackbuf (x : Bool) (e : Err) (s : State) : (raiseInHandshake x e s).ackbuf = s.ackbuf := by cases x <;> rfl
@[simp] theorem raiseInHandshake_readyIn (x : Bool) (e : Err) (s : State) : (raiseInHandshake x e s).readyIn = s.readyIn := by cases x <;> rfl
@[simp] theorem raiseInHandshake_tickIn (x : Bool) (e : Err) (s : State) : (raiseInHandshake x e s).tickIn = s.tickIn := by cases x <;> rfl
@[simp] theorem raiseInHandshake_recvIn (x : Bool) (e : Err) (s : State) : (raiseInHandshake x e s).recvIn = s.recvIn := by cases x <;> rfl
@[simp] theorem raiseInHandshake_trace (x : Bool) (e : Err) (s : State) : (raiseInHandshake x e s).trace = s.trace := by cases x <;> rfl
@[simp] theorem raiseInHandshake_host (x : Bool) (e : Err) (s : State) : (raiseInHandshake x e s).host = s.host := by cases x <;> rfl
@[simp] theorem raiseInHandshake_noted (x : Bool) (e : Err) (s : State) : (raiseInHandshake x e s).noted = s.noted := by cases x <;> rfl

/-! ### `applyReset` -/

@[simp] theorem applyReset_bound (s : State) : (applyReset s).bound = State.reset.bound := rfl
@[simp] theorem applyReset_busy (s : State) : (applyReset s).busy = State.reset.busy := rfl
@[simp] theorem applyReset_err (s : State) : (applyReset s).err = State.reset.err := rfl
@[simp] theorem applyReset_hs (s : State) : (applyReset s).hs = State.reset.hs := rfl
@[simp] theorem applyReset_sel (s : State) : (applyReset s).sel = State.reset.sel := rfl
@[simp] theorem applyReset_opr (s : State) : (applyReset s).opr = State.reset.opr := rfl
@[simp] theorem applyReset_phase (s : State) : (applyReset s).phase = State.reset.phase := rfl
@[simp] theorem applyReset_idx (s : State) : (applyReset s).idx = State.reset.idx := rfl
@[simp] theorem applyReset_argr (s : State) : (applyReset s).argr = State.reset.argr := rfl
@[simp] theorem applyReset_tmor (s : State) : (applyReset s).tmor = State.reset.tmor := rfl
@[simp] theorem applyReset_acc (s : State) : (applyReset s).acc = State.reset.acc := rfl
@[simp] theorem applyReset_lenr (s : State) : (applyReset s).lenr = State.reset.lenr := rfl
@[simp] theorem applyReset_t0 (s : State) : (applyReset s).t0 = State.reset.t0 := rfl
@[simp] theorem applyReset_res8 (s : State) : (applyReset s).res8 = State.reset.res8 := rfl
@[simp] theorem applyReset_fwver (s : State) : (applyReset s).fwver = State.reset.fwver := rfl
@[simp] theorem applyReset_uidlen (s : State) : (applyReset s).uidlen = State.reset.uidlen := rfl
@[simp] theorem applyReset_uid (s : State) : (applyReset s).uid = State.reset.uid := rfl
@[simp] theorem applyReset_cb (s : State) : (applyReset s).cb = State.reset.cb := rfl
@[simp] theorem applyReset_rb (s : State) : (applyReset s).rb = State.reset.rb := rfl
@[simp] theorem applyReset_ackbuf (s : State) : (applyReset s).ackbuf = State.reset.ackbuf := rfl
@[simp] theorem applyReset_readyIn (s : State) : (applyReset s).readyIn = s.readyIn := rfl
@[simp] theorem applyReset_tickIn (s : State) : (applyReset s).tickIn = s.tickIn := rfl
@[simp] theorem applyReset_recvIn (s : State) : (applyReset s).recvIn = s.recvIn := rfl
@[simp] theorem applyReset_trace (s : State) : (applyReset s).trace = s.trace := rfl
@[simp] theorem applyReset_host (s : State) : (applyReset s).host = s.host := rfl
@[simp] theorem applyReset_noted (s : State) : (applyReset s).noted = s.noted := rfl

/-! ### `hostWaits` -/

@[simp] theorem hostWaits_bound (s : State) : (hostWaits s).bound = s.bound := by unfold hostWaits; split <;> rfl
@[simp] theorem hostWaits_busy (s : State) : (hostWaits s).busy = s.busy := by unfold hostWaits; split <;> rfl
@[simp] theorem hostWaits_err (s : State) : (hostWaits s).err = s.err := by unfold hostWaits; split <;> rfl
@[simp] theorem hostWaits_hs (s : State) : (hostWaits s).hs = s.hs := by unfold hostWaits; split <;> rfl
@[simp] theorem hostWaits_sel (s : State) : (hostWaits s).sel = s.sel := by unfold hostWaits; split <;> rfl
@[simp] theorem hostWaits_opr (s : State) : (hostWaits s).opr = s.opr := by unfold hostWaits; split <;> rfl
@[simp] theorem hostWaits_phase (s : State) : (hostWaits s).phase = s.phase := by unfold hostWaits; split <;> rfl
@[simp] theorem hostWaits_idx (s : State) : (hostWaits s).idx = s.idx := by unfold hostWaits; split <;> rfl
@[simp] theorem hostWaits_argr (s : State) : (hostWaits s).argr = s.argr := by unfold hostWaits; split <;> rfl
@[simp] theorem hostWaits_tmor (s : State) : (hostWaits s).tmor = s.tmor := by unfold hostWaits; split <;> rfl
@[simp] theorem hostWaits_acc (s : State) : (hostWaits s).acc = s.acc := by unfold hostWaits; split <;> rfl
@[simp] theorem hostWaits_lenr (s : State) : (hostWaits s).lenr = s.lenr := by unfold hostWaits; split <;> rfl
@[simp] theorem hostWaits_t0 (s : State) : (hostWaits s).t0 = s.t0 := by unfold hostWaits; split <;> rfl
@[simp] theorem hostWaits_res8 (s : State) : (hostWaits s).res8 = s.res8 := by unfold hostWaits; split <;> rfl
@[simp] theorem hostWaits_fwver (s : State) : (hostWaits s).fwver = s.fwver := by unfold hostWaits; split <;> rfl
@[simp] theorem hostWaits_uidlen (s : State) : (hostWaits s).uidlen = s.uidlen := by unfold hostWaits; split <;> rfl
@[simp] theorem hostWaits_uid (s : State) : (hostWaits s).uid = s.uid := by unfold hostWaits; split <;> rfl
@[simp] theorem hostWaits_cb (s : State) : (hostWaits s).cb = s.cb := by unfold hostWaits; split <;> rfl
@[simp] theorem hostWaits_rb (s : State) : (hostWaits s).rb = s.rb := by unfold hostWaits; split <;> rfl
@[simp] theorem hostWaits_ackbuf (s : State) : (hostWaits s).ackbuf = s.ackbuf := by unfold hostWaits; split <;> rfl
@[simp] theorem hostWaits_readyIn (s : State) : (hostWaits s).readyIn = s.readyIn := by unfold hostWaits; split <;> rfl
@[simp] theorem hostWaits_tickIn (s : State) : (hostWaits s).tickIn = s.tickIn := by unfold hostWaits; split <;> rfl
@[simp] theorem hostWaits_recvIn (s : State) : (hostWaits s).recvIn = s.recvIn := by unfold hostWaits; split <;> rfl
@[simp] theorem hostWaits_trace (s : State) : (hostWaits s).trace = s.trace := by unfold hostWaits; split <;> rfl
@[simp] theorem hostWaits_host (s : State) : (hostWaits s).host = if s.busy then .wait :: s.host else s.host := by unfold hostWaits; split <;> rfl
@[simp] theorem hostWaits_noted (s : State) : (hostWaits s).noted = s.noted := by unfold hostWaits; split <;> rfl

end Sys2Proof.Machine
end

