-- ==== Sys2Proof/Laws/Run.lean ====
section
/-! SUPPORT. Running lines: what a list of lines does that raises nothing (`Through`), the loops, the framings, the
bodies of the operations, and the end of an operation. The provers cite these and do not unfold the sequencer. -/

namespace Sys2Proof.Machine

/-! ### Lists of lines -/

/-- From `s` the lines run through to `t`, whatever lines follow. -/
def Through (ls : List Line) (s t : State) : Prop := ∀ rest, runLines (ls ++ rest) s = runLines rest t

theorem through_nil (s : State) : Through [] s s := fun _ => rfl

theorem through_cons {l : Line} {ls : List Line} {s t u : State} (h1 : runLine l s = .go t) (h2 : Through ls t u) :
    Through (l :: ls) s u := by
  intro rest
  have : runLines (l :: ls ++ rest) s = runLines (ls ++ rest) t := by
    simp [runLines, h1]
  rw [this, h2 rest]

theorem through_append {as bs : List Line} {s t u : State} (h1 : Through as s t) (h2 : Through bs t u) :
    Through (as ++ bs) s u := by
  intro rest
  rw [List.append_assoc, h1, h2]

theorem through_one {l : Line} {s t : State} (h : runLine l s = .go t) : Through [l] s t :=
  through_cons h (through_nil t)

theorem through_eq {ls : List Line} {s t u : State} (h : Through ls s t) (e : t = u) : Through ls s u := e ▸ h

/-- An operation whose lines run through to a final line that ends it. -/
theorem run_through {ls : List Line} {s t : State} (h : Through ls s t) :
    runLines (ls ++ [.finish]) s = .next (endWith .ok t) := by
  rw [h]
  rfl

/-- The lines run through to one that ends the operation. -/
theorem run_through_done {ls rest : List Line} {l : Line} {s t u : State} (h : Through ls s t)
    (hd : runLine l t = .done u) : runLines (ls ++ l :: rest) s = .next u := by
  rw [h]
  simp [runLines, hd]

/-- The lines run through to one that faults. -/
theorem run_through_fault {ls rest : List Line} {l : Line} {s t : State} {f : Fault} (h : Through ls s t)
    (hd : runLine l t = .fault f) : runLines (ls ++ l :: rest) s = .fault f := by
  rw [h]
  simp [runLines, hd]

/-- The lines run through to a poll that leaves its wait open. -/
theorem run_through_again {ls rest : List Line} {l : Line} {s t u : State} (h : Through ls s t)
    (hd : runLine l t = .again u) : runLines (ls ++ l :: rest) s = .next { u with phase := l :: rest } := by
  rw [h]
  simp [runLines, hd]

/-- Running lines never refuses. -/
theorem runLines_not_refused (ls : List Line) (s : State) (r : Refusal) : runLines ls s ≠ .refused r := by
  induction ls generalizing s with
  | nil => simp [runLines]
  | cons l ls ih =>
    unfold runLines
    split
    · exact ih _
    all_goals simp

/-! ### The loops (R97, R92, R108, R141) -/

/-- `IDX` after a loop of `n` rounds. -/
def idxAfter (n : Nat) (old : BitVec 7) : BitVec 7 := if n = 0 then old else BitVec.ofNat 7 n

theorem idxAfter_zero (n : Nat) : idxAfter n 0#7 = BitVec.ofNat 7 n := by cases n <;> rfl

/-- The send loop of R97. -/
theorem through_sendLoop (s : State) (n : Nat) (bs : List Byte) (hn : bs.length = n) (hb : Holds bs s.cb) :
    Through ((List.range n).map .sendCb) s
      { s with
        acc := accumulate s.acc bs
        idx := idxAfter n s.idx
        trace := s.trace ++ bs.map .send } := by
  induction n generalizing bs with
  | zero =>
    obtain rfl : bs = [] := List.eq_nil_of_length_eq_zero hn
    exact through_eq (through_nil s) (by simp [accumulate, idxAfter])
  | succ n ih =>
    obtain ⟨init, last, rfl⟩ : ∃ init last, bs = init ++ [last] :=
      ⟨bs.dropLast, bs.getLast (by intro h; simp [h] at hn), (List.dropLast_append_getLast _).symm⟩
    have hlen : init.length = n := by simpa using hn
    have hinit : Holds init s.cb := by
      intro i hi
      rw [hb i (by simp; omega), List.getElem?_append_left hi]
    have hlast : Memory.read s.cb n = some last := by
      rw [hb n (by simp; omega), ← hlen]
      simp
    rw [List.range_succ, List.map_append]
    refine through_append (ih init hlen hinit) (through_one ?_)
    simp [runLine, lineSendCb, hlast, doSend, emit, accumulate, idxAfter]

/-- The receive loop of R92. -/
theorem through_recvAckLoop (s : State) (n : Nat) :
    Through ((List.range n).map .recvAck) s
      { s with
        ackbuf := Memory.writeRange s.ackbuf 0 (recvAnswers n s)
        idx := idxAfter n s.idx
        recvIn := Answers.skip n s.recvIn
        trace := s.trace ++ (recvAnswers n s).map .recv } := by
  induction n with
  | zero => exact through_eq (through_nil s) (by simp [idxAfter, recvAnswers, Answers.take, Answers.skip, Memory.writeRange])
  | succ n ih =>
    rw [List.range_succ, List.map_append]
    refine through_append ih (through_one ?_)
    simp [runLine, lineRecvAck, recvAnswers, take_succ_last, skip_succ_last, writeRange_append, take_length,
      Memory.writeRange, afterRecv, recvNow, emit, idxAfter]

/-- The receive loop of R108. -/
theorem through_recvRbLoop (s : State) (n : Nat) :
    Through ((List.range n).map .recvRb) s
      { s with
        rb := Memory.writeRange s.rb 0 (recvAnswers n s)
        idx := idxAfter n s.idx
        recvIn := Answers.skip n s.recvIn
        trace := s.trace ++ (recvAnswers n s).map .recv } := by
  induction n with
  | zero => exact through_eq (through_nil s) (by simp [idxAfter, recvAnswers, Answers.take, Answers.skip, Memory.writeRange])
  | succ n ih =>
    rw [List.range_succ, List.map_append]
    refine through_append ih (through_one ?_)
    simp [runLine, lineRecvRb, recvAnswers, take_succ_last, skip_succ_last, writeRange_append, take_length,
      Memory.writeRange, afterRecv, recvNow, emit, idxAfter]

/-- The load loop of R141. -/
theorem through_loadCb (s : State) (i : Nat) (d : List Byte) :
    Through (loadCbLines i d) s { s with cb := Memory.writeRange s.cb i d } := by
  induction d generalizing s i with
  | nil => exact through_nil s
  | cons b d ih => exact through_cons rfl (ih _ (i + 1))

/-! ### The framings (R68, R69, R97, R92, R108) -/

/-- R84: the accumulator seeded with the direction byte gives the data checksum. -/
theorem accumulate_toNat (acc : Byte) (s : List Byte) :
    accumulate acc s = acc + BitVec.ofNat 8 (s.map BitVec.toNat).sum := by
  induction s generalizing acc with
  | nil => simp [accumulate]
  | cons b s ih =>
    have h := ih (add8 acc b)
    unfold accumulate at h ⊢
    rw [List.foldl_cons, h, add8, List.map_cons, List.sum_cons, BitVec.add_assoc]
    congr 1
    apply BitVec.eq_of_toNat_eq
    simp

/-- R82: the accumulator seeded with a byte holds the sum of that byte and those folded in. -/
theorem accumulate_eq_sum8 (dir : Byte) (d : List Byte) : accumulate dir d = sum8 (dir :: d) := by
  rw [accumulate_toNat, sum8]
  apply BitVec.eq_of_toNat_eq
  simp

theorem neg8_accumulate (dir : Byte) (d : List Byte) : neg8 (accumulate dir d) = dcs dir d := by
  rw [accumulate_toNat]
  unfold dcs sum8
  congr 1
  apply BitVec.eq_of_toNat_eq
  simp

/-- The data-write framing of `n` bytes of frame data (R97). -/
theorem through_writeBody (P : Params) (s : State) (bs : List Byte) (hb : Holds bs s.cb) :
    Through (writeBody P bs.length) s
      { s with
        sel := false
        lenr := lengthByte bs.length
        acc := accumulate P.dirH2C bs
        idx := BitVec.ofNat 7 bs.length
        trace := s.trace ++ frameEvents P bs } := by
  unfold writeBody
  refine through_append (through_append
    (t := { s with
      sel := true
      lenr := lengthByte bs.length
      acc := P.dirH2C
      idx := 0
      trace := s.trace ++ [.select true, .settle, .send P.markDW, .send P.preamble, .send P.start1, .send P.start2,
        .send (lengthByte bs.length), .send (neg8 (lengthByte bs.length)), .send P.dirH2C] }) ?_
    (through_sendLoop _ bs.length bs rfl hb)) ?_
  · refine through_cons rfl <| through_cons rfl <| through_cons rfl <| through_cons rfl <| through_cons rfl <|
      through_cons rfl <| through_cons rfl <| through_cons rfl <| through_cons rfl <| through_cons rfl <|
      through_cons rfl <| through_cons rfl <| through_eq (through_nil _) ?_
    simp [doSelect, doSend, emit]
  · refine through_cons rfl <| through_cons rfl <| through_cons rfl <| through_eq (through_nil _) ?_
    simp [doSelect, doSend, emit, frameEvents, frameBytes, neg8_accumulate, lcs, idxAfter_zero]

/-- The six-byte read of R92 up to its compare. -/
theorem through_readAck (P : Params) (s : State) :
    Through ([.select true, .settle, .send P.markDR, .enterLoop] ++ (List.range Config.nAck).map .recvAck ++ [.select false]) s
      { s with
        sel := false
        ackbuf := Memory.writeRange s.ackbuf 0 (recvAnswers 6 s)
        idx := 6
        recvIn := Answers.skip 6 s.recvIn
        trace := s.trace ++ readEvents P (recvAnswers 6 s) } := by
  refine through_append (through_append
    (t := { s with sel := true, idx := 0, trace := s.trace ++ [.select true, .settle, .send P.markDR] }) ?_
    (through_recvAckLoop _ 6)) ?_
  · refine through_cons rfl <| through_cons rfl <| through_cons rfl <| through_cons rfl <| through_eq (through_nil _) ?_
    simp [doSelect, doSend, emit]
  · refine through_eq (through_one rfl) ?_
    simp [doSelect, emit, readEvents, recvAnswers, idxAfter]

/-- The data-read framing of R108. -/
theorem through_readBody (P : Params) (s : State) (n : Nat) :
    Through (readBody P n) s
      { s with
        sel := false
        lenr := BitVec.ofNat 8 n
        rb := Memory.writeRange s.rb 0 (recvAnswers n s)
        idx := BitVec.ofNat 7 n
        recvIn := Answers.skip n s.recvIn
        trace := s.trace ++ readEvents P (recvAnswers n s) } := by
  unfold readBody
  refine through_append (through_append
    (t := { s with
      sel := true
      lenr := BitVec.ofNat 8 n
      idx := 0
      trace := s.trace ++ [.select true, .settle, .send P.markDR] }) ?_ (through_recvRbLoop _ n)) ?_
  · refine through_cons rfl <| through_cons rfl <| through_cons rfl <| through_cons rfl <| through_cons rfl <|
      through_eq (through_nil _) ?_
    simp [doSelect, doSend, emit]
  · refine through_eq (through_one rfl) ?_
    simp [doSelect, emit, readEvents, recvAnswers, idxAfter_zero]

/-! ### The ACK compare and the wait -/

/-- Once six bytes are in `ACKBUF`, the compare is that of the six bytes (R90, R92). -/
theorem checkAck_of_holds {s : State} {bs : List Byte} (x : Bool) (hl : bs.length = 6) (hb : Holds bs s.ackbuf) :
    runLine (.checkAck x) s =
      if ackMatches bs then .go { s with idx := 6 } else .done (raiseInHandshake x .ackMismatch { s with idx := 6 }) := by
  have h : Memory.readRange s.ackbuf 0 Config.nAck = .bytes bs := by
    have := readRange_of_holds hb
    rwa [hl] at this
  simp only [runLine, lineCheckAck, h]
  rfl

/-- The ACK read and compare of an exchange or of `READ_ACK`, the six bytes matching. -/
theorem through_readAckBody (P : Params) (x : Bool) (s : State) (h : ackMatches (recvAnswers 6 s) = true) :
    Through (readAckBody P x) s
      { s with
        sel := false
        ackbuf := Memory.writeRange s.ackbuf 0 (recvAnswers 6 s)
        idx := 6
        recvIn := Answers.skip 6 s.recvIn
        trace := s.trace ++ readEvents P (recvAnswers 6 s) } := by
  have e : readAckBody P x =
      ([.select true, .settle, .send P.markDR, .enterLoop] ++ (List.range Config.nAck).map .recvAck ++
        [.select false]) ++ [.checkAck x] := by
    simp [readAckBody]
  rw [e]
  refine through_append (through_readAck P s) (through_one ?_)
  refine (checkAck_of_holds (bs := recvAnswers 6 s) x (take_length _ _ _) ?_).trans (if_pos h)
  exact (overwrites_writeRange s.ackbuf (recvAnswers 6 s)).1

/-- A wait that finds the chip ready at its first poll (R107). -/
theorem through_waitBody (b : Budget) (x : Bool) (s : State) (h : readyNow s = true) :
    Through (waitBody b x) s
      { s with
        t0 := tickNow s
        readyIn := Answers.next s.readyIn
        tickIn := Answers.next s.tickIn
        trace := s.trace ++ waitEvents (tickNow s) } := by
  refine through_cons rfl (through_one ?_)
  refine (if_pos (c := readyNow s = true) h).trans ?_
  have e : readyNow { s with tickIn := Answers.next s.tickIn, t0 := tickNow s,
                             trace := s.trace ++ [.tick (tickNow s)] } = true := h
  simp [afterReady, afterTick, emit, waitEvents, e]

/-- R106, R107: the budget is exceeded, as a fact about numbers. -/
theorem lt_elapsed_iff (b t0 t : Word) :
    b < elapsed t0 t ↔ b.toNat < (t.toNat + 2 ^ 32 - t0.toNat) % 2 ^ 32 := by
  rw [BitVec.lt_def, elapsed, BitVec.toNat_sub]
  have := t0.isLt
  rw [show 2 ^ 32 - t0.toNat + t.toNat = t.toNat + 2 ^ 32 - t0.toNat by omega]

/-- The three outcomes of one round of the poll loop (R107). -/
theorem poll_cases (b : Budget) (x : Bool) (s : State) :
    (readyNow s = true ∧ runLine (.poll b x) s = .go (afterReady s)) ∨
    (readyNow s = false ∧ budgetOf b s.tmor < elapsed s.t0 (tickNow s) ∧
      runLine (.poll b x) s = .done (raiseInHandshake x .transportTimeout (afterTick (afterReady s)))) ∨
    (readyNow s = false ∧ ¬ budgetOf b s.tmor < elapsed s.t0 (tickNow s) ∧
      runLine (.poll b x) s = .again (afterTick (afterReady s))) := by
  have ht : tickNow (afterReady s) = tickNow s := rfl
  cases hr : readyNow s
  · by_cases h : budgetOf b s.tmor < elapsed s.t0 (tickNow s)
    · exact .inr (.inl ⟨rfl, h, by simp [runLine, linePoll, hr, ht, h]⟩)
    · exact .inr (.inr ⟨rfl, h, by simp [runLine, linePoll, hr, ht, h]⟩)
  · exact .inl ⟨rfl, by simp [runLine, linePoll, hr]⟩

/-! ### The lines do not read `PHASE` -/

/-- A verdict with another continuation in its state. -/
def setPhase (p : List Line) : Verdict → Verdict
  | .go t => .go { t with phase := p }
  | .again t => .again { t with phase := p }
  | .done t => .done t
  | .fault f => .fault f

/-- What a line does does not depend on the continuation. -/
theorem runLine_phase (l : Line) (s : State) (p : List Line) :
    runLine l { s with phase := p } = setPhase p (runLine l s) := by
  cases l
  case poll b x =>
    rcases poll_cases b x s with ⟨h1, h2⟩ | ⟨h1, h2, h3⟩ | ⟨h1, h2, h3⟩ <;>
      rcases poll_cases b x { s with phase := p } with ⟨g1, g2⟩ | ⟨g1, g2, g3⟩ | ⟨g1, g2, g3⟩ <;>
      first
        | exact absurd h2 g2
        | exact absurd g2 h2
        | (rw [h2, g2]; rfl)
        | (rw [h3, g3]; rfl)
        | (rw [h3, g3]; cases x <;> rfl)
        | exact absurd (h1.symm.trans g1) (by decide)
  case checkAck x =>
    cases x <;> simp only [runLine, lineCheckAck] <;> repeat' split
    all_goals rfl
  all_goals simp only [runLine, lineRequireBound, lineRequireCbCount, lineRequireRbCount, lineRequireCb, lineSendCb,
    lineRecvAck, lineRecvRb, lineBind, lineCsumLcs, lineCsumDcs, lineCsumVerify, lineAckMatch, lineParseFwver,
    lineParseSam, lineParseTarget, extractUid]
  all_goals repeat' split
  all_goals rfl

theorem runLines_phase (ls : List Line) (s : State) (p : List Line) :
    runLines ls { s with phase := p } = runLines ls s := by
  induction ls generalizing s with
  | nil => rfl
  | cons l ls ih =>
    simp only [runLines, runLine_phase]
    cases runLine l s with
    | go t => exact ih t
    | again t => rfl
    | done t => rfl
    | fault f => rfl

/-! ### Operations -/

/-- What an operation is, once for all of them: its acceptance and its lines. -/
theorem exec_eq_perform (i : Instr) (s : State) : exec i s = perform i (linesOf Config.params i) s := by
  cases i <;> rfl

/-- An operation at an idle engine. -/
theorem exec_idle (i : Instr) (s : State) (h : s.busy = false) :
    exec i s = runLines (linesOf Config.params i) (beginOp i (linesOf Config.params i) s) := by
  rw [exec_eq_perform, perform, h]
  rfl

/-- A command word at a busy engine changes nothing (R63). -/
theorem exec_busy (i : Instr) (s : State) (h : s.busy = true) : exec i s = .next s := by
  rw [exec_eq_perform, perform, h]
  rfl

end Sys2Proof.Machine
end

