-- ==== Sys2Proof/Laws/Exchange.lean ====
section
/-! SUPPORT. The exchange and the requests (spec/43_handshake.md R111, spec/45_host_ops.md R141): each part run
through, and the three ways the handshake fails. -/

namespace Sys2Proof.Machine

/-! ### Answers read off a list -/

theorem readyNow_of_answers {s : State} {r : Bool} {rs : List Bool} {n : Nat} (h : readyAnswers (n + 1) s = r :: rs) :
    readyNow s = r := (List.cons.inj h).1

theorem tickNow_of_answers {s : State} {t : Word} {ts : List Word} {n : Nat} (h : tickAnswers (n + 1) s = t :: ts) :
    tickNow s = t := (List.cons.inj h).1

theorem readyNow_two {s : State} {a b : Bool} (h : readyAnswers 2 s = [a, b]) :
    readyNow s = a ∧ Answers.now Config.readyAnswer (Answers.next s.readyIn) = b :=
  ⟨(List.cons.inj h).1, (List.cons.inj (List.cons.inj h).2).1⟩

theorem tickNow_two {s : State} {a b : Word} (h : tickAnswers 2 s = [a, b]) :
    tickNow s = a ∧ Answers.now Config.tickAnswer (Answers.next s.tickIn) = b :=
  ⟨(List.cons.inj h).1, (List.cons.inj (List.cons.inj h).2).1⟩

theorem tickNow_three {s : State} {a b c : Word} (h : tickAnswers 3 s = [a, b, c]) :
    tickNow s = a ∧ Answers.now Config.tickAnswer (Answers.next s.tickIn) = b ∧
      Answers.now Config.tickAnswer (Answers.next (Answers.next s.tickIn)) = c :=
  have h2 := (List.cons.inj h).2
  ⟨(List.cons.inj h).1, (List.cons.inj h2).1, (List.cons.inj (List.cons.inj h2).2).1⟩

theorem ackMatches_iff (bs : List Byte) : ackMatches bs = true ↔ bs = [0x00, 0x00, 0xFF, 0x00, 0xFF, 0x00] := by
  simp [ackMatches, Config.ack]

theorem ackMatches_false (bs : List Byte) (h : bs ≠ [0x00, 0x00, 0xFF, 0x00, 0xFF, 0x00]) : ackMatches bs = false := by
  simpa [ackMatches, Config.ack] using h

/-! ### The parts of an exchange -/

/-- The lines of an exchange up to its first wait. -/
def exchangeHead (P : Params) (n : Nat) : List Line :=
  [.requireCb n, .setHs .idle] ++ writeBody P n ++ [.setHs .sent, .setHs .waitingReady1]

/-- The lines of an exchange between its ACK read and its second wait. -/
def exchangeMiddle : List Line := [.setHs .ackReceived, .setHs .waitingReady2]

theorem exchangeBody_eq (P : Params) (n : Nat) (b : Budget) :
    exchangeBody P n b = exchangeHead P n ++ waitBody b true ++ readAckBody P true ++ exchangeMiddle ++
      waitBody b true ++ [.setHs .responseReady] := by
  simp [exchangeBody, exchangeHead, exchangeMiddle]

/-- The state once the frame is sent and the first wait is to begin. -/
def afterFrame (P : Params) (d : List Byte) (s : State) : State :=
  { s with
    hs := .waitingReady1
    sel := false
    lenr := lengthByte d.length
    acc := accumulate P.dirH2C d
    idx := BitVec.ofNat 7 d.length
    trace := s.trace ++ frameEvents P d }

/-- The state once a wait has found the chip ready. -/
def afterWait (s : State) : State :=
  { s with
    t0 := tickNow s
    readyIn := Answers.next s.readyIn
    tickIn := Answers.next s.tickIn
    trace := s.trace ++ waitEvents (tickNow s) }

/-- The state once six bytes have been read for the ACK. -/
def afterAckRead (P : Params) (s : State) : State :=
  { s with
    sel := false
    ackbuf := Memory.writeRange s.ackbuf 0 (recvAnswers 6 s)
    idx := 6
    recvIn := Answers.skip 6 s.recvIn
    trace := s.trace ++ readEvents P (recvAnswers 6 s) }

/-- The state once `n` bytes have been read into `RB`. -/
def afterRead (P : Params) (n : Nat) (s : State) : State :=
  { s with
    sel := false
    lenr := BitVec.ofNat 8 n
    rb := Memory.writeRange s.rb 0 (recvAnswers n s)
    idx := BitVec.ofNat 7 n
    recvIn := Answers.skip n s.recvIn
    trace := s.trace ++ readEvents P (recvAnswers n s) }

theorem requireCb_of_holds {s : State} {d : List Byte} (h : Holds d s.cb) :
    runLine (.requireCb d.length) s = .go { s with idx := BitVec.ofNat 7 d.length } := by
  simp [runLine, lineRequireCb, readRange_of_holds h]

theorem through_exchangeHead (P : Params) (s : State) (d : List Byte) (h : Holds d s.cb) :
    Through (exchangeHead P d.length) s (afterFrame P d s) := by
  unfold exchangeHead
  refine through_append (through_append (t := { s with idx := BitVec.ofNat 7 d.length, hs := .idle }) ?_
    (through_writeBody P { s with idx := BitVec.ofNat 7 d.length, hs := .idle } d h)) ?_
  · exact through_cons (requireCb_of_holds h) (through_one rfl)
  · exact through_cons rfl (through_one rfl)

theorem through_wait (b : Budget) (x : Bool) (s : State) (h : readyNow s = true) :
    Through (waitBody b x) s (afterWait s) := through_waitBody b x s h

theorem through_ack (P : Params) (x : Bool) (s : State) (h : ackMatches (recvAnswers 6 s) = true) :
    Through (readAckBody P x) s (afterAckRead P s) := through_readAckBody P x s h

/-- The state once the whole handshake has succeeded. -/
def afterExchange (P : Params) (d : List Byte) (s : State) : State :=
  { s with
    hs := .responseReady
    sel := false
    lenr := lengthByte d.length
    acc := accumulate P.dirH2C d
    t0 := Answers.now Config.tickAnswer (Answers.next s.tickIn)
    ackbuf := Memory.writeRange s.ackbuf 0 (recvAnswers 6 s)
    idx := 6
    readyIn := Answers.skip 2 s.readyIn
    tickIn := Answers.skip 2 s.tickIn
    recvIn := Answers.skip 6 s.recvIn
    trace := s.trace ++ frameEvents P d ++ waitEvents (tickNow s) ++ readEvents P (recvAnswers 6 s) ++
      waitEvents (Answers.now Config.tickAnswer (Answers.next s.tickIn)) }

/-- An exchange whose two waits find the chip ready at once and whose ACK matches (R111). -/
theorem through_exchangeBody (P : Params) (b : Budget) (s : State) (d : List Byte) (h : Holds d s.cb)
    (hr : readyAnswers 2 s = [true, true]) (ha : ackMatches (recvAnswers 6 s) = true) :
    Through (exchangeBody P d.length b) s (afterExchange P d s) := by
  have hr1 : readyNow s = true := readyNow_of_answers hr
  have hr2 : Answers.now Config.readyAnswer (Answers.next s.readyIn) = true :=
    (List.cons.inj (List.cons.inj hr).2).1
  rw [exchangeBody_eq]
  have h1 := through_exchangeHead P s d h
  have h2 := through_wait b true (afterFrame P d s) hr1
  have h3 := through_ack P true (afterWait (afterFrame P d s)) ha
  have h4 : Through exchangeMiddle (afterAckRead P (afterWait (afterFrame P d s)))
      { afterAckRead P (afterWait (afterFrame P d s)) with hs := .waitingReady2 } :=
    through_cons rfl (through_one rfl)
  have h5 := through_wait b true { afterAckRead P (afterWait (afterFrame P d s)) with hs := .waitingReady2 } hr2
  have h6 := through_append (through_append (through_append (through_append (through_append h1 h2) h3) h4) h5)
    (through_one (l := .setHs .responseReady) rfl)
  exact through_eq h6 rfl

/-! ### A wait that is not ready at its first poll -/

/-- The state after the first poll of a wait has failed and the clock has been read. -/
def afterFailedPoll (s : State) : State :=
  { s with
    t0 := tickNow s
    readyIn := Answers.next s.readyIn
    tickIn := Answers.skip 2 s.tickIn
    trace := s.trace ++ failedPollEvents (tickNow s) (Answers.now Config.tickAnswer (Answers.next s.tickIn)) }

/-- A wait whose first poll fails: TransportTimeout if the budget is exceeded, else the wait stays open (R107). -/
theorem run_wait_notReady {ls rest : List Line} {s t : State} (b : Budget) (x : Bool) (h : Through ls s t)
    (hr : readyNow t = false) :
    runLines (ls ++ (waitBody b x ++ rest)) s = .next
      (if budgetOf b t.tmor < elapsed (tickNow t) (Answers.now Config.tickAnswer (Answers.next t.tickIn)) then
        raiseInHandshake x .transportTimeout (afterFailedPoll t)
      else { afterFailedPoll t with phase := .poll b x :: rest }) := by
  have h' : Through (ls ++ [.startWait]) s { afterTick t with t0 := tickNow t } := through_append h (through_one rfl)
  have e : ls ++ (waitBody b x ++ rest) = (ls ++ [.startWait]) ++ .poll b x :: rest := by simp [waitBody]
  have hr' : readyNow { afterTick t with t0 := tickNow t } = false := hr
  have et : afterTick (afterReady { afterTick t with t0 := tickNow t }) = afterFailedPoll t := by
    have e1 : Answers.now Config.readyAnswer t.readyIn = false := hr
    simp only [afterFailedPoll, afterTick, afterReady, emit, failedPollEvents, List.append_assoc, List.cons_append,
      List.nil_append, tickNow, readyNow, e1]
    rfl
  rw [e]
  rcases poll_cases b x { afterTick t with t0 := tickNow t } with ⟨h1, _⟩ | ⟨_, h2, h3⟩ | ⟨_, h2, h3⟩
  · rw [hr'] at h1
    cases h1
  · have h4 : budgetOf b t.tmor < elapsed (tickNow t) (Answers.now Config.tickAnswer (Answers.next t.tickIn)) := h2
    rw [run_through_done h' h3, et, if_pos h4]
  · have h4 : ¬ budgetOf b t.tmor < elapsed (tickNow t) (Answers.now Config.tickAnswer (Answers.next t.tickIn)) := h2
    rw [run_through_again h' h3, et, if_neg h4]

/-- An ACK read whose six bytes do not match (R92, R111). -/
theorem run_ack_mismatch {ls rest : List Line} {s t : State} (P : Params) (x : Bool) (h : Through ls s t)
    (ha : ackMatches (recvAnswers 6 t) = false) :
    runLines (ls ++ (readAckBody P x ++ rest)) s = .next (raiseInHandshake x .ackMismatch (afterAckRead P t)) := by
  have h' := through_append h (through_readAck P t)
  have e : ls ++ (readAckBody P x ++ rest) =
      (ls ++ ([.select true, .settle, .send P.markDR, .enterLoop] ++ (List.range Config.nAck).map .recvAck ++ [.select false])) ++
        .checkAck x :: rest := by
    simp [readAckBody]
  rw [e]
  refine run_through_done h' ?_
  have hh : Holds (recvAnswers 6 t) (afterAckRead P t).ackbuf :=
    (overwrites_writeRange t.ackbuf (recvAnswers 6 t)).1
  have hl : (recvAnswers 6 t).length = 6 := take_length _ _ _
  refine (checkAck_of_holds (s := afterAckRead P t) x hl hh).trans ?_
  rw [ha]
  rfl

/-! ### The three ways an exchange fails (R111, R156) -/

/-- The lines of an exchange after its first wait. -/
def afterFirstWait (P : Params) (b : Budget) : List Line :=
  readAckBody P true ++ exchangeMiddle ++ waitBody b true ++ [.setHs .responseReady]

theorem exchangeBody_split (P : Params) (n : Nat) (b : Budget) (pre rest : List Line) :
    pre ++ (exchangeBody P n b ++ rest) =
      (pre ++ exchangeHead P n) ++ (waitBody b true ++ (afterFirstWait P b ++ rest)) := by
  simp [exchangeBody_eq, afterFirstWait]

theorem exchangeBody_split2 (P : Params) (n : Nat) (b : Budget) (pre rest : List Line) :
    pre ++ (exchangeBody P n b ++ rest) =
      (pre ++ exchangeHead P n ++ waitBody b true) ++ (readAckBody P true ++
        (exchangeMiddle ++ (waitBody b true ++ ([.setHs .responseReady] ++ rest)))) := by
  simp [exchangeBody_eq]

theorem exchangeBody_split3 (P : Params) (n : Nat) (b : Budget) (pre rest : List Line) :
    pre ++ (exchangeBody P n b ++ rest) =
      (pre ++ exchangeHead P n ++ waitBody b true ++ readAckBody P true ++ exchangeMiddle) ++
        (waitBody b true ++ ([.setHs .responseReady] ++ rest)) := by
  simp [exchangeBody_eq]

/-- The first poll of the first wait fails. -/
theorem run_exchange_firstWait {pre rest : List Line} {s s0 : State} (P : Params) (b : Budget) (d : List Byte)
    (t : Through pre s s0) (hd : Holds d s0.cb) (hr : readyNow s0 = false) :
    runLines (pre ++ (exchangeBody P d.length b ++ rest)) s = .next
      (if budgetOf b s0.tmor < elapsed (tickNow s0) (Answers.now Config.tickAnswer (Answers.next s0.tickIn)) then
        raiseInHandshake true .transportTimeout (afterFailedPoll (afterFrame P d s0))
      else { afterFailedPoll (afterFrame P d s0) with phase := .poll b true :: (afterFirstWait P b ++ rest) }) := by
  rw [exchangeBody_split]
  exact run_wait_notReady b true (through_append t (through_exchangeHead P s0 d hd)) hr

/-- The six bytes read are not the ACK. -/
theorem run_exchange_ack {pre rest : List Line} {s s0 : State} (P : Params) (b : Budget) (d : List Byte)
    (t : Through pre s s0) (hd : Holds d s0.cb) (hr : readyNow s0 = true)
    (ha : ackMatches (recvAnswers 6 s0) = false) :
    runLines (pre ++ (exchangeBody P d.length b ++ rest)) s =
      .next (raiseInHandshake true .ackMismatch (afterAckRead P (afterWait (afterFrame P d s0)))) := by
  rw [exchangeBody_split2]
  exact run_ack_mismatch P true
    (through_append (through_append t (through_exchangeHead P s0 d hd)) (through_wait b true (afterFrame P d s0) hr)) ha

/-- The state once the ACK has matched and the second wait is to begin. -/
def afterAck (P : Params) (d : List Byte) (s : State) : State :=
  { afterAckRead P (afterWait (afterFrame P d s)) with hs := .waitingReady2 }

theorem through_toSecondWait {pre : List Line} {s s0 : State} (P : Params) (b : Budget) (d : List Byte)
    (t : Through pre s s0) (hd : Holds d s0.cb) (hr : readyNow s0 = true)
    (ha : ackMatches (recvAnswers 6 s0) = true) :
    Through (pre ++ exchangeHead P d.length ++ waitBody b true ++ readAckBody P true ++ exchangeMiddle) s
      (afterAck P d s0) :=
  through_append
    (through_append
      (through_append (through_append t (through_exchangeHead P s0 d hd)) (through_wait b true (afterFrame P d s0) hr))
      (through_ack P true (afterWait (afterFrame P d s0)) ha))
    (through_cons rfl (through_one rfl))

/-- The first poll of the second wait fails. -/
theorem run_exchange_secondWait {pre rest : List Line} {s s0 : State} (P : Params) (b : Budget) (d : List Byte)
    (t : Through pre s s0) (hd : Holds d s0.cb) (hr : readyNow s0 = true)
    (ha : ackMatches (recvAnswers 6 s0) = true)
    (hr2 : Answers.now Config.readyAnswer (Answers.next s0.readyIn) = false) :
    runLines (pre ++ (exchangeBody P d.length b ++ rest)) s = .next
      (if budgetOf b s0.tmor < elapsed (Answers.now Config.tickAnswer (Answers.next s0.tickIn))
          (Answers.now Config.tickAnswer (Answers.next (Answers.next s0.tickIn))) then
        raiseInHandshake true .transportTimeout (afterFailedPoll (afterAck P d s0))
      else { afterFailedPoll (afterAck P d s0) with phase := .poll b true :: ([.setHs .responseReady] ++ rest) }) := by
  rw [exchangeBody_split3]
  exact run_wait_notReady b true (through_toSecondWait P b d t hd hr ha) hr2

/-! ### Requests -/

theorem requireBound_of_bound {s : State} (h : s.bound = true) : runLine .requireBound s = .go s := by
  simp [runLine, lineRequireBound, h]

/-- The head of a request: the `BOUND` check and the load of its frame data (R141). -/
theorem through_requestHead (s : State) (d : List Byte) (h : s.bound = true) :
    Through ([.requireBound] ++ loadCbLines 0 d) s { s with cb := Memory.writeRange s.cb 0 d } :=
  through_append (through_one (requireBound_of_bound h)) (through_loadCb s 0 d)

/-- A request up to its response, the handshake succeeding at once (R141). -/
theorem through_requestHandshake (P : Params) (b : Budget) (s : State) (d : List Byte) (hb : s.bound = true)
    (hr : readyAnswers 2 s = [true, true]) (ha : ackMatches (recvAnswers 6 s) = true) :
    Through ([.requireBound] ++ loadCbLines 0 d ++ exchangeBody P d.length b) s
      (afterExchange P d { s with cb := Memory.writeRange s.cb 0 d }) :=
  through_append (through_requestHead s d hb)
    (through_exchangeBody P b { s with cb := Memory.writeRange s.cb 0 d } d (overwrites_writeRange s.cb d).1 hr ha)

/-- What the first part of a list of answers leaves for the second. -/
theorem recvAnswers_split {s : State} {m n : Nat} {as bs : List Byte} (ha : as.length = m)
    (h : recvAnswers (m + n) s = as ++ bs) :
    recvAnswers m s = as ∧ Answers.take Config.recvAnswer n (Answers.skip m s.recvIn) = bs := by
  unfold recvAnswers at h ⊢
  rw [take_add] at h
  exact List.append_inj h (by rw [take_length, ha])

/-- The state of a request once its `n` response bytes are in `RB`, the handshake having succeeded at once. -/
def afterRequest (P : Params) (d : List Byte) (n : Nat) (s : State) : State :=
  afterRead P n (afterExchange P d { s with cb := Memory.writeRange s.cb 0 d })

theorem through_request (P : Params) (b : Budget) (s : State) (d : List Byte) (n : Nat) (hb : s.bound = true)
    (hr : readyAnswers 2 s = [true, true]) (ha : ackMatches (recvAnswers 6 s) = true) :
    Through ([.requireBound] ++ loadCbLines 0 d ++ exchangeBody P d.length b ++ readBody P n) s
      (afterRequest P d n s) :=
  through_append (through_requestHandshake P b s d hb hr ha) (through_readBody P _ n)

theorem afterRequest_rb (P : Params) (d : List Byte) (n : Nat) (s : State) :
    (afterRequest P d n s).rb =
      Memory.writeRange s.rb 0 (Answers.take Config.recvAnswer n (Answers.skip 6 s.recvIn)) := rfl

/-- Every request is its head, its handshake and the rest; the budget of its waits is that of its rule (R141, R143). -/
theorem linesOf_request (P : Params) (i : Instr) (h : isRequest i = true) :
    ∃ b rest, linesOf P i = ([.requireBound] ++ loadCbLines 0 (requestData P i)) ++
        (exchangeBody P (requestData P i).length b ++ rest) ∧
      (budgetOf b (tmoHalf i.tmo)).toNat = requestBudget P i := by
  have e : ∀ (d : List Byte) b n p, requestLines P d b n p =
      ([.requireBound] ++ loadCbLines 0 d) ++ (exchangeBody P d.length b ++ (responseLines P n p ++ [.finish])) := by
    intros
    simp [requestLines]
  cases i <;> simp only [isRequest, reduceCtorEq] at h <;>
    simp only [linesOf, getFirmwareVersionLines, configureSamLines, setRetriesLines, readTargetLines, e, requestData,
      requestBudget, argByte]
  case readPassiveTargetId arg tmo =>
    refine ⟨_, _, rfl, ?_⟩
    simp only [budgetOf, tmoHalf, Instr.tmo, BitVec.toNat_setWidth, BitVec.toNat_ofNat]
    omega
  all_goals exact ⟨_, _, rfl, rfl⟩

end Sys2Proof.Machine
end

