-- ==== Sys2Proof/Laws/Operands.lean ====
section
/-! SUPPORT. The operand checks as facts about numbers (spec/60_exceptions.md R155, spec/45_host_ops.md R135). -/

namespace Sys2Proof.Machine

theorem cbCountOk_iff (n : Nat) : cbCountOk n = true ↔ 1 ≤ n ∧ n ≤ 64 := by
  unfold cbCountOk
  rw [Bool.and_eq_true, decide_eq_true_iff, decide_eq_true_iff]
  rfl

theorem rbCountOk_iff (n : Nat) : rbCountOk n = true ↔ n ≤ 64 := decide_eq_true_iff

theorem verifyOffsetOk_iff (o : Nat) : verifyOffsetOk o = true ↔ o + 2 ≤ 63 := decide_eq_true_iff

theorem verifyLengthOk_iff (o l : Nat) : verifyLengthOk o l = true ↔ o + 2 + l ≤ 63 := decide_eq_true_iff

theorem handleValid_iff (n : Nat) : handleValid (BitVec.ofNat 8 n) = true ↔ n % 2 = 1 := by
  unfold handleValid
  rw [BitVec.getLsbD_ofNat]
  simp [Nat.testBit_zero]

theorem argByte_toNat (n : Nat) (h : n < 256) : (argByte n).toNat = n := by
  simp only [argByte, BitVec.toNat_ofNat]
  omega

theorem countOf_small (n : Nat) (h : n < 256) : countOf n = n := argByte_toNat n h

/-- The frame data of every request has 1 to 64 bytes (R136, the constraint on `P`). -/
theorem requestData_length (P : Params) (i : Instr) (h : isRequest i = true) :
    1 ≤ (requestData P i).length ∧ (requestData P i).length ≤ 64 := by
  cases i <;> simp [isRequest] at h <;> simp [requestData, getFwData, samData, retriesData, inlistData] <;> omega

end Sys2Proof.Machine
end

