-- ==== Sys2Proof/Laws/Keeps.lean ====
section
/-! SUPPORT. What one line can change, said once for all lines (`LineEffects`), and how it lifts to a run of lines: a
field no line of an operation touches is as it was after the run. -/

namespace Sys2Proof.Machine

/-! ### Which lines touch what -/

/-- The state after a line that does not fault. -/
def verdictState : Verdict → Option State
  | .go s | .again s | .done s => some s
  | .fault _ => none

/-- The lines that can write `HS` (R110, R156). -/
def touchesHs : Line → Bool
  | .setHs _ => true
  | .poll _ inExchange | .checkAck inExchange => inExchange
  | _ => false

/-- The lines that write `RES8` (R21). -/
def touchesRes8 : Line → Bool
  | .csumLcs | .csumDcs _ | .csumVerify | .ackMatch => true
  | _ => false

/-- The lines that write `FWVER` (R22). -/
def touchesFwver : Line → Bool
  | .parseFwver _ => true
  | _ => false

/-- The lines that write `UIDLEN` and `UID` (R23, R24). -/
def touchesUid : Line → Bool
  | .parseTarget => true
  | _ => false

/-- The lines that write `CB` (R40). -/
def touchesCb : Line → Bool
  | .loadCb _ _ => true
  | _ => false

/-- The lines that write `RB` (R41). -/
def touchesRb : Line → Bool
  | .recvRb _ => true
  | _ => false

/-- The lines that write `ACKBUF` (R42). -/
def touchesAckbuf : Line → Bool
  | .recvAck _ => true
  | _ => false

/-- The lines that write `ACC` (R18). -/
def touchesAcc : Line → Bool
  | .startAcc _ | .sendCb _ | .csumDcs _ | .csumVerify => true
  | _ => false

/-- The lines that write `LENR` (R19). -/
def touchesLenr : Line → Bool
  | .loadLen _ => true
  | _ => false

/-- The lines that write `T0` (R20). -/
def touchesT0 : Line → Bool
  | .startWait => true
  | _ => false

/-- The lines that drive chip-select (R15). -/
def touchesSel : Line → Bool
  | .select _ => true
  | _ => false

/-- The lines that make a transport event (spec/00_scope.md R7). -/
def makesEvent : Line → Bool
  | .select _ | .settle | .send _ | .sendLen | .sendLcs | .sendCb _ | .sendDcs | .startWait | .poll _ _ | .recvAck _
  | .recvRb _ => true
  | _ => false

/-- What a line that does not fault can do to the state. -/
structure LineEffects (l : Line) (s t : State) : Prop where
  bound : l ≠ .bind → t.bound = s.bound
  boundUp : s.bound = true → t.bound = true
  hs : touchesHs l = false → t.hs = s.hs
  res8 : touchesRes8 l = false → t.res8 = s.res8
  fwver : touchesFwver l = false → t.fwver = s.fwver
  uid : touchesUid l = false → t.uidlen = s.uidlen ∧ t.uid = s.uid
  cb : touchesCb l = false → t.cb = s.cb
  rb : touchesRb l = false → t.rb = s.rb
  ackbuf : touchesAckbuf l = false → t.ackbuf = s.ackbuf
  acc : touchesAcc l = false → t.acc = s.acc
  lenr : touchesLenr l = false → t.lenr = s.lenr
  t0 : touchesT0 l = false → t.t0 = s.t0
  sel : touchesSel l = false → t.sel = s.sel
  waits : t.busy = true → s.busy = true ∧ t.err = s.err
  latches : t.opr = s.opr ∧ t.argr = s.argr ∧ t.tmor = s.tmor
  hostSide : t.host = s.host ∧ t.noted = s.noted
  quiet : makesEvent l = false →
    t.trace = s.trace ∧ t.readyIn = s.readyIn ∧ t.tickIn = s.tickIn ∧ t.recvIn = s.recvIn ∧ t.sel = s.sel
  level : ∀ k, lineLevel l s.sel = some k →
    t.sel = k ∧ ∃ es, t.trace = s.trace ++ es ∧ traceLevel s.sel es = some k
  grows : ∃ es, t.trace = s.trace ++ es

theorem runLine_effects (l : Line) (s t : State) (h : verdictState (runLine l s) = some t) : LineEffects l s t := by
  cases l <;> simp only [runLine, lineRequireBound, lineRequireCbCount, lineRequireRbCount, lineRequireCb, lineSendCb,
    linePoll, lineRecvAck, lineRecvRb, lineCheckAck, lineBind, lineCsumLcs, lineCsumDcs, lineCsumVerify, lineAckMatch,
    lineParseFwver, lineParseSam, lineParseTarget, extractUid] at h
  all_goals repeat' split at h
  all_goals simp only [verdictState, Option.some.injEq, reduceCtorEq] at h
  all_goals subst h
  all_goals constructor
  all_goals simp [touchesHs, touchesRes8, touchesFwver, touchesUid, touchesCb, touchesRb, touchesAckbuf, touchesAcc,
    touchesLenr, touchesT0, touchesSel, makesEvent]
  case poll.isFalse.isTrue.hs =>
    intro hx h
    simp [hx] at h
  case h_2.isFalse.hs =>
    intro hx h
    simp [hx] at h
  case select.level a =>
    cases e : s.sel <;> cases a <;> simp [lineLevel, traceLevel, eventLevel]
  all_goals cases e : s.sel <;> simp [lineLevel, traceLevel, eventLevel]

/-- How a line hands on: it goes on with the engine as busy as before, it is a poll that stays next, or it ends the
operation with the engine idle. -/
theorem runLine_hands_on (l : Line) (s : State) :
    (∃ t, runLine l s = .go t ∧ t.busy = s.busy ∧ t.phase = s.phase ∧ endsOperation l = false) ∨
    (∃ t b x, l = .poll b x ∧ runLine l s = .again t ∧ t.busy = s.busy ∧ t.err = s.err) ∨
    (∃ t, runLine l s = .done t ∧ t.busy = false ∧ t.phase = [] ∧ (t.err = .ok → l = .finish) ∧
      ∀ k, lineLevel l s.sel = some k → k = false) ∨
    ∃ f, runLine l s = .fault f := by
  have lv : ∀ k, (if s.sel then none else some false) = some k → k = false := by
    intro k
    split <;> simp_all
  cases l <;> simp only [runLine, lineRequireBound, lineRequireCbCount, lineRequireRbCount, lineRequireCb, lineSendCb,
    linePoll, lineRecvAck, lineRecvRb, lineCheckAck, lineBind, lineCsumLcs, lineCsumDcs, lineCsumVerify, lineAckMatch,
    lineParseFwver, lineParseSam, lineParseTarget, extractUid]
  all_goals repeat' split
  all_goals first
    | exact .inl ⟨_, rfl, rfl, rfl, rfl⟩
    | exact .inr (.inr (.inr ⟨_, rfl⟩))
    | exact .inr (.inl ⟨_, _, _, rfl, rfl, rfl, rfl⟩)
    | exact .inr (.inr (.inl ⟨_, rfl, by simp, by simp, fun _ => by trivial, lv⟩))

/-- A line that ends the operation writes no result register. -/
theorem runLine_done_results (l : Line) (s t : State) (h : runLine l s = .done t) :
    t.res8 = s.res8 ∧ t.fwver = s.fwver ∧ t.uidlen = s.uidlen ∧ t.uid = s.uid := by
  cases l <;> simp only [runLine, lineRequireBound, lineRequireCbCount, lineRequireRbCount, lineRequireCb, lineSendCb,
    linePoll, lineRecvAck, lineRecvRb, lineCheckAck, lineBind, lineCsumLcs, lineCsumDcs, lineCsumVerify, lineAckMatch,
    lineParseFwver, lineParseSam, lineParseTarget, extractUid] at h
  all_goals repeat' split at h
  all_goals simp only [Verdict.done.injEq, reduceCtorEq] at h
  all_goals subst h
  all_goals simp

/-! ### A run of lines -/

theorem runLines_cons (l : Line) (ls : List Line) (s : State) :
    runLines (l :: ls) s =
      match runLine l s with
      | .go t => runLines ls t
      | .again t => .next { t with phase := l :: ls }
      | .done t => .next t
      | .fault f => .fault f := rfl

/-- The way a run to a next state goes through its lines: a property of the state before and the state now that every
line keeps. -/
theorem runLines_induct {R : State → Prop} {ls : List Line} {s t : State} (h0 : R s)
    (hp : ∀ u p, R u → R { u with phase := p })
    (hl : ∀ l ∈ ls, ∀ u v, R u → LineEffects l u v → R v) (h : runLines ls s = .next t) : R t := by
  induction ls generalizing s with
  | nil =>
    obtain rfl := Host.Outcome.next.inj h
    exact hp s [] h0
  | cons l ls ih =>
    have hmem : ∀ m ∈ ls, ∀ u v, R u → LineEffects m u v → R v := fun m hm => hl m (List.mem_cons_of_mem _ hm)
    rw [runLines_cons] at h
    have e := runLine_effects l s
    split at h
    · next u hu => exact ih (hl l (by simp) s u h0 (e u (by rw [hu]; rfl))) hmem h
    · next u hu =>
      obtain rfl := Host.Outcome.next.inj h
      exact hp _ _ (hl l (by simp) s u h0 (e u (by rw [hu]; rfl)))
    · next u hu =>
      obtain rfl := Host.Outcome.next.inj h
      exact hl l (by simp) s _ h0 (e _ (by rw [hu]; rfl))
    · cases h

/-- A run whose lines never touch `HS` leaves it, and so on: one lemma for any field a line keeps. -/
theorem runLines_keeps {α : Type} (f : State → α) (hp : ∀ u p, f { u with phase := p } = f u) {ls : List Line}
    {s t : State} (hl : ∀ l ∈ ls, ∀ u v, LineEffects l u v → f v = f u) (h : runLines ls s = .next t) : f t = f s :=
  runLines_induct (R := fun u => f u = f s) rfl (fun u p hu => (hp u p).trans hu)
    (fun l hm u v hu hv => (hl l hm u v hv).trans hu) h

/-- The record of events only grows. -/
theorem runLines_grows {ls : List Line} {s t : State} (h : runLines ls s = .next t) :
    ∃ es, t.trace = s.trace ++ es := by
  refine runLines_induct (R := fun u => ∃ es, u.trace = s.trace ++ es) ⟨[], by simp⟩ (fun u p hu => hu) ?_ h
  rintro l _ u v ⟨es, hes⟩ hv
  obtain ⟨fs, hfs⟩ := hv.grows
  exact ⟨es ++ fs, by rw [hfs, hes, List.append_assoc]⟩

theorem traceLevel_append (sel : Bool) (as bs : List Event) :
    traceLevel sel (as ++ bs) = (traceLevel sel as).bind fun k => traceLevel k bs := by
  induction as generalizing sel with
  | nil => rfl
  | cons e as ih =>
    simp only [List.cons_append, traceLevel]
    split
    · exact ih _
    · rfl

theorem linesLevel_append (sel : Bool) (as bs : List Line) :
    linesLevel sel (as ++ bs) = (linesLevel sel as).bind fun k => linesLevel k bs := by
  induction as generalizing sel with
  | nil => rfl
  | cons l as ih =>
    simp only [List.cons_append, linesLevel]
    split
    · exact ih _
    · rfl

/-- A run of lines that keep the framing keeps it in the record of events, and leaves chip-select deasserted. -/
theorem runLines_level {ls : List Line} {s t : State} (hl : linesLevel s.sel ls = some false)
    (h : runLines ls s = .next t) :
    t.sel = false ∧ ∃ es, t.trace = s.trace ++ es ∧ traceLevel s.sel es = some false := by
  induction ls generalizing s with
  | nil =>
    obtain rfl := Host.Outcome.next.inj h
    exact ⟨Option.some.inj hl, [], by simp, hl⟩
  | cons l ls ih =>
    simp only [linesLevel] at hl
    split at hl
    · next k hk =>
      have key : ∀ u, verdictState (runLine l s) = some u → u.sel = k ∧ ∃ es, u.trace = s.trace ++ es ∧
          traceLevel s.sel es = some k := fun u hu => (runLine_effects l s u hu).level k hk
      rw [runLines_cons] at h
      rcases runLine_hands_on l s with ⟨u, hu, -⟩ | ⟨u, b, x, rfl, hu, -⟩ | ⟨u, hu, -, -, -, hf⟩ | ⟨f, hu⟩ <;>
        rw [hu] at h key <;> simp only at h
      · obtain ⟨h1, es, h2, h3⟩ := key u rfl
        obtain ⟨h4, fs, h5, h6⟩ := ih (h1 ▸ hl) h
        exact ⟨h4, es ++ fs, by rw [h5, h2, List.append_assoc], by rw [traceLevel_append, h3]; exact h1 ▸ h6⟩
      · obtain rfl := Host.Outcome.next.inj h
        obtain ⟨h1, es, h2, h3⟩ := key u rfl
        have : k = false := by
          simp only [lineLevel] at hk
          split at hk <;> simp_all
        subst this
        exact ⟨h1, es, h2, h3⟩
      · obtain rfl := Host.Outcome.next.inj h
        obtain ⟨h1, es, h2, h3⟩ := key u rfl
        obtain rfl := hf k hk
        exact ⟨h1, es, h2, h3⟩
      · cases h
    · cases hl

/-- After a run of lines that end the operation the engine is idle, or busy with a poll next. -/
theorem runLines_ends {ls : List Line} {s t : State} (hl : ∃ l, ls.getLast? = some l ∧ endsOperation l = true)
    (hb : s.busy = true) (h : runLines ls s = .next t) :
    (t.busy = false ∧ t.phase = []) ∨
      (t.busy = true ∧ ∃ b x rest, t.phase = .poll b x :: rest ∧ .poll b x :: rest <:+ ls) := by
  induction ls generalizing s with
  | nil => simp at hl
  | cons l ls ih =>
    rw [runLines_cons] at h
    rcases runLine_hands_on l s with ⟨u, hu, h1, -, h2⟩ | ⟨u, b, x, rfl, hu, h1, -⟩ | ⟨u, hu, h1, h2, -⟩ | ⟨f, hu⟩ <;>
      rw [hu] at h <;> simp only at h
    · have hne : ls ≠ [] := by
        rintro rfl
        obtain ⟨m, hm, he⟩ := hl
        obtain rfl : l = m := by simpa using hm
        rw [h2] at he
        cases he
      have hl' : ∃ m, ls.getLast? = some m ∧ endsOperation m = true := by
        obtain ⟨m, hm, he⟩ := hl
        refine ⟨m, ?_, he⟩
        rw [← hm, List.getLast?_cons]
        cases h : ls.getLast? with
        | none => exact absurd (List.getLast?_eq_none_iff.1 h) hne
        | some m => rfl
      rcases ih hl' (h1.trans hb) h with h | ⟨h3, b, x, rest, h4, h5⟩
      · exact .inl h
      · exact .inr ⟨h3, b, x, rest, h4, h5.trans (List.suffix_cons l ls)⟩
    · obtain rfl := Host.Outcome.next.inj h
      exact .inr ⟨h1.trans hb, b, x, ls, rfl, List.suffix_refl _⟩
    · obtain rfl := Host.Outcome.next.inj h
      exact .inl ⟨h1, h2⟩
    · cases h

/-- The lines that write a result register. -/
def touchesResult (l : Line) : Bool := touchesRes8 l || touchesFwver l || touchesUid l

/-- The result registers. -/
def resultsOf (s : State) : Option Byte × Option Word × Option Byte × Memory := (s.res8, s.fwver, s.uidlen, s.uid)

/-- A run whose last line but `return Ok` is the only one that writes a result has written none if it fails, or if it
is still waiting. -/
theorem runLines_results {pre : List Line} {body : Line} {s t : State} (hpre : ∀ l ∈ pre, touchesResult l = false)
    (h : runLines (pre ++ [body, .finish]) s = .next t) (hf : t.err ≠ .ok ∨ t.busy = true) :
    resultsOf t = resultsOf s := by
  induction pre generalizing s with
  | nil =>
    simp only [List.nil_append, runLines_cons] at h
    rcases runLine_hands_on body s with ⟨u, hu, -⟩ | ⟨u, b, x, rfl, hu, -⟩ | ⟨u, hu, -⟩ | ⟨f, hu⟩ <;>
      rw [hu] at h <;> simp only at h
    · obtain rfl := Host.Outcome.next.inj h
      simp at hf
    · obtain rfl := Host.Outcome.next.inj h
      have e := runLine_effects _ s u (by rw [hu]; rfl)
      simp [resultsOf, e.res8 rfl, e.fwver rfl, e.uid rfl]
    · obtain rfl := Host.Outcome.next.inj h
      obtain ⟨h1, h2, h3, h4⟩ := runLine_done_results body s u hu
      simp [resultsOf, h1, h2, h3, h4]
    · cases h
  | cons l pre ih =>
    have hl := hpre l (by simp)
    simp only [touchesResult, Bool.or_eq_false_iff] at hl
    have keep : ∀ u, verdictState (runLine l s) = some u → resultsOf u = resultsOf s := by
      intro u hu
      have e := runLine_effects _ s u hu
      simp [resultsOf, e.res8 hl.1.1, e.fwver hl.1.2, e.uid hl.2]
    rw [List.cons_append, runLines_cons] at h
    rcases runLine_hands_on l s with ⟨u, hu, -⟩ | ⟨u, b, x, rfl, hu, -⟩ | ⟨u, hu, -⟩ | ⟨f, hu⟩ <;>
      rw [hu] at h keep <;> simp only at h
    · exact (ih (fun m hm => hpre m (by simp [hm])) h).trans (keep u rfl)
    · obtain rfl := Host.Outcome.next.inj h
      exact keep u rfl
    · obtain rfl := Host.Outcome.next.inj h
      exact keep u rfl
    · cases h

end Sys2Proof.Machine
end

