-- ==== Sys2Proof/Laws/Lines.lean ====
section
/-! SUPPORT. The lines of every operation: which kinds of line occur in which operation, that every operation keeps the
framing and ends itself, and that every index in a line is inside its buffer. -/

namespace Sys2Proof.Machine

theorem forall_loadCbLines (p : Line → Prop) (i : Nat) (d : List Byte)
    (h : ∀ j b, i ≤ j → j < i + d.length → p (.loadCb j b)) : ∀ l ∈ loadCbLines i d, p l := by
  induction d generalizing i with
  | nil => simp [loadCbLines]
  | cons b d ih =>
    intro l hl
    rcases List.mem_cons.1 hl with rfl | hl
    · exact h i b (Nat.le_refl _) (by simp)
    · exact ih (i + 1) (fun j b h1 h2 => h j b (by omega) (by simp only [List.length_cons]; omega)) l hl

theorem forall_writeBody (p : Line → Prop) (P : Params) (n : Nat) :
    (∀ l ∈ writeBody P n, p l) ↔
      p (.loadLen (lengthByte n)) ∧ p (.select true) ∧ p .settle ∧ p (.send P.markDW) ∧ p (.send P.preamble) ∧
      p (.send P.start1) ∧ p (.send P.start2) ∧ p .sendLen ∧ p .sendLcs ∧ p (.send P.dirH2C) ∧
      p (.startAcc P.dirH2C) ∧ p .enterLoop ∧ (∀ i < n, p (.sendCb i)) ∧ p .sendDcs ∧ p (.send P.postamble) ∧ p (.select false) := by
  simp only [writeBody, List.forall_mem_append, List.forall_mem_cons, List.forall_mem_map, List.mem_range,
    List.not_mem_nil, false_implies, implies_true, and_true, and_assoc]

theorem forall_readBody (p : Line → Prop) (P : Params) (n : Nat) :
    (∀ l ∈ readBody P n, p l) ↔
      p (.loadLen (BitVec.ofNat 8 n)) ∧ p (.select true) ∧ p .settle ∧ p (.send P.markDR) ∧ p .enterLoop ∧
      (∀ i < n, p (.recvRb i)) ∧ p (.select false) := by
  simp only [readBody, List.forall_mem_append, List.forall_mem_cons, List.forall_mem_map, List.mem_range,
    List.not_mem_nil, false_implies, implies_true, and_true, and_assoc]

theorem forall_readAckBody (p : Line → Prop) (P : Params) (x : Bool) :
    (∀ l ∈ readAckBody P x, p l) ↔
      p (.select true) ∧ p .settle ∧ p (.send P.markDR) ∧ p .enterLoop ∧ (∀ i < 6, p (.recvAck i)) ∧ p (.select false) ∧
      p (.checkAck x) := by
  simp only [readAckBody, List.forall_mem_append, List.forall_mem_cons, List.forall_mem_map, List.mem_range,
    List.not_mem_nil, false_implies, implies_true, and_true, and_assoc, Config.nAck]

theorem forall_exchangeBody (p : Line → Prop) (P : Params) (n : Nat) (b : Budget) :
    (∀ l ∈ exchangeBody P n b, p l) ↔
      p (.requireCb n) ∧ p (.setHs .idle) ∧ (∀ l ∈ writeBody P n, p l) ∧ p (.setHs .sent) ∧ p (.setHs .waitingReady1) ∧
      p .startWait ∧ p (.poll b true) ∧ (∀ l ∈ readAckBody P true, p l) ∧ p (.setHs .ackReceived) ∧
      p (.setHs .waitingReady2) ∧ p (.setHs .responseReady) := by
  simp only [exchangeBody, waitBody, List.forall_mem_append, List.forall_mem_cons, List.not_mem_nil, false_implies,
    implies_true, and_true, and_assoc]
  tauto

/-- Which kinds of line an operation may have: what it may write, and whether it may use the transport. -/
structure Fits (i : Instr) (l : Line) : Prop where
  bind : l = .bind → i.opcode = 0x00
  hs : touchesHs l = true → isRequest i = true ∨ i.opcode = 0x25
  res8 : touchesRes8 l = true → i.opcode = 0x10 ∨ i.opcode = 0x11 ∨ i.opcode = 0x12 ∨ i.opcode = 0x23
  fwver : touchesFwver l = true → i.opcode = 0x01 ∨ i.opcode = 0x30
  uid : touchesUid l = true → i.opcode = 0x04 ∨ i.opcode = 0x32
  cb : touchesCb l = true → isRequest i = true
  rb : touchesRb l = true → i.opcode = 0x01 ∨ i.opcode = 0x02 ∨ i.opcode = 0x04 ∨ i.opcode = 0x24
  ackbuf : touchesAckbuf l = true → isRequest i = true ∨ i.opcode = 0x22 ∨ i.opcode = 0x25
  acc : touchesAcc l = true →
    isRequest i = true ∨ i.opcode = 0x11 ∨ i.opcode = 0x12 ∨ i.opcode = 0x20 ∨ i.opcode = 0x25
  lenr : touchesLenr l = true → isRequest i = true ∨ i.opcode = 0x20 ∨ i.opcode = 0x24 ∨ i.opcode = 0x25
  t0 : touchesT0 l = true → isRequest i = true ∨ i.opcode = 0x21 ∨ i.opcode = 0x25
  sel : touchesSel l = true →
    isRequest i = true ∨ i.opcode = 0x20 ∨ i.opcode = 0x22 ∨ i.opcode = 0x24 ∨ i.opcode = 0x25
  event : makesEvent l = true → usesTransport i = true

/-- Every line of an operation is of a kind that its rule gives it. -/
theorem linesOf_fit (P : Params) (i : Instr) : ∀ l ∈ linesOf P i, Fits i l := by
  cases i <;> simp only [linesOf, initLines, getFirmwareVersionLines, configureSamLines, setRetriesLines,
    readTargetLines, csumLcsLines, csumDcsLines, csumVerifyLines, writeCommandLines, waitReadyLines, readAckLines,
    ackMatchLines, readDataLines, exchangeLines, parseFwverLines, parseSamLines, parseTargetLines, requestLines,
    responseLines, Config.nFw, Config.nSam, Config.nPt, waitBody, List.forall_mem_append, List.forall_mem_cons,
    List.not_mem_nil, false_implies, implies_true, and_true, forall_writeBody, forall_readBody, forall_readAckBody,
    forall_exchangeBody, and_assoc, reduceIte, OfNat.ofNat_ne_zero]
  all_goals repeat' apply And.intro
  all_goals try intro k hk
  all_goals try
    (constructor <;> simp [Instr.opcode, usesTransport, isRequest, makesEvent, touchesHs, touchesRes8, touchesFwver,
      touchesUid, touchesCb, touchesRb, touchesAckbuf, touchesAcc, touchesLenr, touchesT0, touchesSel]; done)
  all_goals
    refine forall_loadCbLines _ _ _ (fun j b _ _ => ?_) k hk
    constructor <;> simp [isRequest, makesEvent, touchesHs, touchesRes8, touchesFwver, touchesUid, touchesCb,
      touchesRb, touchesAckbuf, touchesAcc, touchesLenr, touchesT0, touchesSel]

/-! ### Framing -/

theorem linesLevel_loadCb (sel : Bool) (i : Nat) (d : List Byte) : linesLevel sel (loadCbLines i d) = some sel := by
  induction d generalizing i with
  | nil => rfl
  | cons b d ih => simp [loadCbLines, linesLevel, lineLevel, ih]

theorem linesLevel_loop (f : Nat → Line) (hf : ∀ i, lineLevel (f i) true = some true) (is : List Nat) :
    linesLevel true (is.map f) = some true := by
  induction is with
  | nil => rfl
  | cons i is ih => simp [linesLevel, hf, ih]

theorem linesLevel_writeBody (P : Params) (n : Nat) : linesLevel false (writeBody P n) = some false := by
  simp [writeBody, linesLevel_append, linesLevel, lineLevel, linesLevel_loop .sendCb (fun _ => rfl)]

theorem linesLevel_readBody (P : Params) (n : Nat) : linesLevel false (readBody P n) = some false := by
  simp [readBody, linesLevel_append, linesLevel, lineLevel, linesLevel_loop .recvRb (fun _ => rfl)]

theorem linesLevel_readAckBody (P : Params) (x : Bool) : linesLevel false (readAckBody P x) = some false := by
  simp [readAckBody, linesLevel_append, linesLevel, lineLevel, linesLevel_loop .recvAck (fun _ => rfl)]

theorem linesLevel_exchangeBody (P : Params) (n : Nat) (b : Budget) :
    linesLevel false (exchangeBody P n b) = some false := by
  simp [exchangeBody, waitBody, linesLevel_append, linesLevel, lineLevel, linesLevel_writeBody, linesLevel_readAckBody]

theorem linesLevel_request (P : Params) (d : List Byte) (b : Budget) (n : Nat) (parse : List Line)
    (hp : linesLevel false parse = some false) : linesLevel false (requestLines P d b n parse) = some false := by
  unfold requestLines responseLines
  split <;>
    simp [linesLevel_append, linesLevel, lineLevel, linesLevel_loadCb, linesLevel_exchangeBody, linesLevel_readBody, hp]

/-- Every operation keeps the framing, from deasserted to deasserted (R15). -/
theorem linesOf_level (P : Params) (i : Instr) : linesLevel false (linesOf P i) = some false := by
  cases i <;> simp only [linesOf]
  case getFirmwareVersion => exact linesLevel_request _ _ _ _ _ rfl
  case configureSam => exact linesLevel_request _ _ _ _ _ rfl
  case setPassiveActivationRetries => exact linesLevel_request _ _ _ _ _ rfl
  case readPassiveTargetId => exact linesLevel_request _ _ _ _ _ rfl
  all_goals simp [initLines, csumLcsLines, csumDcsLines, csumVerifyLines, writeCommandLines, waitReadyLines, waitBody,
    readAckLines, ackMatchLines, readDataLines, exchangeLines, parseFwverLines, parseSamLines, parseTargetLines,
    linesLevel_append, linesLevel, lineLevel, linesLevel_writeBody, linesLevel_readBody, linesLevel_readAckBody,
    linesLevel_exchangeBody]

/-! ### The last lines -/

theorem split_last (ls : List Line) (hne : ls ≠ []) (h : ∀ l ∈ ls, touchesResult l = false) :
    ∃ pre body, ls ++ [.finish] = pre ++ [body, .finish] ∧ ∀ l ∈ pre, touchesResult l = false :=
  ⟨ls.dropLast, ls.getLast hne, by
    rw [List.append_cons ls.dropLast, List.dropLast_append_getLast hne], fun l hl => h l (List.mem_of_mem_dropLast hl)⟩

theorem results_writeBody (P : Params) (n : Nat) : ∀ l ∈ writeBody P n, touchesResult l = false := by
  rw [forall_writeBody]
  simp [touchesResult, touchesRes8, touchesFwver, touchesUid]

theorem results_readBody (P : Params) (n : Nat) : ∀ l ∈ readBody P n, touchesResult l = false := by
  rw [forall_readBody]
  simp [touchesResult, touchesRes8, touchesFwver, touchesUid]

theorem results_readAckBody (P : Params) (x : Bool) : ∀ l ∈ readAckBody P x, touchesResult l = false := by
  rw [forall_readAckBody]
  simp [touchesResult, touchesRes8, touchesFwver, touchesUid]

theorem results_exchangeBody (P : Params) (n : Nat) (b : Budget) :
    ∀ l ∈ exchangeBody P n b, touchesResult l = false := by
  rw [forall_exchangeBody]
  exact ⟨rfl, rfl, results_writeBody P n, rfl, rfl, rfl, rfl, results_readAckBody P true, rfl, rfl, rfl⟩

theorem results_requestHead (P : Params) (d : List Byte) (b : Budget) :
    ∀ l ∈ [.requireBound] ++ loadCbLines 0 d ++ exchangeBody P d.length b, touchesResult l = false := by
  rw [List.forall_mem_append, List.forall_mem_append]
  exact ⟨⟨by simp [touchesResult, touchesRes8, touchesFwver, touchesUid],
    forall_loadCbLines _ _ _ fun _ _ _ _ => rfl⟩, results_exchangeBody P d.length b⟩

theorem requestLines_reads (P : Params) (d : List Byte) (b : Budget) (n : Nat) (body : Line) (hn : n ≠ 0) :
    requestLines P d b n [body] =
      ([.requireBound] ++ loadCbLines 0 d ++ exchangeBody P d.length b ++ readBody P n) ++ [body, .finish] := by
  simp [requestLines, responseLines, hn]

theorem results_reads (P : Params) (d : List Byte) (b : Budget) (n : Nat) :
    ∀ l ∈ [.requireBound] ++ loadCbLines 0 d ++ exchangeBody P d.length b ++ readBody P n,
      touchesResult l = false := by
  rw [List.forall_mem_append]
  exact ⟨results_requestHead P d b, results_readBody P n⟩

/-- In every operation the only line that writes a result, if there is one, is the last before `return Ok`. -/
theorem linesOf_results (P : Params) (i : Instr) :
    ∃ pre body, linesOf P i = pre ++ [body, .finish] ∧ ∀ l ∈ pre, touchesResult l = false := by
  have h0 : ∀ l ∈ [Line.requireBound, .requireCbCount, .requireRbCount], touchesResult l = false := by decide
  cases i with
  | init => exact ⟨[], .bind, rfl, by simp⟩
  | getFirmwareVersion => exact ⟨_, _, requestLines_reads P _ _ _ _ (by decide), results_reads P _ _ _⟩
  | configureSam => exact ⟨_, _, requestLines_reads P _ _ _ _ (by decide), results_reads P _ _ _⟩
  | readPassiveTargetId => exact ⟨_, _, requestLines_reads P _ _ _ _ (by decide), results_reads P _ _ _⟩
  | setPassiveActivationRetries arg =>
    obtain ⟨pre, body, h⟩ := split_last _ (by simp) (results_requestHead P (retriesData P (argByte arg))
      (.fixed P.defaultTimeoutMs))
    exact ⟨pre, body, by rw [← h.1]; simp [linesOf, setRetriesLines, requestLines, responseLines], h.2⟩
  | csumLcs => exact ⟨[], .csumLcs, rfl, by simp⟩
  | csumDcs => exact ⟨[.requireCbCount], .csumDcs P.dirH2C, rfl, by decide⟩
  | csumVerify => exact ⟨[], .csumVerify, rfl, by simp⟩
  | ackMatch => exact ⟨[], .ackMatch, rfl, by simp⟩
  | parseFwver => exact ⟨[], .parseFwver _, rfl, by simp⟩
  | parseSam => exact ⟨[], .parseSam _, rfl, by simp⟩
  | parseTarget => exact ⟨[], .parseTarget, rfl, by simp⟩
  | waitReady => exact ⟨[.requireBound, .startWait], .poll .tmor false, rfl, by decide⟩
  | writeCommand arg =>
    refine split_last ([.requireBound, .requireCbCount, .requireCb (countOf arg)] ++ writeBody P (countOf arg))
      (by simp) ?_
    rw [List.forall_mem_append]
    exact ⟨by simp [touchesResult, touchesRes8, touchesFwver, touchesUid], results_writeBody P _⟩
  | readAck =>
    refine split_last ([.requireBound] ++ readAckBody P false) (by simp) ?_
    rw [List.forall_mem_append]
    exact ⟨by decide, results_readAckBody P false⟩
  | readData arg =>
    refine split_last ([.requireBound, .requireRbCount] ++ readBody P (countOf arg)) (by simp) ?_
    rw [List.forall_mem_append]
    exact ⟨by decide, results_readBody P _⟩
  | exchange arg =>
    refine split_last ([.requireBound, .requireCbCount] ++ exchangeBody P (countOf arg) .tmor) (by simp) ?_
    rw [List.forall_mem_append]
    exact ⟨by decide, results_exchangeBody P _ _⟩

/-- Every operation's last line is `return Ok`. -/
theorem linesOf_last (P : Params) (i : Instr) : (linesOf P i).getLast? = some .finish := by
  obtain ⟨pre, body, h, -⟩ := linesOf_results P i
  rw [h]
  simp

theorem linesOf_bracketed (P : Params) (i : Instr) : Bracketed false (linesOf P i) :=
  ⟨linesOf_level P i, .finish, linesOf_last P i, rfl⟩

/-! ### Indexes -/

theorem inRange_writeBody (P : Params) (n : Nat) (h : n ≤ 64) : ∀ l ∈ writeBody P n, lineInRange l := by
  rw [forall_writeBody]
  simp only [lineInRange, true_and, and_true, Config.cbCap]
  omega

theorem inRange_readBody (P : Params) (n : Nat) (h : n ≤ 64) : ∀ l ∈ readBody P n, lineInRange l := by
  rw [forall_readBody]
  simp only [lineInRange, true_and, and_true, Config.rbCap]
  omega

theorem inRange_readAckBody (P : Params) (x : Bool) : ∀ l ∈ readAckBody P x, lineInRange l := by
  rw [forall_readAckBody]
  simp [lineInRange, Config.nAck]

theorem inRange_exchangeBody (P : Params) (n : Nat) (b : Budget) (h : n ≤ 64) :
    ∀ l ∈ exchangeBody P n b, lineInRange l := by
  rw [forall_exchangeBody]
  refine ⟨trivial, trivial, inRange_writeBody P n h, trivial, trivial, trivial, trivial, inRange_readAckBody P true,
    trivial, trivial, trivial⟩

theorem linesInRange_of_forall {argr : Byte} {ls : List Line} (h : ∀ l ∈ ls, lineInRange l) : LinesInRange argr ls := by
  induction ls with
  | nil => trivial
  | cons l ls ih => exact ⟨h l (by simp), fun _ => ih fun m hm => h m (by simp [hm])⟩

theorem inRange_request (P : Params) (d : List Byte) (b : Budget) (n : Nat) (parse : List Line) (hd : d.length ≤ 64)
    (hn : n ≤ 64) (hp : ∀ l ∈ parse, lineInRange l) : ∀ l ∈ requestLines P d b n parse, lineInRange l := by
  have hr : ∀ l ∈ responseLines P n parse, lineInRange l := by
    unfold responseLines
    split
    · simp
    · rw [List.forall_mem_append]
      exact ⟨inRange_readBody P n hn, hp⟩
  unfold requestLines
  simp only [List.forall_mem_append]
  refine ⟨⟨⟨⟨by simp [lineInRange], forall_loadCbLines _ _ _ fun j b h1 h2 => ?_⟩, inRange_exchangeBody P _ b hd⟩, hr⟩,
    by simp [lineInRange]⟩
  simp only [lineInRange, Config.cbCap]
  omega

/-- In every operation the indexes of the lines its count check lets through are inside the buffers (R16, R45). -/
theorem linesOf_inRange (P : Params) (i : Instr) : LinesInRange (argByte i.arg) (linesOf P i) := by
  cases i with
  | getFirmwareVersion =>
    exact linesInRange_of_forall (inRange_request _ _ _ _ _ (by simp [getFwData]) (by decide) (by simp [lineInRange]))
  | configureSam =>
    exact linesInRange_of_forall
      (inRange_request _ _ _ _ _ (by simp [samData]) (by decide) (by simp [lineInRange]))
  | readPassiveTargetId =>
    exact linesInRange_of_forall
      (inRange_request _ _ _ _ _ (by simp [inlistData]; omega) (by decide) (by simp [lineInRange]))
  | setPassiveActivationRetries =>
    exact linesInRange_of_forall (inRange_request _ _ _ _ _ (by simp [retriesData]; omega) (by decide) (by simp))
  | writeCommand arg =>
    refine ⟨trivial, fun _ => ⟨trivial, fun h => ⟨trivial, fun _ => linesInRange_of_forall ?_⟩⟩⟩
    refine List.forall_mem_append.2 ?_
    exact ⟨inRange_writeBody P _ ((cbCountOk_iff _).1 h).2, by simp [lineInRange]⟩
  | exchange arg =>
    refine ⟨trivial, fun _ => ⟨trivial, fun h => linesInRange_of_forall ?_⟩⟩
    refine List.forall_mem_append.2 ?_
    exact ⟨inRange_exchangeBody P _ _ ((cbCountOk_iff _).1 h).2, by simp [lineInRange]⟩
  | readData arg =>
    refine ⟨trivial, fun _ => ⟨trivial, fun h => linesInRange_of_forall ?_⟩⟩
    refine List.forall_mem_append.2 ?_
    exact ⟨inRange_readBody P _ ((rbCountOk_iff _).1 h), by simp [lineInRange]⟩
  | readAck =>
    refine linesInRange_of_forall ?_
    simp only [linesOf, readAckLines, List.forall_mem_append]
    exact ⟨⟨by simp [lineInRange], inRange_readAckBody P false⟩, by simp [lineInRange]⟩
  | _ => simp [linesOf, LinesInRange, lineInRange, initLines, csumLcsLines, csumDcsLines, csumVerifyLines, waitReadyLines,
      waitBody, ackMatchLines, parseFwverLines, parseSamLines, parseTargetLines]

/-! ### Loops -/

/-- Lines that follow `IDX` from any value go before lines that do, too. -/
theorem indexFollows_append {j : Nat} {a b : List Line} (ha : IndexFollows j a) (hb : ∀ j, IndexFollows j b) :
    IndexFollows j (a ++ b) := by
  induction a generalizing j with
  | nil => exact hb j
  | cons l ls ih =>
    simp only [List.cons_append, IndexFollows] at ha ⊢
    split at ha
    · exact ⟨ha.1, ih ha.2⟩
    · split at ha
      · rw [if_pos ‹_›]
        exact ih ha
      · rw [if_neg ‹_›]
        exact fun k => ih (ha k)

/-- Lines outside the loops follow any value of `IDX`. -/
theorem indexFollows_of_forall {ls : List Line} (h : ∀ l ∈ ls, lineIndex l = none) (j : Nat) : IndexFollows j ls := by
  induction ls generalizing j with
  | nil => trivial
  | cons l ls ih =>
    have ih' := fun k => ih (fun m hm => h m (by simp [hm])) k
    simp only [IndexFollows, h l (by simp)]
    split
    · exact ih' 0
    · exact ih'

/-- A loop's lines follow `IDX` from its first index up. -/
theorem indexFollows_loop (f : Nat → Line) (hf : ∀ i, lineIndex (f i) = some i) (k n : Nat) :
    IndexFollows k ((List.range' k n).map f) := by
  induction n generalizing k with
  | zero => trivial
  | succ n ih => simpa [List.range'_succ, IndexFollows, hf] using ih (k + 1)

/-- Lines outside the loops, the entry of a loop among them, then a loop from 0, then the rest. -/
theorem indexFollows_enter (f : Nat → Line) (hf : ∀ i, lineIndex (f i) = some i) (n : Nat) {pre post : List Line}
    (hpre : ∀ l ∈ pre, lineIndex l = none) (hpost : ∀ j, IndexFollows j post) (j : Nat) :
    IndexFollows j (pre ++ (.enterLoop :: (List.range n).map f ++ post)) := by
  refine indexFollows_append (indexFollows_of_forall hpre j) fun k => ?_
  simp only [List.cons_append, IndexFollows, lineIndex, reduceIte]
  rw [List.range_eq_range']
  exact indexFollows_append (indexFollows_loop f hf 0 n) hpost

theorem indexFollows_writeBody (P : Params) (n j : Nat) : IndexFollows j (writeBody P n) := by
  have h := indexFollows_enter .sendCb (fun _ => rfl) n
    (pre := [.loadLen (lengthByte n), .select true, .settle, .send P.markDW, .send P.preamble, .send P.start1,
      .send P.start2, .sendLen, .sendLcs, .send P.dirH2C, .startAcc P.dirH2C])
    (post := [.sendDcs, .send P.postamble, .select false]) (by simp [lineIndex])
    (indexFollows_of_forall (by simp [lineIndex])) j
  simpa [writeBody] using h

theorem indexFollows_readBody (P : Params) (n j : Nat) : IndexFollows j (readBody P n) := by
  have h := indexFollows_enter .recvRb (fun _ => rfl) n
    (pre := [.loadLen (BitVec.ofNat 8 n), .select true, .settle, .send P.markDR])
    (post := [.select false]) (by simp [lineIndex]) (indexFollows_of_forall (by simp [lineIndex])) j
  simpa [readBody] using h

theorem indexFollows_readAckBody (P : Params) (x : Bool) (j : Nat) : IndexFollows j (readAckBody P x) := by
  have h := indexFollows_enter .recvAck (fun _ => rfl) Config.nAck (pre := [.select true, .settle, .send P.markDR])
    (post := [.select false, .checkAck x]) (by simp [lineIndex]) (indexFollows_of_forall (by simp [lineIndex])) j
  simpa [readAckBody] using h

theorem indexFollows_exchangeBody (P : Params) (n : Nat) (b : Budget) (j : Nat) :
    IndexFollows j (exchangeBody P n b) := by
  have hp : ∀ ls : List Line, (∀ l ∈ ls, lineIndex l = none) → ∀ k, IndexFollows k ls :=
    fun ls h => indexFollows_of_forall h
  unfold exchangeBody waitBody
  simp only [List.append_assoc]
  refine indexFollows_append (hp _ (by simp [lineIndex]) j) fun k => ?_
  refine indexFollows_append (indexFollows_writeBody P n k) fun k => ?_
  refine indexFollows_append (hp _ (by simp [lineIndex]) k) fun k => ?_
  refine indexFollows_append (hp _ (by simp [lineIndex]) k) fun k => ?_
  exact indexFollows_append (indexFollows_readAckBody P true k) (hp _ (by simp [lineIndex]))

theorem indexFollows_request (P : Params) (d : List Byte) (b : Budget) (n : Nat) (parse : List Line)
    (hp : ∀ l ∈ parse, lineIndex l = none) (j : Nat) : IndexFollows j (requestLines P d b n parse) := by
  have hr : ∀ k, IndexFollows k (responseLines P n parse ++ [.finish]) := by
    intro k
    refine indexFollows_append ?_ (indexFollows_of_forall (by simp [lineIndex]))
    unfold responseLines
    split
    · trivial
    · exact indexFollows_append (indexFollows_readBody P n k) (indexFollows_of_forall hp)
  have hl : ∀ l ∈ [Line.requireBound] ++ loadCbLines 0 d, lineIndex l = none :=
    List.forall_mem_append.2 ⟨by simp [lineIndex], forall_loadCbLines _ _ _ fun _ _ _ _ => rfl⟩
  unfold requestLines
  rw [List.append_assoc, List.append_assoc]
  exact indexFollows_append (indexFollows_of_forall hl j) fun k =>
    indexFollows_append (indexFollows_exchangeBody P _ b k) hr

/-- In every operation each loop is entered at 0 and goes over its bytes one after the other (R16). -/
theorem linesOf_indexFollows (P : Params) (i : Instr) (j : Nat) : IndexFollows j (linesOf P i) := by
  have hf : ∀ k, IndexFollows k [.finish] := indexFollows_of_forall (by simp [lineIndex])
  cases i with
  | getFirmwareVersion => exact indexFollows_request _ _ _ _ _ (by simp [lineIndex]) j
  | configureSam => exact indexFollows_request _ _ _ _ _ (by simp [lineIndex]) j
  | readPassiveTargetId => exact indexFollows_request _ _ _ _ _ (by simp [lineIndex]) j
  | setPassiveActivationRetries => exact indexFollows_request _ _ _ _ _ (by simp) j
  | writeCommand arg =>
    have h := indexFollows_append (indexFollows_of_forall (ls := [.requireBound, .requireCbCount, .requireCb (countOf arg)])
      (by simp [lineIndex]) j) fun k => indexFollows_append (indexFollows_writeBody P (countOf arg) k) hf
    simpa [linesOf, writeCommandLines] using h
  | exchange arg =>
    have h := indexFollows_append (indexFollows_of_forall (ls := [.requireBound, .requireCbCount])
      (by simp [lineIndex]) j) fun k => indexFollows_append (indexFollows_exchangeBody P (countOf arg) .tmor k) hf
    simpa [linesOf, exchangeLines] using h
  | readData arg =>
    have h := indexFollows_append (indexFollows_of_forall (ls := [.requireBound, .requireRbCount])
      (by simp [lineIndex]) j) fun k => indexFollows_append (indexFollows_readBody P (countOf arg) k) hf
    simpa [linesOf, readDataLines] using h
  | readAck =>
    have h := indexFollows_append (indexFollows_of_forall (ls := [.requireBound]) (by simp [lineIndex]) j) fun k =>
      indexFollows_append (indexFollows_readAckBody P false k) hf
    simpa [linesOf, readAckLines] using h
  | _ => exact indexFollows_of_forall (by simp [linesOf, lineIndex, initLines, csumLcsLines, csumDcsLines,
      csumVerifyLines, waitReadyLines, waitBody, ackMatchLines, parseFwverLines, parseSamLines, parseTargetLines]) j

/-! ### Operations -/

/-- An operation that answers a next state has changed nothing (the engine was busy), or is the run of its lines. -/
theorem exec_runs {i : Instr} {s t : State} (h : exec i s = .next t) :
    t = s ∨ runLines (linesOf Config.params i) (beginOp i (linesOf Config.params i) s) = .next t := by
  rw [exec_eq_perform, perform] at h
  split at h
  · exact .inl (Host.Outcome.next.inj h).symm
  · exact .inr h

/-- A field that acceptance and every line of an operation keep is as it was after the operation. -/
theorem exec_keeps {α : Type} (f : State → α) (hp : ∀ u p, f { u with phase := p } = f u) {i : Instr} {s t : State}
    (ha : ∀ ls, f (beginOp i ls s) = f s) (hl : ∀ l, Fits i l → ∀ u v, LineEffects l u v → f v = f u)
    (h : exec i s = .next t) : f t = f s := by
  rcases exec_runs h with rfl | h
  · rfl
  · exact (runLines_keeps f hp (fun l hm => hl l (linesOf_fit _ _ l hm)) h).trans (ha _)

end Sys2Proof.Machine
end

