-- ==== Sys2Proof/Laws/Buffers.lean ====
section
/-! SUPPORT. What every line keeps of the buffers: the canonical form, the capacities, `UIDLEN` and `IDX` inside their
ranges (spec/10_state.md R16, R23, R24, spec/20_memory.md R40 to R42). -/

namespace Sys2Proof.Machine

/-- The part of the invariant about buffers and indexes. -/
structure Buffers (s : State) : Prop where
  cbWf : Memory.wf s.cb
  rbWf : Memory.wf s.rb
  ackbufWf : Memory.wf s.ackbuf
  uidWf : Memory.wf s.uid
  cbBelow : Memory.below Config.cbCap s.cb
  rbBelow : Memory.below Config.rbCap s.rb
  ackbufBelow : Memory.below Config.nAck s.ackbuf
  uidBelow : Memory.below Config.uidMax s.uid
  uidlenSmall : ∀ v, s.uidlen = some v → v.toNat ≤ Config.uidMax
  idxSmall : s.idx.toNat ≤ 64

theorem idx_le {n : Nat} (h : n ≤ 64) : (BitVec.ofNat 7 n).toNat ≤ 64 := by
  simp only [BitVec.toNat_ofNat]
  omega

theorem read_lt {m : Memory} {cap i : Nat} {b : Byte} (h : Memory.below cap m) (hr : Memory.read m i = some b) :
    i < cap := by
  by_contra hh
  rw [read_below cap m h i (by omega)] at hr
  cases hr

theorem readRange_le {m : Memory} {cap n i : Nat} {bs : List Byte} (h : Memory.below cap m)
    (hr : Memory.readRange m i n = .bytes bs) (hi : i ≤ cap) : i + bs.length ≤ cap := by
  obtain ⟨h1, h2⟩ := (readRange_eq_bytes m i n bs).1 hr
  by_contra hh
  have := h2 (n - 1) (by omega)
  rw [read_below cap m h _ (by omega), List.getElem?_eq_getElem (by omega)] at this
  cases this

/-- Every line whose index is inside its buffer keeps the buffers sound. -/
theorem runLine_buffers (l : Line) (s t : State) (c : Buffers s) (hr : lineInRange l)
    (h : verdictState (runLine l s) = some t) : Buffers t := by
  obtain ⟨c1, c2, c3, c4, c5, c6, c7, c8, c9, c10⟩ := c
  cases l <;> simp only [runLine, lineRequireBound, lineRequireCbCount, lineRequireRbCount, lineRequireCb, lineSendCb,
    linePoll, lineRecvAck, lineRecvRb, lineCheckAck, lineBind, lineCsumLcs, lineCsumDcs, lineCsumVerify, lineAckMatch,
    lineParseFwver, lineParseSam, lineParseTarget, extractUid] at h
  all_goals repeat' split at h
  all_goals simp only [verdictState, Option.some.injEq, reduceCtorEq] at h
  all_goals subst h
  all_goals try exact ⟨c1, c2, c3, c4, c5, c6, c7, c8, c9, c10⟩
  all_goals try exact ⟨c1, c2, c3, c4, c5, c6, c7, c8, c9, idx_le (n := 0) (by decide)⟩
  all_goals try exact ⟨c1, c2, c3, c4, c5, c6, c7, c8, c9, idx_le (n := 6) (by decide)⟩
  · next h =>
    obtain ⟨h1, _⟩ := (readRange_eq_bytes _ _ _ _).1 h
    have hl := readRange_le c5 h (by decide)
    unfold Config.cbCap at hl
    exact ⟨c1, c2, c3, c4, c5, c6, c7, c8, c9, idx_le (by omega)⟩
  · exact ⟨wf_write _ _ _ c1, c2, c3, c4, below_write _ _ _ _ hr c5, c6, c7, c8, c9, c10⟩
  · next h =>
    have hl := read_lt c5 h
    unfold Config.cbCap at hl
    exact ⟨c1, c2, c3, c4, c5, c6, c7, c8, c9, idx_le (by omega)⟩
  · next x _ _ => cases x <;> exact ⟨c1, c2, c3, c4, c5, c6, c7, c8, c9, c10⟩
  · have hl : _ < 6 := hr
    exact ⟨c1, c2, wf_write _ _ _ c3, c4, c5, c6, below_write _ _ _ _ hr c7, c8, c9, idx_le (by omega)⟩
  · next x _ _ _ _ => cases x <;> exact ⟨c1, c2, c3, c4, c5, c6, c7, c8, c9, idx_le (n := 6) (by decide)⟩
  · have hl : _ < 64 := hr
    exact ⟨c1, wf_write _ _ _ c2, c3, c4, c5, below_write _ _ _ _ hr c6, c7, c8, c9, idx_le (by omega)⟩
  · next h =>
    have hl := readRange_le c5 h (by decide)
    unfold Config.cbCap at hl
    exact ⟨c1, c2, c3, c4, c5, c6, c7, c8, c9, idx_le (by omega)⟩
  · next hv _ _ _ _ _ _ _ _ _ =>
    have hl := (verifyLengthOk_iff _ _).1 (by simpa using hv)
    exact ⟨c1, c2, c3, c4, c5, c6, c7, c8, c9, idx_le (by omega)⟩
  · next len _ hl _ bs h =>
    have hl : len.toNat ≤ 7 := by
      unfold Config.uidMax at hl
      omega
    obtain ⟨h1, h2⟩ := (readRange_eq_bytes _ _ _ _).1 h
    refine ⟨c1, c2, c3, wf_writeRange _ _ _ c4, c5, c6, c7, below_writeRange _ _ _ _ (by unfold Config.uidMax; omega) c8,
      fun v hv => ?_, idx_le (by omega)⟩
    obtain rfl := Option.some.inj hv
    exact hl

/-- A line that hands on leaves `IDX` where the lines after it expect it: a loop's line adds 1, the entry of a loop sets it
to 0 (R16). -/
theorem runLine_indexFollows {l : Line} {ls : List Line} {s t : State} (c : Buffers s) (r : lineInRange l)
    (ix : IndexFollows s.idx.toNat (l :: ls)) (h : runLine l s = .go t) : IndexFollows t.idx.toNat ls := by
  have hn : ∀ i, i < 64 → ∀ u : State, u.idx = BitVec.ofNat 7 (i + 1) → IndexFollows (i + 1) ls →
      IndexFollows u.idx.toNat ls := by
    intro i hi u hu h
    have e : u.idx.toNat = i + 1 := by
      rw [hu, BitVec.toNat_ofNat]
      omega
    rwa [e]
  cases l with
  | sendCb i =>
    simp only [runLine, lineSendCb] at h
    split at h
    · cases h
    · next b hb =>
      obtain rfl := Verdict.go.inj h
      exact hn i (read_lt c.cbBelow hb) _ rfl ix.2
  | recvAck i =>
    obtain rfl := Verdict.go.inj h
    exact hn i (Nat.lt_trans r (by decide)) _ rfl ix.2
  | recvRb i =>
    obtain rfl := Verdict.go.inj h
    exact hn i r _ rfl ix.2
  | enterLoop =>
    obtain rfl := Verdict.go.inj h
    exact ix
  | _ => exact ix _

end Sys2Proof.Machine
end

