-- ==== Sys2Proof/Laws/Waits.lean ====
section
/-! SUPPORT. Steps of a machine whose host has no move, and the rounds of a ready-wait (spec/43_handshake.md R107,
R109): what one step of a wait can do, what `k` open rounds leave, and how runs of steps join. -/

namespace Sys2Proof.Machine

/-! ### Runs of steps -/

theorem runSteps_succ {s t : State} (k : Nat) (h : step s = .next t) : runSteps (k + 1) s = runSteps k t := by
  simp [runSteps, h]

/-- Runs of steps join. -/
theorem runSteps_add {s t : State} (m n : Nat) (h : runSteps m s = .next t) : runSteps (m + n) s = runSteps n t := by
  induction m generalizing s with
  | zero =>
    obtain rfl := Host.Outcome.next.inj h
    rw [Nat.zero_add]
  | succ m ih =>
    rw [Nat.add_right_comm]
    simp only [runSteps] at h ⊢
    cases hs : step s with
    | next u =>
      rw [hs] at h
      exact ih h
    | fault f => simp [hs] at h
    | refused r => simp [hs] at h

/-- The last step of a run. -/
theorem runSteps_last {s t : State} (k : Nat) (h : runSteps k s = .next t) : runSteps (k + 1) s = step t := by
  rw [runSteps_add k 1 h, runSteps]
  cases step t <;> rfl

/-- The premise that the clock moves on passes on to every state of the run. -/
theorem TickLive.after {s t : State} {k : Nat} (hl : TickLive s) (h : runSteps k s = .next t) : TickLive t :=
  fun n u b x ls hu => hl (k + n) u b x ls ((runSteps_add k n h).trans hu)

/-- An idle engine whose host has no move stays as it is. -/
theorem runSteps_idle {s : State} (hh : s.host = []) (hb : s.busy = false) (k : Nat) : runSteps k s = .next s := by
  induction k with
  | zero => rfl
  | succ k ih =>
    rw [runSteps_succ k (t := s) (by simp [step, hh, noMove, hb])]
    exact ih

/-- With no move of the host a step of a busy engine runs on. -/
theorem step_resumes {s : State} (hh : s.host = []) (hb : s.busy = true) : step s = runLines s.phase s := by
  simp [step, hh, noMove, hb, resume]

/-! ### Rounds -/

@[simp] theorem afterRounds_host (n : Nat) (s : State) : (afterRounds n s).host = s.host := rfl
@[simp] theorem afterRounds_busy (n : Nat) (s : State) : (afterRounds n s).busy = s.busy := rfl
@[simp] theorem afterRounds_phase (n : Nat) (s : State) : (afterRounds n s).phase = s.phase := rfl
@[simp] theorem afterRounds_t0 (n : Nat) (s : State) : (afterRounds n s).t0 = s.t0 := rfl
@[simp] theorem afterRounds_tmor (n : Nat) (s : State) : (afterRounds n s).tmor = s.tmor := rfl

theorem afterRounds_zero (s : State) : afterRounds 0 s = s := by simp [afterRounds, roundEvents, Answers.skip]

theorem readyNow_afterRounds (n : Nat) (s : State) : readyNow (afterRounds n s) = readyAt n s := rfl
theorem tickNow_afterRounds (n : Nat) (s : State) : tickNow (afterRounds n s) = tickAt n s := rfl

/-- Rounds depend on the answers to come alone. -/
theorem roundEvents_congr {s t : State} (hr : s.readyIn = t.readyIn) (ht : s.tickIn = t.tickIn) (n : Nat) :
    roundEvents n s = roundEvents n t := by
  induction n with
  | zero => rfl
  | succ n ih => rw [roundEvents, roundEvents, ih, readyAt, readyAt, tickAt, tickAt, hr, ht]

theorem afterRounds_trace_congr {s t : State} (hr : s.readyIn = t.readyIn) (ht : s.tickIn = t.tickIn)
    (h : s.trace = t.trace) (n : Nat) : (afterRounds n s).trace = (afterRounds n t).trace := by
  rw [afterRounds, afterRounds, h, roundEvents_congr hr ht]

/-- One more round that finds the chip not ready. -/
theorem afterRounds_succ {n : Nat} {s : State} (h : readyAt n s = false) :
    afterTick (afterReady (afterRounds n s)) = afterRounds (n + 1) s := by
  have hr : readyNow (afterRounds n s) = false := h
  have ht : tickNow (afterReady (afterRounds n s)) = tickAt n s := rfl
  rw [afterTick, ht, afterReady, hr]
  simp [emit, afterRounds, roundEvents, h, skip_succ_last]

/-- What a step of a wait can do after `n` open rounds: the chip is ready and the rest runs; or the budget is exceeded;
or one more round leaves the wait open. -/
theorem step_afterRounds {s : State} {b : Budget} {x : Bool} {ls : List Line} (n : Nat) (hh : s.host = [])
    (hb : s.busy = true) (hp : s.phase = .poll b x :: ls) :
    (readyAt n s = true ∧ step (afterRounds n s) = runLines ls (afterReady (afterRounds n s))) ∨
    (readyAt n s = false ∧ budgetOf b s.tmor < elapsed s.t0 (tickAt n s) ∧
      step (afterRounds n s) = .next (raiseInHandshake x .transportTimeout (afterRounds (n + 1) s))) ∨
    (readyAt n s = false ∧ ¬ budgetOf b s.tmor < elapsed s.t0 (tickAt n s) ∧
      step (afterRounds n s) = .next (afterRounds (n + 1) s)) := by
  have hs : step (afterRounds n s) = runLines (.poll b x :: ls) (afterRounds n s) :=
    (step_resumes (s := afterRounds n s) hh hb).trans (by rw [afterRounds_phase, hp])
  rw [hs, runLines_cons]
  rcases poll_cases b x (afterRounds n s) with ⟨h1, h2⟩ | ⟨h1, h2, h3⟩ | ⟨h1, h2, h3⟩
  · exact .inl ⟨h1, by rw [h2]⟩
  · exact .inr (.inl ⟨h1, h2, by rw [h3, afterRounds_succ h1]⟩)
  · refine .inr (.inr ⟨h1, h2, ?_⟩)
    rw [h3, afterRounds_succ h1, ← hp]
    rfl

/-- `k` rounds that find the chip not ready within the budget leave the wait open. -/
theorem runSteps_rounds {s : State} {b : Budget} {x : Bool} {ls : List Line} (k : Nat) (hh : s.host = [])
    (hb : s.busy = true) (hp : s.phase = .poll b x :: ls)
    (h : ∀ j, j < k → readyAt j s = false ∧ ¬ budgetOf b s.tmor < elapsed s.t0 (tickAt j s)) :
    runSteps k s = .next (afterRounds k s) := by
  induction k with
  | zero => rw [afterRounds_zero]; rfl
  | succ k ih =>
    rw [runSteps_last k (ih fun j hj => h j (by omega))]
    obtain ⟨h1, h2⟩ := h k (by omega)
    rcases step_afterRounds k hh hb hp with ⟨g1, -⟩ | ⟨-, g2, -⟩ | ⟨-, -, g3⟩
    · rw [h1] at g1
      cases g1
    · exact absurd g2 h2
    · exact g3

end Sys2Proof.Machine
end

