-- ==== Sys2Proof/Laws/Courses.lean ====
section
/-! SUPPORT. The whole course of an operation whose waits take several rounds (spec/43_handshake.md R107, R109, R113):
an operation with the steps after it as its lines with the steps after them, the three ways a wait can go on, what every
state on the way satisfies, and that lines without events do not see the environment. -/

namespace Sys2Proof.Machine

/-! ### Lines and the steps after them -/

/-- Lines run from `s`, and `k` steps of the machine after them. -/
def runFor (k : Nat) (ls : List Line) (s : State) : Host.Outcome State Fault Refusal :=
  match runLines ls s with
  | .next t => runSteps k t
  | .fault f => .fault f
  | .refused r => .refused r

theorem runFor_zero (ls : List Line) (s : State) : runFor 0 ls s = runLines ls s := by
  unfold runFor
  cases runLines ls s <;> rfl

theorem runOp_zero (i : Instr) (s : State) : runOp 0 i s = exec i s := by
  unfold runOp
  cases exec i s <;> rfl

/-- The steps of an operation at an idle engine are those of its lines. -/
theorem runOp_idle {i : Instr} {s : State} (k : Nat) (h : s.busy = false) :
    runOp k i s = runFor k (linesOf Config.params i) (beginOp i (linesOf Config.params i) s) := by
  rw [runOp, exec_idle i s h]
  rfl

theorem runFor_through {ls : List Line} {s t : State} (k : Nat) (rest : List Line) (h : Through ls s t) :
    runFor k (ls ++ rest) s = runFor k rest t := by rw [runFor, h, runFor]

/-- An operation that has ended stays so. -/
theorem runFor_done {ls : List Line} {s t : State} {k : Nat} (h : runLines ls s = .next t) (hb : t.busy = false)
    (hk : k = 0 ∨ t.host = []) : runFor k ls s = .next t := by
  rw [runFor, h]
  rcases hk with rfl | hk
  · rfl
  · exact runSteps_idle hk hb k

/-- A step of a busy engine, and those after it. -/
theorem runSteps_busy {s : State} (k : Nat) (hh : s.host = []) (hb : s.busy = true) :
    runSteps (k + 1) s = runFor k s.phase s := by
  rw [runSteps, step_resumes hh hb]
  rfl

/-- A run's last step comes after the others. -/
theorem runSteps_last_step (k : Nat) (s : State) :
    runSteps (k + 1) s = match runSteps k s with
      | .next t => step t
      | .fault f => .fault f
      | .refused r => .refused r := by
  induction k generalizing s with
  | zero =>
    simp only [runSteps]
    cases step s <;> rfl
  | succ k ih =>
    rw [runSteps, runSteps]
    cases step s with
    | next t => exact ih t
    | fault f => rfl
    | refused r => rfl

theorem runSteps_succ_last {s t : State} (k : Nat) (h : runSteps (k + 1) s = .next t) :
    ∃ u, runSteps k s = .next u ∧ step u = .next t := by
  rw [runSteps_last_step] at h
  split at h
  · next u hu => exact ⟨u, hu, h⟩
  · cases h
  · cases h

/-! ### The rounds of a wait -/

/-- The state in which the poll loop of a wait begins (R107). -/
def beginWait (s : State) : State := { afterTick s with t0 := tickNow s }

/-- Round `n` of a wait finds the chip not ready, within the budget. -/
def LeavesOpen (b : Budget) (n : Nat) (w : State) : Prop :=
  readyAt n w = false ∧ ¬ budgetOf b w.tmor < elapsed w.t0 (tickAt n w)

/-- Round `n` of a wait finds the chip not ready, and the budget exceeded. -/
def Overruns (b : Budget) (n : Nat) (w : State) : Prop :=
  readyAt n w = false ∧ budgetOf b w.tmor < elapsed w.t0 (tickAt n w)

/-- Open rounds are steps of their own. -/
theorem runFor_rounds {w : State} {b : Budget} {x : Bool} {ls : List Line} (n k : Nat)
    (hw : n = 0 ∨ (w.busy = true ∧ w.host = [])) (h : ∀ j, j < n → LeavesOpen b j w) :
    runFor (n + k) (.poll b x :: ls) w = runFor k (.poll b x :: ls) (afterRounds n w) := by
  induction n generalizing k with
  | zero => rw [afterRounds_zero, Nat.zero_add]
  | succ n ih =>
    obtain ⟨hb, hh⟩ := hw.resolve_left (by omega)
    rw [Nat.add_assoc, ih (1 + k) (.inr ⟨hb, hh⟩) fun j hj => h j (by omega)]
    obtain ⟨h1, h2⟩ := h n (by omega)
    rcases poll_cases b x (afterRounds n w) with ⟨g1, -⟩ | ⟨-, g2, -⟩ | ⟨-, -, g3⟩
    · exact absurd (g1.symm.trans h1) (by decide)
    · exact absurd g2 h2
    · rw [runFor, runLines_cons, g3, afterRounds_succ h1]
      simp only
      have e := runSteps_busy (s := { afterRounds (n + 1) w with phase := .poll b x :: ls }) k hh hb
      rw [Nat.add_comm 1 k, e, runFor, runLines_phase, runFor]

/-- The lines of a wait, as its start and its poll loop. -/
theorem runFor_waitBody (k : Nat) (b : Budget) (x : Bool) (ls : List Line) (s : State) :
    runFor k (waitBody b x ++ ls) s = runFor k (.poll b x :: ls) (beginWait s) := rfl

/-- A wait that finds the chip ready at round `n`, the rounds before it leaving it open. -/
theorem runFor_wait_ready {s : State} {b : Budget} {x : Bool} {ls : List Line} (n k : Nat)
    (hw : n = 0 ∨ (s.busy = true ∧ s.host = [])) (h : ∀ j, j < n → LeavesOpen b j (beginWait s))
    (hr : readyAt n (beginWait s) = true) :
    runFor (n + k) (waitBody b x ++ ls) s = runFor k ls (afterReady (afterRounds n (beginWait s))) := by
  rw [runFor_waitBody, runFor_rounds (w := beginWait s) n k hw h]
  refine runFor_through k ls (ls := [.poll b x]) (through_one ?_)
  exact if_pos (c := readyNow (afterRounds n (beginWait s)) = true) hr

/-- A wait that overruns its budget at round `n`. -/
theorem runFor_wait_over {s : State} {b : Budget} {x : Bool} {ls : List Line} (n k : Nat)
    (hw : n + k = 0 ∨ (s.busy = true ∧ s.host = [])) (h : ∀ j, j < n → LeavesOpen b j (beginWait s))
    (ho : Overruns b n (beginWait s)) :
    runFor (n + k) (waitBody b x ++ ls) s =
      .next (raiseInHandshake x .transportTimeout (afterRounds (n + 1) (beginWait s))) := by
  rw [runFor_waitBody, runFor_rounds (w := beginWait s) n k (hw.imp_left (by omega)) h]
  refine runFor_done ?_ (by simp [raiseInHandshake]) ?_
  · rcases poll_cases b x (afterRounds n (beginWait s)) with ⟨g1, -⟩ | ⟨-, -, g3⟩ | ⟨-, g2, -⟩
    · exact absurd (g1.symm.trans ho.1) (by decide)
    · rw [runLines_cons, g3, afterRounds_succ ho.1]
    · exact absurd ho.2 g2
  · rcases hw with hw | ⟨-, hh⟩
    · exact .inl (by omega)
    · exact .inr (by cases x <;> exact hh)

/-- A wait still open after `k` steps. -/
theorem runFor_wait_open {s : State} {b : Budget} {x : Bool} {ls : List Line} (k : Nat)
    (hw : k = 0 ∨ (s.busy = true ∧ s.host = [])) (h : ∀ j, j ≤ k → LeavesOpen b j (beginWait s)) :
    runFor k (waitBody b x ++ ls) s = .next { afterRounds (k + 1) (beginWait s) with phase := .poll b x :: ls } := by
  have e := runFor_rounds (w := beginWait s) (x := x) (ls := ls) k 0 hw fun j hj => h j (by omega)
  rw [Nat.add_zero] at e
  rw [runFor_waitBody, e, runFor_zero]
  obtain ⟨h1, h2⟩ := h k (Nat.le_refl k)
  rcases poll_cases b x (afterRounds k (beginWait s)) with ⟨g1, -⟩ | ⟨-, g2, -⟩ | ⟨-, -, g3⟩
  · exact absurd (g1.symm.trans h1) (by decide)
  · exact absurd g2 h2
  · rw [runLines_cons, g3, afterRounds_succ h1]

/-- How a wait can stand after `k` steps: it has found the chip ready at some round and the rest has run on, it has
overrun its budget at some round, or it is still open. -/
theorem wait_course (k : Nat) (b : Budget) (w : State) :
    (∃ n, n ≤ k ∧ (∀ j, j < n → LeavesOpen b j w) ∧ readyAt n w = true) ∨
    (∃ n, n ≤ k ∧ (∀ j, j < n → LeavesOpen b j w) ∧ Overruns b n w) ∨
    (∀ j, j ≤ k → LeavesOpen b j w) := by
  have one : ∀ n, readyAt n w = true ∨ Overruns b n w ∨ LeavesOpen b n w := by
    intro n
    cases h : readyAt n w
    · by_cases h2 : budgetOf b w.tmor < elapsed w.t0 (tickAt n w)
      · exact .inr (.inl ⟨h, h2⟩)
      · exact .inr (.inr ⟨h, h2⟩)
    · exact .inl rfl
  induction k with
  | zero =>
    rcases one 0 with h | h | h
    · exact .inl ⟨0, Nat.le_refl 0, fun j hj => absurd hj (Nat.not_lt_zero j), h⟩
    · exact .inr (.inl ⟨0, Nat.le_refl 0, fun j hj => absurd hj (Nat.not_lt_zero j), h⟩)
    · exact .inr (.inr fun j hj => by rwa [Nat.le_zero.1 hj])
  | succ k ih =>
    rcases ih with ⟨n, h1, h2⟩ | ⟨n, h1, h2⟩ | h
    · exact .inl ⟨n, by omega, h2⟩
    · exact .inr (.inl ⟨n, by omega, h2⟩)
    · have before : ∀ j, j < k + 1 → LeavesOpen b j w := fun j hj => h j (by omega)
      rcases one (k + 1) with h1 | h1 | h1
      · exact .inl ⟨k + 1, Nat.le_refl _, before, h1⟩
      · exact .inr (.inl ⟨k + 1, Nat.le_refl _, before, h1⟩)
      · refine .inr (.inr fun j hj => ?_)
        rcases Nat.lt_or_eq_of_le hj with h2 | rfl
        · exact before j h2
        · exact h1

/-! ### Rounds read off the answers -/

theorem take_getElem? {α : Type} (free : Nat → α) (a : Answers α) {n j : Nat} (h : j < n) :
    (Answers.take free n a)[j]? = some (Answers.now free (Answers.skip j a)) := by
  induction n generalizing a j with
  | zero => omega
  | succ n ih =>
    cases j with
    | zero => rfl
    | succ j => exact ih (Answers.next a) (by omega)

/-- What the first part of a list of answers leaves for the second. -/
theorem take_split {α : Type} {free : Nat → α} {a : Answers α} {m n : Nat} {as bs : List α} (ha : as.length = m)
    (h : Answers.take free (m + n) a = as ++ bs) :
    Answers.take free m a = as ∧ Answers.take free n (Answers.skip m a) = bs := by
  rw [take_add] at h
  exact List.append_inj h (by rw [take_length, ha])

/-- The answers of `ready()` and of the clock, as the rounds of a wait see them. -/
theorem rounds_of_answers {s : State} {b : Budget} {B : Nat} {t0 : Word} {ts : List Word}
    (hB : (budgetOf b s.tmor).toNat = B) (hr : readyAnswers ts.length s = List.replicate ts.length false)
    (ht : tickAnswers (ts.length + 1) s = t0 :: ts) (hw : WithinBudget B t0 ts) :
    ∀ j, j < ts.length → LeavesOpen b j (beginWait s) := by
  intro j hj
  have hr' : readyAt j (beginWait s) = false := by
    have := take_getElem? Config.readyAnswer s.readyIn hj
    rw [show Answers.take Config.readyAnswer ts.length s.readyIn = _ from hr, List.getElem?_replicate_of_lt hj] at this
    exact (Option.some.inj this).symm
  obtain ⟨h0, hts⟩ := List.cons.inj ht
  have ht' : tickAt j (beginWait s) = ts[j] := by
    have := take_getElem? Config.tickAnswer (Answers.next s.tickIn) hj
    rw [hts, List.getElem?_eq_getElem hj] at this
    exact (Option.some.inj this).symm
  refine ⟨hr', ?_⟩
  have h1 : (beginWait s).t0 = t0 := h0
  rw [ht', h1, lt_elapsed_iff, show (beginWait s).tmor = s.tmor from rfl, hB]
  exact Nat.not_lt.2 (hw _ (List.getElem_mem hj))

/-- The events of open rounds are failed polls, each followed by the clock. -/
theorem roundEvents_of_answers {w : State} (n : Nat) (h : ∀ j, j < n → readyAt j w = false) :
    roundEvents n w = (tickAnswers n w).flatMap fun t => [.ready false, .tick t] := by
  induction n with
  | zero => rfl
  | succ n ih =>
    rw [roundEvents, ih fun j hj => h j (by omega), h n (by omega), tickAnswers, tickAnswers, take_succ_last]
    simp [tickAt]

/-- The state once a wait has found the chip ready, after failed polls with the readings `ts` of the clock. -/
def afterLaterWait (ts : List Word) (s : State) : State :=
  { s with
    t0 := tickNow s
    readyIn := Answers.skip (ts.length + 1) s.readyIn
    tickIn := Answers.skip (ts.length + 1) s.tickIn
    trace := s.trace ++ openEvents (tickNow s) ts ++ [.ready true] }

/-- The state once the last of the failed polls of a wait has been followed by the clock. -/
def afterLaterFailure (ts : List Word) (s : State) : State :=
  { s with
    t0 := tickNow s
    readyIn := Answers.skip ts.length s.readyIn
    tickIn := Answers.skip (ts.length + 1) s.tickIn
    trace := s.trace ++ openEvents (tickNow s) ts }

theorem afterRounds_beginWait {s : State} {t0 : Word} {ts : List Word}
    (hr : readyAnswers ts.length s = List.replicate ts.length false) (ht : tickAnswers (ts.length + 1) s = t0 :: ts) :
    afterRounds ts.length (beginWait s) = afterLaterFailure ts s := by
  have h : ∀ j, j < ts.length → readyAt j (beginWait s) = false := by
    intro j hj
    have := take_getElem? Config.readyAnswer s.readyIn hj
    rw [show Answers.take Config.readyAnswer ts.length s.readyIn = _ from hr, List.getElem?_replicate_of_lt hj] at this
    exact (Option.some.inj this).symm
  have e : tickAnswers ts.length (beginWait s) = ts := (List.cons.inj ht).2
  rw [afterRounds, roundEvents_of_answers _ h, e]
  simp [beginWait, afterTick, emit, afterLaterFailure, openEvents, Answers.skip]

/-- A wait that finds the chip ready after failed polls within the budget: a step for each of them. -/
theorem runFor_laterWait {s : State} {b : Budget} {x : Bool} {ls : List Line} {B : Nat} {t0 : Word} {ts : List Word}
    (k : Nat) (hs : ts.length = 0 ∨ (s.busy = true ∧ s.host = [])) (hB : (budgetOf b s.tmor).toNat = B)
    (hr : readyAnswers (ts.length + 1) s = List.replicate ts.length false ++ [true])
    (ht : tickAnswers (ts.length + 1) s = t0 :: ts) (hw : WithinBudget B t0 ts) :
    runFor (ts.length + k) (waitBody b x ++ ls) s = runFor k ls (afterLaterWait ts s) := by
  have hr1 := hr
  rw [readyAnswers, take_succ_last] at hr1
  obtain ⟨h1, h2⟩ := List.append_inj hr1 (by simp [take_length])
  have h3 : readyAt ts.length (beginWait s) = true := (List.cons.inj h2).1
  rw [runFor_wait_ready ts.length k hs (rounds_of_answers hB h1 ht hw) h3, afterRounds_beginWait h1 ht]
  congr 1
  have h4 : readyNow (afterLaterFailure ts s) = true := h3
  rw [afterReady, h4]
  simp [afterLaterFailure, afterLaterWait, emit, skip_succ_last]

/-- A wait that overruns its budget after failed polls within it. -/
theorem runFor_laterTimeout {s : State} {b : Budget} {x : Bool} {ls : List Line} {B : Nat} {t0 t : Word}
    {ts : List Word} (hs : ts.length = 0 ∨ (s.busy = true ∧ s.host = [])) (hB : (budgetOf b s.tmor).toNat = B)
    (hr : readyAnswers (ts.length + 1) s = List.replicate (ts.length + 1) false)
    (ht : tickAnswers (ts.length + 2) s = t0 :: (ts ++ [t])) (hw : WithinBudget B t0 ts)
    (ho : B < (t.toNat + 2 ^ 32 - t0.toNat) % 2 ^ 32) :
    runFor ts.length (waitBody b x ++ ls) s =
      .next (raiseInHandshake x .transportTimeout (afterLaterFailure (ts ++ [t]) s)) := by
  have hl : (ts ++ [t]).length = ts.length + 1 := by simp
  have hr1 := hr
  rw [readyAnswers, take_succ_last, List.replicate_succ'] at hr1
  obtain ⟨h1, h2⟩ := List.append_inj hr1 (by simp [take_length])
  have ht1 := ht
  rw [tickAnswers, take_succ_last, ← List.cons_append] at ht1
  obtain ⟨h3, h4⟩ := List.append_inj ht1 (by simp [take_length])
  have h5 : tickAt ts.length (beginWait s) = t := (List.cons.inj h4).1
  have h6 : Overruns b ts.length (beginWait s) := by
    refine ⟨(List.cons.inj h2).1, ?_⟩
    rw [h5, lt_elapsed_iff, show (beginWait s).tmor = s.tmor from rfl, hB,
      show (beginWait s).t0 = t0 from (List.cons.inj ht).1]
    exact ho
  have e := runFor_wait_over (x := x) (ls := ls) ts.length 0 hs (rounds_of_answers hB h1 h3 hw) h6
  rw [Nat.add_zero] at e
  rw [e, ← hl, afterRounds_beginWait (by rw [hl]; exact hr) (by rw [hl]; exact ht)]

/-- A wait that is still open after failed polls within the budget. -/
theorem runFor_laterOpen {s : State} {b : Budget} {x : Bool} {ls : List Line} {B : Nat} {t0 t : Word}
    {ts : List Word} (hs : ts.length = 0 ∨ (s.busy = true ∧ s.host = [])) (hB : (budgetOf b s.tmor).toNat = B)
    (hr : readyAnswers (ts.length + 1) s = List.replicate (ts.length + 1) false)
    (ht : tickAnswers (ts.length + 2) s = t0 :: (ts ++ [t])) (hw : WithinBudget B t0 (ts ++ [t])) :
    runFor ts.length (waitBody b x ++ ls) s =
      .next { afterLaterFailure (ts ++ [t]) s with phase := .poll b x :: ls } := by
  have hl : (ts ++ [t]).length = ts.length + 1 := by simp
  have hr' : readyAnswers (ts ++ [t]).length s = List.replicate (ts ++ [t]).length false := by rw [hl]; exact hr
  have ht' : tickAnswers ((ts ++ [t]).length + 1) s = t0 :: (ts ++ [t]) := by rw [hl]; exact ht
  have ho := rounds_of_answers hB hr' ht' hw
  rw [runFor_wait_open ts.length hs fun j hj => ho j (by omega), ← hl, afterRounds_beginWait hr' ht']

/-! ### What every state of an operation satisfies -/

/-- How a state of an operation with the lines `ls` stands: ended, or waiting with a poll of those lines next. -/
def Stands (ls : List Line) (t : State) : Prop :=
  (t.busy = false ∧ t.phase = []) ∨
    (t.busy = true ∧ ∃ b x rest, t.phase = .poll b x :: rest ∧ .poll b x :: rest <:+ ls)

theorem suffix_last {ls ms : List Line} {l : Line} (h : ls <:+ ms) (hne : ls ≠ []) (hl : ms.getLast? = some l) :
    ls.getLast? = some l := by
  obtain ⟨pre, rfl⟩ := h
  rwa [List.getLast?_append_of_ne_nil _ hne] at hl

/-- What the first step of an operation leaves and every later one keeps holds after any of its steps, and so does
`Stands`: a later step goes on from a poll, with the lines from it on. -/
theorem runSteps_stands {Q : State → Prop} {ls : List Line} {l : Line} {s t : State} {k : Nat} (hl : ls.getLast? = some l)
    (he : endsOperation l = true) (hh : k = 0 ∨ s.host = []) (hs : Stands ls s) (hq : Q s)
    (hstep : ∀ u v b x rest, Q u → u.busy = true → u.phase = .poll b x :: rest → .poll b x :: rest <:+ ls →
      runLines (.poll b x :: rest) u = .next v → Q v)
    (h : runSteps k s = .next t) : Stands ls t ∧ Q t ∧ t.host = s.host := by
  induction k generalizing t with
  | zero =>
    obtain rfl := Host.Outcome.next.inj h
    exact ⟨hs, hq, rfl⟩
  | succ k ih =>
    obtain ⟨u, h1, h2⟩ := runSteps_succ_last k h
    have hh : s.host = [] := hh.resolve_left (by omega)
    obtain ⟨i1, i2, i3⟩ := ih (.inr hh) h1
    have hu : u.host = [] := i3.trans hh
    rcases i1 with ⟨b1, p1⟩ | ⟨b1, b, x, rest, p1, p2⟩
    · have e : step u = .next u := by simp [step, hu, noMove, b1]
      obtain rfl := Host.Outcome.next.inj (e.symm.trans h2)
      exact ⟨.inl ⟨b1, p1⟩, i2, i3⟩
    · rw [step_resumes hu b1, p1] at h2
      refine ⟨?_, hstep u t b x rest i2 b1 p1 p2 h2, ?_⟩
      · rcases runLines_ends ⟨l, suffix_last p2 (by simp) hl, he⟩ b1 h2 with e | ⟨e1, b', x', rest', e2, e3⟩
        · exact .inl e
        · exact .inr ⟨e1, b', x', rest', e2, e3.trans p2⟩
      · have := runLines_keeps (·.host) (fun _ _ => rfl) (fun l _ u v e => e.hostSide.1) h2
        exact this.trans i3

/-- The same for an operation at an idle engine. -/
theorem runOp_stands {Q : State → Prop} {i : Instr} {s t : State} {k : Nat} (hb : s.busy = false) (ho : OwnSteps k s)
    (hq : ∀ u, exec i s = .next u → Q u)
    (hstep : ∀ u v b x rest, Q u → u.busy = true → u.phase = .poll b x :: rest →
      .poll b x :: rest <:+ linesOf Config.params i → runLines (.poll b x :: rest) u = .next v → Q v)
    (h : runOp k i s = .next t) : Stands (linesOf Config.params i) t ∧ Q t := by
  rw [runOp] at h
  cases hx : exec i s with
  | next u =>
    rw [hx] at h
    have hx' := hx
    rw [exec_idle i s hb] at hx'
    have hs : Stands (linesOf Config.params i) u := runLines_ends ⟨_, linesOf_last _ _, rfl⟩ rfl hx'
    have hu : u.host = s.host := by
      have := runLines_keeps (·.host) (fun _ _ => rfl) (fun l _ u v e => e.hostSide.1) hx'
      exact this
    have hh : k = 0 ∨ u.host = [] := ho.imp_right fun h => hu.trans h.2
    obtain ⟨h1, h2, -⟩ := runSteps_stands (linesOf_last _ _) rfl hh hs (hq u hx) hstep h
    exact ⟨h1, h2⟩
  | fault f => simp [hx] at h
  | refused r => simp [hx] at h

/-- A property that acceptance leaves and every line of an operation keeps holds after any of its steps. -/
theorem runOp_induct {R : State → Prop} {i : Instr} {s t : State} {k : Nat} (hb : s.busy = false) (ho : OwnSteps k s)
    (h0 : R (beginOp i (linesOf Config.params i) s)) (hp : ∀ u p, R u → R { u with phase := p })
    (hl : ∀ l, Fits i l → ∀ u v, R u → LineEffects l u v → R v) (h : runOp k i s = .next t) : R t := by
  refine (runOp_stands hb ho (fun u hu => ?_) (fun u v b x rest hu _ _ hs hv => ?_) h).2
  · rw [exec_idle i s hb] at hu
    exact runLines_induct h0 hp (fun l hm => hl l (linesOf_fit _ _ l hm)) hu
  · exact runLines_induct hu hp (fun l hm => hl l (linesOf_fit _ _ l (hs.subset hm))) hv

/-- A field that acceptance and every line of an operation keep is as it was after any of its steps. -/
theorem runOp_keeps {α : Type} (f : State → α) (hp : ∀ u p, f { u with phase := p } = f u) {i : Instr} {s t : State}
    {k : Nat} (ho : OwnSteps k s) (ha : ∀ ls, f (beginOp i ls s) = f s)
    (hl : ∀ l, Fits i l → ∀ u v, LineEffects l u v → f v = f u) (h : runOp k i s = .next t) : f t = f s := by
  cases hb : s.busy
  · exact runOp_induct (R := fun u => f u = f s) hb ho (ha _) (fun u p hu => (hp u p).trans hu)
      (fun l hm u v hu hv => (hl l hm u v hv).trans hu) h
  · obtain rfl := ho.resolve_right (by simp [hb])
    rw [runOp_zero, exec_busy i s hb] at h
    rw [← Host.Outcome.next.inj h]

/-- In every operation the lines from a poll on still write a result, if at all, only in the last before
`return Ok`. -/
theorem linesOf_results_suffix {P : Params} {i : Instr} {b : Budget} {x : Bool} {rest : List Line}
    (hs : .poll b x :: rest <:+ linesOf P i) :
    ∃ pre body, .poll b x :: rest = pre ++ [body, .finish] ∧ ∀ l ∈ pre, touchesResult l = false := by
  obtain ⟨pre, body, e, hp⟩ := linesOf_results P i
  rw [e] at hs
  obtain ⟨q, hq⟩ := hs
  rcases List.append_eq_append_iff.1 hq with ⟨a, h1, h2⟩ | ⟨a, h1, h2⟩
  · exact ⟨a, body, h2, fun l hl => hp l (by simp [h1, hl])⟩
  · rcases a with _ | ⟨y, _ | ⟨z, a⟩⟩
    · exact ⟨[], body, h2.symm, by simp⟩
    · simp at h2
    · simp at h2

/-- No step of an operation is refused. -/
theorem runOp_not_refused {i : Instr} {s : State} {k : Nat} (hb : s.busy = false) (ho : OwnSteps k s) (r : Refusal) :
    runOp k i s ≠ .refused r := by
  intro h
  have h0 := exec_idle i s hb
  rw [runOp] at h
  split at h
  · next t hx =>
    induction k with
    | zero => cases h
    | succ k ih =>
      have hh := ho.resolve_left (by omega)
      rw [runSteps_last_step] at h
      split at h
      · next u hu =>
        have hr : runOp k i s = .next u := by rw [runOp, hx]; exact hu
        have hu : u.host = s.host := runOp_keeps (·.host) (fun _ _ => rfl) (.inr hh) (fun _ => rfl)
          (fun l _ u v e => e.hostSide.1) hr
        rw [step, hu, hh.2] at h
        simp only [noMove] at h
        split at h
        · exact runLines_not_refused _ _ _ h
        · cases h
      · cases h
      · next hq => exact ih (.inr hh) (hq.trans h)
  · cases h
  · next hx => exact runLines_not_refused _ _ _ (h0.symm.trans hx)

/-! ### Lines without events do not see the environment -/

/-- A state in another environment: other answers to come, another record of events. -/
def inEnv (r : Answers Bool) (k : Answers Word) (es : List Event) (s : State) : State :=
  { s with readyIn := r, tickIn := k, trace := es }

/-- A verdict in another environment. -/
def inEnvV (r : Answers Bool) (k : Answers Word) (es : List Event) : Verdict → Verdict
  | .go t => .go (inEnv r k es t)
  | .again t => .again (inEnv r k es t)
  | .done t => .done (inEnv r k es t)
  | .fault f => .fault f

/-- What a line without an event does is the same in every environment. -/
theorem runLine_inEnv {l : Line} (h : makesEvent l = false) (r : Answers Bool) (k : Answers Word) (es : List Event)
    (s : State) : runLine l (inEnv r k es s) = inEnvV r k es (runLine l s) := by
  unfold inEnv
  cases l <;> simp only [makesEvent, reduceCtorEq] at h
  case checkAck x =>
    cases x <;> simp only [runLine, lineCheckAck, raiseInHandshake] <;> repeat' split
    all_goals rfl
  all_goals simp only [runLine, lineRequireBound, lineRequireCbCount, lineRequireRbCount, lineRequireCb, lineBind,
    lineCsumLcs, lineCsumDcs, lineCsumVerify, lineAckMatch, lineParseFwver, lineParseSam, lineParseTarget, extractUid]
  all_goals repeat' split
  all_goals rfl

theorem runLines_inEnv {ls : List Line} (h : ∀ l ∈ ls, makesEvent l = false) (r : Answers Bool) (k : Answers Word)
    (es : List Event) (s : State) : runLines ls (inEnv r k es s) = mapNext (inEnv r k es) (runLines ls s) := by
  induction ls generalizing s with
  | nil => rfl
  | cons l ls ih =>
    rw [runLines_cons, runLines_cons, runLine_inEnv (h l (by simp))]
    cases runLine l s with
    | go t => exact ih (fun m hm => h m (by simp [hm])) t
    | again t => rfl
    | done t => rfl
    | fault f => rfl

/-! ### Handshakes (R111, R141) -/

/-- An exchange up to its first wait. -/
theorem runFor_toFirstWait {pre rest : List Line} {s s0 : State} (k : Nat) (P : Params) (b : Budget) (d : List Byte)
    (t : Through pre s s0) (hd : Holds d s0.cb) :
    runFor k (pre ++ (exchangeBody P d.length b ++ rest)) s =
      runFor k (waitBody b true ++ (afterFirstWait P b ++ rest)) (afterFrame P d s0) := by
  rw [exchangeBody_split]
  exact runFor_through k _ (through_append t (through_exchangeHead P s0 d hd))

/-- An exchange from its first wait to its second, the ACK matching. -/
theorem runFor_toSecondWait {rest : List Line} {w : State} (k : Nat) (P : Params) (b : Budget)
    (ha : ackMatches (recvAnswers 6 w) = true) :
    runFor k (afterFirstWait P b ++ rest) w =
      runFor k (waitBody b true ++ ([.setHs .responseReady] ++ rest))
        { afterAckRead P w with hs := .waitingReady2 } := by
  have e : afterFirstWait P b ++ rest =
      (readAckBody P true ++ exchangeMiddle) ++ (waitBody b true ++ ([.setHs .responseReady] ++ rest)) := by
    simp [afterFirstWait]
  rw [e]
  exact runFor_through k _ (through_append (through_ack P true w ha) (through_cons rfl (through_one rfl)))

/-- An exchange from its first wait on, the ACK not matching. -/
theorem runFor_ackMismatch {rest : List Line} {w : State} {k : Nat} (P : Params) (b : Budget)
    (ha : ackMatches (recvAnswers 6 w) = false) (hk : k = 0 ∨ w.host = []) :
    runFor k (afterFirstWait P b ++ rest) w = .next (raiseInHandshake true .ackMismatch (afterAckRead P w)) := by
  have e : afterFirstWait P b ++ rest =
      [] ++ (readAckBody P true ++ (exchangeMiddle ++ waitBody b true ++ [.setHs .responseReady] ++ rest)) := by
    simp [afterFirstWait]
  rw [e]
  exact runFor_done (run_ack_mismatch P true (through_nil w) ha) rfl hk

/-- The operations that run the handshake: their frame data in `CB`, the handshake, and the response with a parse that
makes no event. -/
theorem linesOf_handshake (P : Params) (i : Instr) (h : isHandshake i = true) :
    ∃ pre b n parse, linesOf P i =
        pre ++ (exchangeBody P n b ++ (responseLines P (responseLength i) parse ++ [.finish])) ∧
      (budgetOf b (tmoHalf i.tmo)).toNat = handshakeBudget P i ∧ (∀ l ∈ parse, makesEvent l = false) ∧
      ∀ (s : State) (d : List Byte), SendsData P i s d → d.length = n ∧ ∃ cb, Holds d cb ∧
        ∀ u : State, u.cb = s.cb → u.bound = true → u.argr = argByte i.arg → Through pre u { u with cb := cb } := by
  have request : ∀ (d0 : List Byte) (s : State), ∃ cb, Holds d0 cb ∧ ∀ u : State, u.cb = s.cb → u.bound = true →
      Through ([.requireBound] ++ loadCbLines 0 d0) u { u with cb := cb } := by
    intro d0 s
    refine ⟨Memory.writeRange s.cb 0 d0, (overwrites_writeRange _ _).1, fun u hc hb => ?_⟩
    rw [← hc]
    exact through_requestHead u d0 hb
  have e : ∀ (d : List Byte) b n p, requestLines P d b n p =
      ([.requireBound] ++ loadCbLines 0 d) ++ (exchangeBody P d.length b ++ (responseLines P n p ++ [.finish])) := by
    intros
    simp [requestLines]
  cases i <;> simp only [isHandshake, isRequest, reduceCtorEq] at h
  case exchange arg tmo =>
    refine ⟨[.requireBound, .requireCbCount], .tmor, countOf arg, [], by simp [linesOf, exchangeLines, responseLines,
      responseLength], ?_, by simp, ?_⟩
    · simp only [budgetOf, tmoHalf, handshakeBudget, Instr.tmo, BitVec.toNat_setWidth, BitVec.toNat_ofNat]
      omega
    · rintro s d ⟨h1, h2, h3, h4⟩
      refine ⟨by rw [countOf_small arg (by omega), h3], s.cb, h4, fun u hc hb ha => ?_⟩
      have hu : u = { u with cb := s.cb } := by rw [← hc]
      have hok : cbCountOk u.argr.toNat = true := by
        rw [ha, Instr.arg, argByte_toNat arg (by omega), cbCountOk_iff]
        exact ⟨h1, h2⟩
      rw [← hu]
      exact through_cons (requireBound_of_bound hb) (through_one (if_pos hok))
  all_goals
    simp only [linesOf, getFirmwareVersionLines, configureSamLines, setRetriesLines, readTargetLines, e]
    refine ⟨_, _, _, _, rfl, ?_, by simp [makesEvent], fun s d hd => ?_⟩
  case readPassiveTargetId.refine_1 =>
    simp only [budgetOf, tmoHalf, handshakeBudget, requestBudget, Instr.tmo, BitVec.toNat_setWidth, BitVec.toNat_ofNat]
    omega
  all_goals first
    | rfl
    | (obtain rfl : d = _ := hd
       obtain ⟨cb, h1, h2⟩ := request _ s
       exact ⟨rfl, cb, h1, fun u hc hb _ => h2 u hc hb⟩)

/-- The response of a handshake and its parse, in another environment (R141). -/
theorem runLines_response_inEnv {P : Params} {i : Instr} {parse : List Line} (hp : ∀ l ∈ parse, makesEvent l = false)
    (r : Answers Bool) (k : Answers Word) (es : List Event) {s u : State}
    (hu : u.recvIn = Answers.skip 6 s.recvIn) :
    runLines (responseLines P (responseLength i) parse ++ [.finish]) (inEnv r k es u) =
      mapNext (inEnv r k (es ++ responseEvents P i s))
        (runLines (responseLines P (responseLength i) parse ++ [.finish]) u) := by
  by_cases h : responseLength i = 0
  · simp only [responseLines, responseEvents, h, if_true, List.nil_append, List.append_nil]
    exact runLines_inEnv (by simp [makesEvent]) r k es u
  · have hf : ∀ l ∈ parse ++ [.finish], makesEvent l = false := List.forall_mem_append.2 ⟨hp, by simp [makesEvent]⟩
    have e : ∀ v : State, v.recvIn = u.recvIn → recvAnswers (responseLength i) v =
        Answers.take Config.recvAnswer (responseLength i) (Answers.skip 6 s.recvIn) := by
      intro v hv
      rw [recvAnswers, hv, hu]
    simp only [responseLines, responseEvents, h, if_false, List.append_assoc]
    rw [through_readBody P (inEnv r k es u), through_readBody P u, ← runLines_inEnv hf, e u rfl, e (inEnv r k es u) rfl]
    rfl

end Sys2Proof.Machine
end

