-- ==== Sys2Proof/Laws/Fresh.lean ====
section
/-! SUPPORT. Lines that read only cells which lines before them have written (spec/10_state.md R25,
spec/44_response_parser.md R128): what such lines can fault with, and that the lines of every engine operation are such
lines. -/

namespace Sys2Proof.Machine

/-- The first `n` cells of a buffer are written. -/
def Written (n : Nat) (m : Memory) : Prop := ∀ i, i < n → ∃ b, Memory.read m i = some b

theorem written_zero (m : Memory) : Written 0 m := fun i hi => absurd hi (Nat.not_lt_zero i)

theorem written_write {n i : Nat} {m : Memory} (b : Byte) (h : Written n m) (hi : i ≤ n) :
    Written (max n (i + 1)) (Memory.write m i b) := by
  intro k hk
  by_cases e : k = i
  · exact ⟨b, by rw [e, read_write_same]⟩
  · obtain ⟨c, hc⟩ := h k (by omega)
    exact ⟨c, by rw [read_write_other _ _ _ _ e, hc]⟩

/-- A run of written cells reads as bytes. -/
theorem written_readRange {n a k : Nat} {m : Memory} (h : Written n m) (hk : a + k ≤ n) :
    ∃ bs, Memory.readRange m a k = .bytes bs ∧ bs.length = k := by
  cases e : Memory.readRange m a k with
  | bytes bs => exact ⟨bs, rfl, ((readRange_eq_bytes _ _ _ _).1 e).1⟩
  | unwritten j =>
    obtain ⟨-, h2, h3⟩ := readRange_unwritten _ _ _ _ e
    obtain ⟨b, hb⟩ := h j (by omega)
    simp [h3] at hb

/-- With the first `cb`, `ack` and `rb` cells of the three buffers written, the lines read only written cells. -/
def ReadsWritten : (cb ack rb : Nat) → List Line → Prop
  | _, _, _, [] => True
  | cb, ack, rb, .requireCb n :: ls => n ≤ cb ∧ ReadsWritten cb ack rb ls
  | cb, ack, rb, .sendCb i :: ls => i < cb ∧ ReadsWritten cb ack rb ls
  | cb, ack, rb, .loadCb i _ :: ls => i ≤ cb ∧ ReadsWritten (max cb (i + 1)) ack rb ls
  | cb, ack, rb, .recvAck i :: ls => i ≤ ack ∧ ReadsWritten cb (max ack (i + 1)) rb ls
  | cb, ack, rb, .recvRb i :: ls => i ≤ rb ∧ ReadsWritten cb ack (max rb (i + 1)) ls
  | cb, ack, rb, .checkAck _ :: ls => 6 ≤ ack ∧ ReadsWritten cb ack rb ls
  | cb, ack, rb, .parseFwver _ :: ls => 10 ≤ rb ∧ ReadsWritten cb ack rb ls
  | cb, ack, rb, .parseSam _ :: ls => 7 ≤ rb ∧ ReadsWritten cb ack rb ls
  | cb, ack, rb, .parseTarget :: ls => 20 ≤ rb ∧ ReadsWritten cb ack rb ls
  | _, _, _, .csumDcs _ :: _ => False
  | _, _, _, .csumVerify :: _ => False
  | _, _, _, .ackMatch :: _ => False
  | cb, ack, rb, _ :: ls => ReadsWritten cb ack rb ls

/-- The buffers hold what lines that read only written cells need. -/
def Supplies (s : State) (ls : List Line) : Prop :=
  ∃ cb ack rb, Written cb s.cb ∧ Written ack s.ackbuf ∧ Written rb s.rb ∧ ReadsWritten cb ack rb ls

/-- One such line goes on to lines that are supplied, or faults on a UID length above 7 and nothing else. -/
theorem runLine_supplies {l : Line} {ls : List Line} {s : State} (h : Supplies s (l :: ls)) :
    (∀ t, runLine l s = .go t → Supplies t ls) ∧ (∀ t, runLine l s = .again t → Supplies t (l :: ls)) ∧
    (∀ f, runLine l s = .fault f → l = .parseTarget ∧ ∃ len : Byte, f = .uidOverrun len ∧ 7 < len.toNat) := by
  obtain ⟨cb, ack, rb, hc, ha, hr, hl⟩ := h
  cases l <;> simp only [ReadsWritten] at hl
  case requireCb n =>
    obtain ⟨bs, hb, -⟩ := written_readRange (a := 0) hc (by omega : 0 + n ≤ cb)
    simp only [runLine, lineRequireCb, hb]
    exact ⟨fun t h => (Verdict.go.inj h) ▸ ⟨cb, ack, rb, hc, ha, hr, hl.2⟩, by simp, by simp⟩
  case sendCb i =>
    obtain ⟨b, hb⟩ := hc i hl.1
    simp only [runLine, lineSendCb, hb]
    exact ⟨fun t h => (Verdict.go.inj h) ▸ ⟨cb, ack, rb, hc, ha, hr, hl.2⟩, by simp, by simp⟩
  case loadCb i b =>
    simp only [runLine]
    exact ⟨fun t h => (Verdict.go.inj h) ▸ ⟨_, ack, rb, written_write b hc hl.1, ha, hr, hl.2⟩, by simp, by simp⟩
  case recvAck i =>
    simp only [runLine, lineRecvAck]
    exact ⟨fun t h => (Verdict.go.inj h) ▸ ⟨cb, _, rb, hc, written_write _ ha hl.1, hr, hl.2⟩, by simp, by simp⟩
  case recvRb i =>
    simp only [runLine, lineRecvRb]
    exact ⟨fun t h => (Verdict.go.inj h) ▸ ⟨cb, ack, _, hc, ha, written_write _ hr hl.1, hl.2⟩, by simp, by simp⟩
  case checkAck x =>
    obtain ⟨bs, hb, -⟩ := written_readRange (a := 0) ha (by omega : 0 + 6 ≤ ack)
    simp only [runLine, lineCheckAck, Config.nAck, hb]
    split
    · exact ⟨fun t h => (Verdict.go.inj h) ▸ ⟨cb, ack, rb, hc, ha, hr, hl.2⟩, by simp, by simp⟩
    · simp
  case parseFwver hd =>
    obtain ⟨bs, hb, -⟩ := written_readRange (a := 0) hr (by omega : 0 + 10 ≤ rb)
    simp only [runLine, lineParseFwver, Config.fwOfs, hb]
    split
    · exact ⟨fun t h => (Verdict.go.inj h) ▸ ⟨cb, ack, rb, hc, ha, hr, hl.2⟩, by simp, by simp⟩
    · simp
  case parseSam k =>
    obtain ⟨b, hb⟩ := hr 6 (by omega)
    simp only [runLine, lineParseSam, Config.samOfs, hb]
    split
    · exact ⟨fun t h => (Verdict.go.inj h) ▸ ⟨cb, ack, rb, hc, ha, hr, hl.2⟩, by simp, by simp⟩
    · simp
  case parseTarget =>
    obtain ⟨c, hb⟩ := hr 7 (by omega)
    obtain ⟨len, hlen⟩ := hr 12 (by omega)
    simp only [runLine, lineParseTarget, Config.ptCountOfs, hb]
    split
    · by_cases l7 : 7 < len.toNat
      · simp only [extractUid, Config.ptUidLenOfs, hlen, Config.uidMax, l7, if_true]
        exact ⟨by simp, by simp, fun f h => ⟨trivial, len, (Verdict.fault.inj h).symm, l7⟩⟩
      · obtain ⟨bs, hbs, -⟩ := written_readRange (a := 13) hr (by omega : 13 + len.toNat ≤ rb)
        simp only [extractUid, Config.ptUidLenOfs, hlen, Config.uidMax, l7, if_false, Config.ptUidOfs, hbs]
        exact ⟨fun t h => (Verdict.go.inj h) ▸ ⟨cb, ack, rb, hc, ha, hr, hl.2⟩, by simp, by simp⟩
    · simp
  case poll b x =>
    have hs : Supplies s (.poll b x :: ls) := ⟨cb, ack, rb, hc, ha, hr, by simpa only [ReadsWritten] using hl⟩
    rcases poll_cases b x s with ⟨-, h2⟩ | ⟨-, -, h2⟩ | ⟨-, -, h2⟩ <;> rw [h2]
    · exact ⟨fun t h => (Verdict.go.inj h) ▸ ⟨cb, ack, rb, hc, ha, hr, hl⟩, by simp, by simp⟩
    · simp
    · exact ⟨by simp, fun t h => (Verdict.again.inj h) ▸ hs, by simp⟩
  all_goals simp only [runLine, lineRequireBound, lineRequireCbCount, lineRequireRbCount, lineBind, lineCsumLcs]
  all_goals repeat' split
  all_goals first
    | exact ⟨fun t h => (Verdict.go.inj h) ▸ ⟨cb, ack, rb, hc, ha, hr, hl⟩, by simp, by simp⟩
    | simp

/-- A run of such lines faults on nothing but a UID length above 7, and where it waits the lines left are supplied. -/
theorem runLines_supplies {ls : List Line} {s : State} (h : Supplies s ls) :
    (∀ f, runLines ls s = .fault f → .parseTarget ∈ ls ∧ ∃ len : Byte, f = .uidOverrun len ∧ 7 < len.toNat) ∧
    (∀ t, runLines ls s = .next t → t.busy = true → Supplies t t.phase) := by
  induction ls generalizing s with
  | nil =>
    refine ⟨fun f h => (by cases h), fun t h _ => ?_⟩
    obtain rfl := Host.Outcome.next.inj h
    exact ⟨0, 0, 0, written_zero _, written_zero _, written_zero _, trivial⟩
  | cons l ls ih =>
    obtain ⟨h1, h2, h3⟩ := runLine_supplies h
    simp only [runLines_cons]
    rcases runLine_hands_on l s with ⟨u, hu, -⟩ | ⟨u, b, x, -, hu, -⟩ | ⟨u, hu, hb, -⟩ | ⟨f, hu⟩ <;> rw [hu]
    · obtain ⟨i1, i2⟩ := ih (h1 u hu)
      exact ⟨fun f hf => ⟨List.mem_cons_of_mem _ (i1 f hf).1, (i1 f hf).2⟩, i2⟩
    · refine ⟨fun f h => (by cases h), fun t h _ => ?_⟩
      obtain rfl := Host.Outcome.next.inj h
      exact h2 u hu
    · refine ⟨fun f h => (by cases h), fun t h htb => ?_⟩
      obtain rfl := Host.Outcome.next.inj h
      rw [hb] at htb
      cases htb
    · refine ⟨fun g hg => ?_, fun t h => (by cases h)⟩
      obtain rfl := Host.Outcome.fault.inj hg
      obtain ⟨rfl, h4⟩ := h3 f hu
      exact ⟨List.mem_cons_self, h4⟩

/-! ### The engine operations -/

theorem readsWritten_loadCb {cb ack rb i : Nat} {d : List Byte} {ls : List Line} (hi : i ≤ cb)
    (h : ReadsWritten (max cb (i + d.length)) ack rb ls) : ReadsWritten cb ack rb (loadCbLines i d ++ ls) := by
  induction d generalizing cb i with
  | nil => simpa [loadCbLines, Nat.max_eq_left hi] using h
  | cons b d ih =>
    refine ⟨hi, ih (by omega) ?_⟩
    rw [show max (max cb (i + 1)) (i + 1 + d.length) = max cb (i + (b :: d).length) by
      simp only [List.length_cons]; omega]
    exact h

theorem readsWritten_sendCb {cb ack rb : Nat} {is : List Nat} {ls : List Line} (hi : ∀ i ∈ is, i < cb)
    (h : ReadsWritten cb ack rb ls) : ReadsWritten cb ack rb (is.map .sendCb ++ ls) := by
  induction is with
  | nil => exact h
  | cons i is ih => exact ⟨hi i (by simp), ih fun j hj => hi j (by simp [hj])⟩

theorem readsWritten_recvAck {cb ack rb n : Nat} {ls : List Line} (h : ReadsWritten cb (max ack n) rb ls) :
    ReadsWritten cb ack rb ((List.range n).map .recvAck ++ ls) := by
  induction n generalizing ls with
  | zero => simpa using h
  | succ n ih =>
    rw [List.range_succ, List.map_append, List.append_assoc]
    refine ih ⟨Nat.le_max_right _ _, ?_⟩
    rw [show max (max ack n) (n + 1) = max ack (n + 1) by omega]
    exact h

theorem readsWritten_recvRb {cb ack rb n : Nat} {ls : List Line} (h : ReadsWritten cb ack (max rb n) ls) :
    ReadsWritten cb ack rb ((List.range n).map .recvRb ++ ls) := by
  induction n generalizing ls with
  | zero => simpa using h
  | succ n ih =>
    rw [List.range_succ, List.map_append, List.append_assoc]
    refine ih ⟨Nat.le_max_right _ _, ?_⟩
    rw [show max (max rb n) (n + 1) = max rb (n + 1) by omega]
    exact h

/-- A request reads only what it has written itself, when its parse reads within its response (R128). -/
theorem readsWritten_request (P : Params) (d : List Byte) (b : Budget) (n : Nat) (parse : List Line)
    (h : n = 0 ∨ ∀ cb ack, ReadsWritten cb ack n (parse ++ [.finish])) :
    ReadsWritten 0 0 0 (requestLines P d b n parse) := by
  have hr : ReadsWritten d.length 6 0 (responseLines P n parse ++ [.finish]) := by
    unfold responseLines
    split
    · trivial
    · next hn =>
      simp only [readBody, List.append_assoc]
      refine readsWritten_recvRb ?_
      rw [Nat.zero_max]
      exact h.resolve_left hn d.length 6
  simp only [requestLines, exchangeBody, writeBody, readAckBody, waitBody, List.append_assoc]
  refine readsWritten_loadCb (Nat.zero_le _) ?_
  rw [Nat.zero_add, Nat.zero_max]
  refine ⟨Nat.le_refl _, readsWritten_sendCb (fun i hi => List.mem_range.1 hi) ?_⟩
  exact readsWritten_recvAck ⟨by decide, hr⟩

/-- The lines of an engine operation are supplied from any state. -/
theorem linesOf_supplied (P : Params) (i : Instr) (h : isRequest i = true ∨ i.opcode = 0x00) (s : State) :
    Supplies s (linesOf P i) := by
  refine ⟨0, 0, 0, written_zero _, written_zero _, written_zero _, ?_⟩
  cases i <;> simp only [isRequest, Instr.opcode, reduceCtorEq, false_or] at h <;>
    first
      | exact readsWritten_request P _ _ _ _ (.inl rfl)
      | exact readsWritten_request P _ _ _ _ (.inr fun _ _ => ⟨by decide, trivial⟩)
      | trivial

end Sys2Proof.Machine
end

