-- ==== Sys2Proof/Laws/PerInstr.lean ====
section
/-! SUPPORT. One family of statements per operation, about its command word: each field of the encoding holds what
format CW gives it (spec/30_encoding.md R61), so no field of an operation runs over into another. -/

namespace Sys2Proof.Laws

open Sys2Proof

/-- The three fields of the command word of an operation, for every value of its operands, cut to their widths. -/
def EncodingFields.Statement (i : Instr) : Prop :=
  opField (encode i) = i.opcode ∧ argField (encode i) = BitVec.ofNat 8 i.arg ∧ tmoField (encode i) = BitVec.ofNat 16 i.tmo

theorem fields_of_append (op a : Byte) (t : Half) :
    opField (op ++ a ++ t) = op ∧ argField (op ++ a ++ t) = a ∧ tmoField (op ++ a ++ t) = t := by
  have h : (op ++ a ++ t).toNat = op.toNat * 2 ^ 24 + a.toNat * 2 ^ 16 + t.toNat := by
    rw [BitVec.toNat_append, BitVec.toNat_append, ← Nat.shiftLeft_add_eq_or_of_lt a.isLt,
      ← Nat.shiftLeft_add_eq_or_of_lt t.isLt, Nat.shiftLeft_eq, Nat.shiftLeft_eq]
    omega
  have h1 := op.isLt
  have h2 := a.isLt
  have h3 := t.isLt
  refine ⟨?_, ?_, ?_⟩ <;> apply BitVec.eq_of_toNat_eq <;>
    simp only [opField, argField, tmoField, BitVec.extractLsb'_toNat, h, Nat.shiftRight_eq_div_pow] <;> omega

theorem EncodingFields.init (arg tmo : Nat) : EncodingFields.Statement (.init arg tmo) := fields_of_append _ _ _
theorem EncodingFields.getFirmwareVersion (arg tmo : Nat) : EncodingFields.Statement (.getFirmwareVersion arg tmo) := fields_of_append _ _ _
theorem EncodingFields.configureSam (arg tmo : Nat) : EncodingFields.Statement (.configureSam arg tmo) := fields_of_append _ _ _
theorem EncodingFields.setPassiveActivationRetries (arg tmo : Nat) : EncodingFields.Statement (.setPassiveActivationRetries arg tmo) := fields_of_append _ _ _
theorem EncodingFields.readPassiveTargetId (arg tmo : Nat) : EncodingFields.Statement (.readPassiveTargetId arg tmo) := fields_of_append _ _ _
theorem EncodingFields.csumLcs (arg tmo : Nat) : EncodingFields.Statement (.csumLcs arg tmo) := fields_of_append _ _ _
theorem EncodingFields.csumDcs (arg tmo : Nat) : EncodingFields.Statement (.csumDcs arg tmo) := fields_of_append _ _ _
theorem EncodingFields.csumVerify (arg tmo : Nat) : EncodingFields.Statement (.csumVerify arg tmo) := fields_of_append _ _ _
theorem EncodingFields.writeCommand (arg tmo : Nat) : EncodingFields.Statement (.writeCommand arg tmo) := fields_of_append _ _ _
theorem EncodingFields.waitReady (arg tmo : Nat) : EncodingFields.Statement (.waitReady arg tmo) := fields_of_append _ _ _
theorem EncodingFields.readAck (arg tmo : Nat) : EncodingFields.Statement (.readAck arg tmo) := fields_of_append _ _ _
theorem EncodingFields.ackMatch (arg tmo : Nat) : EncodingFields.Statement (.ackMatch arg tmo) := fields_of_append _ _ _
theorem EncodingFields.readData (arg tmo : Nat) : EncodingFields.Statement (.readData arg tmo) := fields_of_append _ _ _
theorem EncodingFields.exchange (arg tmo : Nat) : EncodingFields.Statement (.exchange arg tmo) := fields_of_append _ _ _
theorem EncodingFields.parseFwver (arg tmo : Nat) : EncodingFields.Statement (.parseFwver arg tmo) := fields_of_append _ _ _
theorem EncodingFields.parseSam (arg tmo : Nat) : EncodingFields.Statement (.parseSam arg tmo) := fields_of_append _ _ _
theorem EncodingFields.parseTarget (arg tmo : Nat) : EncodingFields.Statement (.parseTarget arg tmo) := fields_of_append _ _ _

end Sys2Proof.Laws
end

