-- ==== Sys2Proof/Tests/Slice0.lean ====
section
/-! SUPPORT. Tests: the checks of WellFormed, one word of every operation from the spec's encoding, vectors of
spec/95_test_vectors.md (named V... in each comment, under the reference set P0 where they depend on it), and for each
statement with hypotheses a witness that meets them. -/

namespace Sys2Proof.Tests

open Sys2Proof Sys2Proof.Machine

/-! ### Helpers -/

/-- An operation under the reference set P0 (spec/00_scope.md R5). -/
def underP0 (i : Instr) (s : State) : Host.Outcome State Fault Refusal := perform i (linesOf Config.p0 i) s

/-- A field of the next state, none at a fault or a refusal. -/
def next? {α : Type} (f : State → α) : Host.Outcome State Fault Refusal → Option α
  | .next s => some (f s)
  | _ => none

/-- The fault, if it is one. -/
def fault? : Host.Outcome State Fault Refusal → Option Fault
  | .fault f => some f
  | _ => none

/-- The refusal, if it is one. -/
def refused? : Host.Outcome State Fault Refusal → Option Refusal
  | .refused r => some r
  | _ => none

/-- A buffer with bytes from index 0 up. -/
def bytesFrom : Nat → List Byte → Memory
  | _, [] => []
  | i, b :: bs => (i, b) :: bytesFrom (i + 1) bs

/-- A bound idle engine. -/
def bound : State := { State.reset with bound := true }

/-- A bound idle engine with bytes in `CB`. -/
def withCb (bs : List Byte) : State := { bound with cb := bytesFrom 0 bs }

/-- An unbound idle engine with bytes in `RB`. -/
def withRb (bs : List Byte) : State := { State.reset with rb := bytesFrom 0 bs }

/-- A state with an oracle script (spec/95_test_vectors.md, conventions). -/
def oracle (ticks : List Word) (readies : List Bool) (recvs : List Byte) (s : State) : State :=
  { s with tickIn := ⟨ticks, 0⟩, readyIn := ⟨readies, 0⟩, recvIn := ⟨recvs, 0⟩ }

/-- A bound engine whose host has one move. -/
def hostDoes (m : HostMove) : State := { bound with host := [m] }

/-- The same while an operation waits for the chip. -/
def busyHostDoes (m : HostMove) : State := { bound with busy := true, phase := [.poll .tmor false, .finish], host := [m] }

/-- The bytes of the ACK frame (spec/30_encoding.md R70). -/
def ack : List Byte := [0x00, 0x00, 0xFF, 0x00, 0xFF, 0x00]

/-- The response of V60. -/
def fwResponse : List Byte := [0x00, 0xFF, 0x06, 0xFA, 0xD5, 0x03, 0x32, 0x01, 0x06, 0x07, 0xE8, 0x00]

/-- The response of V69. -/
def samResponse : List Byte := [0x00, 0x00, 0xFF, 0x02, 0xFE, 0xD5, 0x15, 0x16]

/-- The response of V64, with the tag count and the UID length left to the test. -/
def targetResponse (count len : Byte) : List Byte :=
  [0x00, 0x00, 0xFF, 0x0C, 0xF4, 0xD5, 0x4B, count, 0x01, 0x00, 0x04, 0x08, len, 0x12, 0x34, 0x56, 0x78, 0xBA, 0x00,
    0x00]

/-! ### WellFormed -/

theorem test_wellFormed : (Instr.exchange 255 65535).wellFormed = true := by decide
theorem test_arg_too_wide : (Instr.init 256 0).wellFormed = false := by decide
theorem test_tmo_too_wide : (Instr.waitReady 0 65536).wellFormed = false := by decide

/-! ### Decoding: one word of every operation, written from the map of spec/30_encoding.md R62 -/

theorem test_decode_init : decode 0x00010000 = .op (.init 1 0) := by decide
theorem test_decode_getfw : decode 0x01000000 = .op (.getFirmwareVersion 0 0) := by decide
theorem test_decode_sam : decode 0x02000000 = .op (.configureSam 0 0) := by decide
theorem test_decode_retries : decode 0x03FF0000 = .op (.setPassiveActivationRetries 255 0) := by decide
theorem test_decode_target : decode 0x040003E8 = .op (.readPassiveTargetId 0 1000) := by decide
theorem test_decode_csumLcs : decode 0x10020000 = .op (.csumLcs 2 0) := by decide
theorem test_decode_csumDcs : decode 0x11010000 = .op (.csumDcs 1 0) := by decide
theorem test_decode_csumVerify : decode 0x12030000 = .op (.csumVerify 3 0) := by decide
theorem test_decode_writeCommand : decode 0x20400000 = .op (.writeCommand 64 0) := by decide
theorem test_decode_waitReady : decode 0x21000064 = .op (.waitReady 0 100) := by decide
theorem test_decode_readAck : decode 0x22000000 = .op (.readAck 0 0) := by decide
theorem test_decode_ackMatch : decode 0x23000000 = .op (.ackMatch 0 0) := by decide
theorem test_decode_readData : decode 0x24080000 = .op (.readData 8 0) := by decide
theorem test_decode_exchange : decode 0x250103E8 = .op (.exchange 1 1000) := by decide
theorem test_decode_parseFwver : decode 0x30000000 = .op (.parseFwver 0 0) := by decide
theorem test_decode_parseSam : decode 0x31000000 = .op (.parseSam 0 0) := by decide
theorem test_decode_parseTarget : decode 0x32000000 = .op (.parseTarget 0 0) := by decide
/-- V110. -/
theorem test_decode_reserved : decode 0x05000000 = .reservedOp 0x05 := by decide

/-! ### Vectors -/

/-- V98: `STATUS = 0x20`. -/
theorem test_init : next? statusByte (exec (.init 1 0) State.reset) = some 0x20 := by decide
/-- V101: only bit 0 of `ARG` is read. -/
theorem test_init_even : next? statusByte (exec (.init 0xFE 0) State.reset) = some 0x81 := by decide
/-- V3. -/
theorem test_csumLcs : next? State.res8 (exec (.csumLcs 2 0) State.reset) = some (some 0xFE) := by decide
/-- V6. -/
theorem test_csumLcs_own_complement : next? State.res8 (exec (.csumLcs 0x80 0) State.reset) = some (some 0x80) := by
  decide
/-- V13. -/
theorem test_csumDcs : next? State.res8 (underP0 (.csumDcs 2 0) (withCb [0xAA, 0x55])) = some (some 0x2D) := by decide
/-- V18. -/
theorem test_csumDcs_unwritten : fault? (underP0 (.csumDcs 2 0) (withCb [0xAA])) = some (.unwrittenRead (.cb 1)) := by
  decide
/-- V33. -/
theorem test_csumVerify :
    next? State.res8 (exec (.csumVerify 3 0) (withRb [0x00, 0x00, 0xFF, 0x02, 0xFD, 0xD5, 0x15, 0x16])) =
      some (some 0x02) := by decide
/-- V35. -/
theorem test_csumVerify_ack : next? State.res8 (exec (.csumVerify 3 0) (withRb ack)) = some (some 0x02) := by decide
/-- V50. -/
theorem test_writeCommand :
    next? State.trace (underP0 (.writeCommand 1 0) (withCb [0x02])) =
      some [.select true, .settle, .send 0x01, .send 0x00, .send 0x00, .send 0xFF, .send 0x02, .send 0xFE, .send 0xD4,
        .send 0x02, .send 0x2A, .send 0x00, .select false] := by decide
/-- V59: the binding is checked before the range. -/
theorem test_writeCommand_unbound : next? State.err (underP0 (.writeCommand 0 0) State.reset) = some .initFailure := by
  decide
/-- V46: across the wrap of the tick. -/
theorem test_waitReady_wrap :
    next? State.err (exec (.waitReady 0 31) (oracle [0xFFFFFFF0, 0x00000010] [false] [] bound)) =
      some .transportTimeout := by decide
/-- V47, its first round: an elapsed time equal to the budget is no timeout. -/
theorem test_waitReady_equal :
    next? State.busy (exec (.waitReady 0 32) (oracle [0xFFFFFFF0, 0x00000010] [false] [] bound)) = some true := by
  decide
/-- V20. -/
theorem test_readAck : next? State.err (underP0 (.readAck 0 0) (oracle [] [] ack bound)) = some .ok := by decide
/-- V24. -/
theorem test_readAck_deviation :
    next? (fun s => (s.err, Memory.read s.ackbuf 3))
      (underP0 (.readAck 0 0) (oracle [] [] [0x00, 0x00, 0xFF, 0x01, 0xFF, 0x00] bound)) =
      some (.ackMismatch, some 0x01) := by decide
/-- V27: positional, not a search. -/
theorem test_ackMatch_shifted :
    next? State.res8 (exec (.ackMatch 0 0)
      { State.reset with ackbuf := bytesFrom 0 [0x00, 0x00, 0x00, 0xFF, 0x00, 0xFF] }) = some (some 0x00) := by decide
/-- Section 2.2: before any ACK read since reset. -/
theorem test_ackMatch_unwritten : fault? (exec (.ackMatch 0 0) State.reset) = some (.unwrittenRead (.ackbuf 0)) := by
  decide
/-- V70. -/
theorem test_readData :
    next? State.rb (underP0 (.readData 8 0) (oracle [] [] samResponse bound)) = some (bytesFrom 0 samResponse) := by
  decide
/-- V71. -/
theorem test_readData_none :
    next? State.trace (underP0 (.readData 0 0) bound) =
      some [.select true, .settle, .send 0x03, .select false] := by decide
/-- V75: 27 events, `HS = 5`. -/
theorem test_exchange :
    next? (fun s => (s.trace.length, hstateByte s, s.err, s.rb))
      (underP0 (.exchange 1 1000) (oracle [10, 12] [true, true] ack (withCb [0x02]))) =
      some (27, 0x05, .ok, []) := by decide
/-- V76. -/
theorem test_exchange_timeout :
    next? (fun s => (s.trace.length, hstateByte s, s.err, s.sel))
      (underP0 (.exchange 1 1000) (oracle [10, 1011] [false] [] (withCb [0x02]))) =
      some (16, 0x06, .transportTimeout, false) := by decide
/-- V60. -/
theorem test_parseFwver :
    next? State.fwver (underP0 (.parseFwver 0 0) (withRb fwResponse)) = some (some 0x32010607) := by decide
/-- V61. -/
theorem test_parseFwver_header :
    next? (fun s => (s.err, s.fwver)) (underP0 (.parseFwver 0 0)
      (withRb [0x00, 0xFF, 0x06, 0xFA, 0xD5, 0x02, 0x32, 0x01, 0x06, 0x07, 0xE8, 0x00])) =
      some (.responseStructureMismatch, none) := by decide
/-- V81: only offset 6 is read. -/
theorem test_parseSam :
    next? State.err (underP0 (.parseSam 0 0) (withRb [0xAA, 0xBB, 0xCC, 0xDD, 0xEE, 0x99, 0x15, 0x77])) = some .ok := by
  decide
/-- V80. -/
theorem test_parseSam_status :
    next? State.err (underP0 (.parseSam 0 0) (withRb [0x00, 0x00, 0xFF, 0x02, 0xFE, 0xD5, 0x14, 0x16])) =
      some .responseStructureMismatch := by decide
/-- V64. -/
theorem test_parseTarget :
    next? (fun s => (s.uidlen, s.uid)) (exec (.parseTarget 0 0) (withRb (targetResponse 1 4))) =
      some (some 4, bytesFrom 0 [0x12, 0x34, 0x56, 0x78]) := by decide
/-- V84: no status, no value. -/
theorem test_parseTarget_overrun :
    fault? (exec (.parseTarget 0 0) (withRb (targetResponse 1 8))) = some (.uidOverrun 8) := by decide
/-- V90. -/
theorem test_getfw :
    next? (fun s => (s.fwver, s.trace.length, hstateByte s, s.cb))
      (underP0 (.getFirmwareVersion 0 0) (oracle [0, 1] [true, true] (ack ++ fwResponse) bound)) =
      some (some 0x32010607, 43, 0x05, [(0, 0x02)]) := by decide
/-- V113. -/
theorem test_getfw_unbound :
    next? (fun s => (statusByte s, s.cb)) (underP0 (.getFirmwareVersion 0 0) State.reset) = some (0x81, []) := by decide
/-- V91: 42 events, the frame data in `CB`. -/
theorem test_sam :
    next? (fun s => (s.err, s.trace.length, s.cb))
      (underP0 (.configureSam 0 0) (oracle [0, 1] [true, true] (ack ++ samResponse) bound)) =
      some (.ok, 42, bytesFrom 0 [0x14, 0x01, 0x14, 0x01]) := by decide
/-- V92: 31 events, `RB` untouched. -/
theorem test_retries :
    next? (fun s => (s.err, s.trace.length, s.cb, s.rb))
      (underP0 (.setPassiveActivationRetries 0xFF 0) (oracle [5, 6] [true, true] ack bound)) =
      some (.ok, 31, bytesFrom 0 [0x32, 0x05, 0xFF, 0x01, 0xFF], []) := by decide
/-- V95. -/
theorem test_target :
    next? (fun s => (s.uidlen, s.uid, s.trace.length))
      (underP0 (.readPassiveTargetId 0 1000) (oracle [10, 11] [true, true] (ack ++ targetResponse 1 4) bound)) =
      some (some 4, bytesFrom 0 [0x12, 0x34, 0x56, 0x78], 53) := by decide
/-- Line 7 of P3. -/
theorem test_target_bad_ack :
    next? (fun s => (statusByte s, hstateByte s, Memory.read s.ackbuf 5))
      (underP0 (.readPassiveTargetId 0 50)
        (oracle [2000] [true] [0x00, 0x00, 0xFF, 0x00, 0xFF, 0x80] bound)) = some (0xA3, 0x06, some 0x80) := by decide
/-- V110. -/
theorem test_reserved : next? statusByte (step (hostDoes (.op 0x05000000))) = some 0xA7 := by decide
/-- V115. -/
theorem test_read_unwritten : fault? (step (hostDoes (.read 0x04))) = some (.unwrittenRead .fwver) := by decide
/-- V116: `STATUS` while running after a timeout. -/
theorem test_status_running :
    next? State.noted (step { busyHostDoes (.read 0x01) with err := .transportTimeout }) = some [(0x01, 0xB2)] := by
  decide
/-- `withFetchWord` presents the word of `INIT 1`: the very next step from reset runs it. -/
theorem test_fetch : next? State.bound (step (State.reset.withFetchWord 32 0x00010000)) = some true := by decide

/-! ### Witnesses: for each statement with hypotheses, a state and operands that meet them, for each of its clauses -/

/-- DecodeOfEncodeIsIdentity and OperationIsItsLinesOneByOne, at the largest operands. -/
theorem witness_wellFormed :
    (Instr.exchange 255 65535).wellFormed = true ∧ (Instr.init 0 0).wellFormed = true ∧ bound.busy = false := by decide

/-- EncodeOfDecodeIsIdentity. -/
theorem witness_decoded : decode 0x32FFFFFF = .op (.parseTarget 255 65535) ∧ decode 0x00000000 = .op (.init 0 0) := by
  decide

/-- StepRunsTheDecodedOperation. -/
theorem witness_programLine :
    (hostDoes (.op 0x00010000)).busy = false ∧ (hostDoes (.op 0x00010000)).host = [.op 0x00010000] ∧
      decode 0x00010000 = .op (.init 1 0) := by decide

/-- ReservedWordEndsInvalidParameter. -/
theorem witness_reservedWord :
    (hostDoes (.op 0x05000000)).busy = false ∧ (hostDoes (.op 0x05000000)).host = [.op 0x05000000] ∧
      ((0x05000000 : Word).toNat / 2 ^ 24) ∉ [0x00, 0x01, 0x02, 0x03, 0x04, 0x10, 0x11, 0x12, 0x20, 0x21, 0x22, 0x23,
        0x24, 0x25, 0x30, 0x31, 0x32] ∧
      ((0x33FFFFFF : Word).toNat / 2 ^ 24) ∉ [0x00, 0x01, 0x02, 0x03, 0x04, 0x10, 0x11, 0x12, 0x20, 0x21, 0x22, 0x23,
        0x24, 0x25, 0x30, 0x31, 0x32] := by decide

/-- CommandWordAcceptance: its four clauses, the last two at the edges of the map. -/
theorem witness_commandWord :
    ((hostDoes (.cmd 0x21000064)).busy = false ∧ (hostDoes (.cmd 0x21000064)).host = [.cmd 0x21000064]) ∧
    ((busyHostDoes (.cmd 0x21000064)).busy = true ∧ (busyHostDoes (.cmd 0x21000064)).host = [.cmd 0x21000064]) ∧
    ((busyHostDoes (.write 0x40 7)).busy = true ∧ (busyHostDoes (.write 0x40 7)).host = [.write 0x40 7] ∧
      (busyHostDoes (.write 0x7F 7)).host = [.write 0x7F 7] ∧ (busyHostDoes (.write 0x80 7)).host = [.write 0x80 7]) ∧
    ((busyHostDoes (.read 0x03)).busy = true ∧ (0x03 : Byte) ≠ 0x01 ∧ (0x03 : Byte) ≠ 0x02 ∧
      (busyHostDoes (.read 0x03)).host = [.read 0x03] ∧ (busyHostDoes (.read 0xC6)).host = [.read 0xC6]) := by decide

/-- StatusReadsGiveTheirFields, idle and busy. -/
theorem witness_statusRead :
    (hostDoes (.read 0x01)).host = [.read 0x01] ∧ (busyHostDoes (.read 0x02)).host = [.read 0x02] := by decide

/-- IdleReadsGiveTheDataOrFault: the last index of each of its ranges, and numbers outside the map. -/
theorem witness_idleRead :
    (hostDoes (.read 0x03)).busy = false ∧ (hostDoes (.read 0x03)).host = [.read 0x03] ∧
    (hostDoes (.read 0x04)).host = [.read 0x04] ∧ (hostDoes (.read 0x05)).host = [.read 0x05] ∧
    (6 < 7 ∧ (0x0E : Byte) = BitVec.ofNat 8 (0x08 + 6)) ∧ (63 < 64 ∧ (0x7F : Byte) = BitVec.ofNat 8 (0x40 + 63)) ∧
    (63 < 64 ∧ (0xBF : Byte) = BitVec.ofNat 8 (0x80 + 63)) ∧ (5 < 6 ∧ (0xC5 : Byte) = BitVec.ofNat 8 (0xC0 + 5)) ∧
    (0x0F ≤ (0x0F : Byte).toNat ∧ (0x0F : Byte).toNat ≤ 0x3F) ∧ 0xC6 ≤ (0xC6 : Byte).toNat := by decide

/-- HostWritesOnlyOneCellOfCb: the last cell, and the numbers beside the range. -/
theorem witness_hostWrite :
    (hostDoes (.write 0x7F 7)).busy = false ∧ (hostDoes (.write 0x7F 7)).host = [.write 0x7F 7] ∧
    (63 < 64 ∧ (0x7F : Byte) = BitVec.ofNat 8 (0x40 + 63)) ∧ (0x3F : Byte).toNat < 0x40 ∧
    0x80 ≤ (0x80 : Byte).toNat := by decide

/-- ResetInputIsAMoveOnlyWhenIdle, its two clauses. -/
theorem witness_resetInput :
    ((hostDoes .reset).host = [.reset] ∧ (hostDoes .reset).busy = false) ∧
    ((busyHostDoes .reset).host = [.reset] ∧ (busyHostDoes .reset).busy = true) := by decide

/-- A wait in flight with `T0 = 0`, a budget of 20 and one answer of each primitive. -/
def polling (r : Bool) (t : Word) : State :=
  oracle [t] [r] [] { bound with busy := true, tmor := 20, phase := [.poll .tmor true, .finish] }

/-- PollStepFollowsReadyThenClock: its three clauses, the budget met exactly and exceeded by one. -/
theorem witness_poll :
    ((polling true 0).busy = true ∧ (polling true 0).phase = [.poll .tmor true, .finish] ∧
      (polling true 0).host.head? = none ∧ readyAnswers 1 (polling true 0) = [true]) ∧
    (readyAnswers 1 (polling false 21) = [false] ∧ tickAnswers 1 (polling false 21) = [21] ∧
      (budgetOf .tmor (polling false 21).tmor).toNat <
        ((21 : Word).toNat + 2 ^ 32 - (polling false 21).t0.toNat) % 2 ^ 32) ∧
    (readyAnswers 1 (polling false 20) = [false] ∧ tickAnswers 1 (polling false 20) = [20] ∧
      ((20 : Word).toNat + 2 ^ 32 - (polling false 20).t0.toNat) % 2 ^ 32 ≤
        (budgetOf .tmor (polling false 20).tmor).toNat) := by decide

/-- The same step, run: one past the budget ends it, the budget itself does not. -/
theorem test_poll_round :
    next? (fun s => (s.err, s.hs, s.busy)) (step (polling false 21)) = some (.transportTimeout, .timeout, false) ∧
    next? (fun s => (s.err, s.hs, s.busy)) (step (polling false 20)) = some (.ok, .idle, true) := by decide

/-- A two-byte read with its first byte received and one move of the host, which lets the engine run. -/
def inLoop : State :=
  oracle [] [] [0x07] { bound with
    busy := true, sel := true, idx := 1, phase := [.recvRb 1, .select false, .finish], trace := [.select true]
    host := [.letRun] }

/-- StepKeepsTheInvariant: an idle engine and one inside a receive loop, and a step of each. -/
theorem witness_invariant :
    (bound.Inv ∧ next? State.bound (step bound) = some true) ∧
    (inLoop.Inv ∧ next? (fun s => (s.idx, s.phase)) (step inLoop) = some (2, [.select false, .finish])) := by
  refine ⟨⟨?_, by decide⟩, ?_, by decide⟩
  · constructor <;> simp [bound, State.reset, LinesInRange, IndexFollows, traceLevel, Memory.below]
  · refine ⟨?_, ?_, ?_, ?_, ?_, ?_, ?_, ?_, ?_, ?_, ?_, ?_, fun _ => ⟨rfl, .finish, rfl, rfl⟩, ?_, rfl⟩ <;>
      simp [inLoop, oracle, bound, State.reset, LinesInRange, lineInRange, IndexFollows, lineIndex, Memory.below,
        Config.rbCap]

/-- R16: a receive loop is entered with `IDX` at 0, whatever it was, and a compare loop leaves it at 6. -/
theorem test_loop_index :
    (match runLine .enterLoop { bound with idx := 6 } with | .go s => s.idx | _ => 1) = 0 ∧
    next? State.idx (exec (.ackMatch 0 0) { bound with ackbuf := bytesFrom 0 [0, 0, 0xFF, 0, 0xFF, 0] }) = some 6 := by
  decide

/-- AccumulatorGivesTheSum. -/
theorem witness_permuted : ([0x01, 0x02] : List Byte).Perm [0x02, 0x01] := List.Perm.swap _ _ _

/-- FrameLayoutAndSums, at its two ends. -/
theorem witness_frameData :
    (1 ≤ ([0x02] : List Byte).length ∧ ([0x02] : List Byte).length ≤ 64) ∧
    (1 ≤ (List.replicate 64 (0xFF : Byte)).length ∧ (List.replicate 64 (0xFF : Byte)).length ≤ 64) := by decide

/-- ElapsedIsTrueAcrossAWrap, at its end. -/
theorem witness_elapsed : 2 ^ 32 - 1 < 2 ^ 32 := by decide

/-- InitBindsOrFails, CsumLcsWritesTheLengthChecksum, and, at the first step, OperationsEndIdleOrWait and
FailureLeavesTheResults: an idle engine, and a failure. -/
theorem witness_idle :
    State.reset.busy = false ∧ next? State.err (exec (.init 0 0) State.reset) = some .initFailure ∧
    next? State.busy (exec (.waitReady 0 5) (oracle [0, 1] [false] [] bound)) = some true := by decide

/-- CsumDcsWritesTheDataChecksum: 1 and 64 bytes, the counts out of range, an unwritten cell. -/
theorem witness_csumDcs :
    ((withCb [0x02]).busy = false ∧ 1 < 256 ∧ ∀ i, i < 1 → Memory.read (withCb [0x02]).cb i = [(0x02 : Byte)][i]?) ∧
    (∀ i, i < 64 → Memory.read (withCb (List.replicate 64 0xFF)).cb i = (List.replicate 64 (0xFF : Byte))[i]?) ∧
    (64 < 65 ∧ 65 < 256) ∧ (2 ≤ 64 ∧ 1 < 2 ∧ Memory.read (withCb [0xAA]).cb 1 = none) := by decide

/-- An image in `RB` that ends at `RB[63]` (`o = 58`, `L = 3`). -/
def lastImage : State := { State.reset with rb := bytesFrom 58 [0x03, 0xFD, 0xD5, 0x01, 0x02, 0x28] }

/-- CsumVerifyReportsBothChecks: an image up to the last cell of `RB`, an offset and a length out of range by one
(V36, V37), an unwritten length, an unwritten data byte (V38). -/
theorem witness_csumVerify :
    (lastImage.busy = false ∧ 58 < 256 ∧ 58 + 2 + (0x03 : Byte).toNat ≤ 63 ∧ Memory.read lastImage.rb 58 = some 0x03 ∧
      Memory.read lastImage.rb 59 = some 0xFD ∧
      (∀ k, k < 3 → Memory.read lastImage.rb (58 + 2 + k) = ([0xD5, 0x01, 0x02] : List Byte)[k]?) ∧
      Memory.read lastImage.rb 63 = some 0x28) ∧
    63 < 62 + 2 ∧
    (60 + 2 ≤ 63 ∧ Memory.read (bytesFrom 60 [0x02]) 60 = some 0x02 ∧ 63 < 60 + 2 + (0x02 : Byte).toNat) ∧
    (61 + 2 ≤ 63 ∧ Memory.read State.reset.rb 61 = none) ∧
    (Memory.read (bytesFrom 3 [0x0C, 0xF4]) 3 = some 0x0C ∧ 3 + 2 + (0x0C : Byte).toNat ≤ 63 ∧ 3 < 5 ∧
      5 ≤ 3 + 2 + (0x0C : Byte).toNat ∧ Memory.read (bytesFrom 3 [0x0C, 0xF4]) 5 = none) := by decide

/-- AckMatchReportsTheCompare: six written bytes, and five. -/
theorem witness_ackMatch :
    (State.reset.busy = false ∧ ack.length = 6 ∧ ∀ i, i < 6 → Memory.read (bytesFrom 0 ack) i = ack[i]?) ∧
    (5 < 6 ∧ Memory.read (bytesFrom 0 (ack.take 5)) 5 = none) := by decide

/-- ParseFwverPacksOrRejects: ten written bytes, and nine. -/
theorem witness_parseFwver :
    (State.reset.busy = false ∧ (fwResponse.take 6).length = 6 ∧
      ∀ i, i < 10 → Memory.read (withRb fwResponse).rb i = (fwResponse.take 6 ++ [0x32, 0x01, 0x06, 0x07])[i]?) ∧
    (9 < 10 ∧ Memory.read (bytesFrom 0 (fwResponse.take 9)) 9 = none) := by decide

/-- ParseSamTestsTheStatusByte, written and unwritten. -/
theorem witness_parseSam :
    (withRb samResponse).busy = false ∧ Memory.read (withRb samResponse).rb 6 = some 0x15 ∧
      Memory.read State.reset.rb 6 = none := by decide

/-- ParseTargetExtractsTheUid: its seven clauses, at a length of 0, 7 and 8 and at counts 0, 1, 2. -/
theorem witness_parseTarget :
    (State.reset.busy = false ∧ Memory.read (withRb (targetResponse 1 7)).rb 7 = some 1 ∧
      Memory.read (withRb (targetResponse 1 7)).rb 12 = some 7 ∧ (7 : Byte).toNat ≤ 7 ∧
      ∀ k, k < 7 → Memory.read (withRb (targetResponse 1 7)).rb (13 + k) =
        ([0x12, 0x34, 0x56, 0x78, 0xBA, 0x00, 0x00] : List Byte)[k]?) ∧
    (Memory.read (withRb (targetResponse 1 0)).rb 12 = some 0 ∧ (0 : Byte).toNat ≤ 7) ∧
    Memory.read (withRb (targetResponse 0 4)).rb 7 = some 0 ∧
    (Memory.read (withRb (targetResponse 2 4)).rb 7 = some 2 ∧ 2 ≤ (2 : Byte).toNat) ∧
    (Memory.read (withRb (targetResponse 1 8)).rb 7 = some 1 ∧ Memory.read (withRb (targetResponse 1 8)).rb 12 = some 8 ∧
      7 < (8 : Byte).toNat) ∧
    Memory.read State.reset.rb 7 = none ∧
    (Memory.read (withRb ((targetResponse 1 4).take 12)).rb 7 = some 1 ∧
      Memory.read (withRb ((targetResponse 1 4).take 12)).rb 12 = none) ∧
    (Memory.read (withRb ((targetResponse 1 4).take 16)).rb 12 = some 4 ∧ 3 < (4 : Byte).toNat ∧
      Memory.read (withRb ((targetResponse 1 4).take 16)).rb (13 + 3) = none) := by decide

/-- WriteCommandSendsTheFrame, ReadAckReadsSixAndCompares and ReadDataFillsTheResponseBuffer: unbound and bound, the
counts at their ends, an unwritten cell. -/
theorem witness_transport :
    (State.reset.busy = false ∧ State.reset.bound = false) ∧
    ((withCb [0x02]).bound = true ∧ 1 ≤ 1 ∧ 1 ≤ 64 ∧
      ∀ i, i < 1 → Memory.read (withCb [0x02]).cb i = ([0x02] : List Byte)[i]?) ∧
    (∀ i, i < 64 → Memory.read (withCb (List.replicate 64 0xFF)).cb i = (List.replicate 64 (0xFF : Byte))[i]?) ∧
    (64 < 65 ∧ 65 < 256) ∧ (0 < 1 ∧ Memory.read bound.cb 0 = none) ∧ (bound.bound = true ∧ 64 ≤ 64) := by decide

/-- WaitReadyFirstRound: its three clauses (V41, V46, V47). -/
theorem witness_waitReady :
    (bound.busy = false ∧ bound.bound = true ∧ 65535 < 65536 ∧
      tickAnswers 2 (oracle [5000, 1] [true] [] bound) = [5000, 1] ∧
      readyAnswers 1 (oracle [5000, 1] [true] [] bound) = [true]) ∧
    (readyAnswers 1 (oracle [0xFFFFFFF0, 0x10] [false] [] bound) = [false] ∧
      tickAnswers 2 (oracle [0xFFFFFFF0, 0x10] [false] [] bound) = [0xFFFFFFF0, 0x10] ∧
      31 < ((0x10 : Word).toNat + 2 ^ 32 - (0xFFFFFFF0 : Word).toNat) % 2 ^ 32) ∧
    ((0x10 : Word).toNat + 2 ^ 32 - (0xFFFFFFF0 : Word).toNat) % 2 ^ 32 ≤ 32 := by decide

/-- A bound engine with one byte of frame data, under V75's script. -/
def exchanging : State := oracle [10, 12] [true, true] ack (withCb [0x02])

/-- ExchangeSucceeds. -/
theorem witness_exchange :
    exchanging.busy = false ∧ exchanging.bound = true ∧ (1 ≤ 1 ∧ 1 ≤ 64) ∧
    (∀ i, i < 1 → Memory.read exchanging.cb i = ([0x02] : List Byte)[i]?) ∧
    readyAnswers 2 exchanging = [true, true] ∧ tickAnswers 2 exchanging = [10, 12] ∧
    recvAnswers 6 exchanging = [0x00, 0x00, 0xFF, 0x00, 0xFF, 0x00] := by decide

/-- ExchangeChecksComeFirst: the counts beside the range (V79), and an unwritten second cell of two. -/
theorem witness_exchangeChecks :
    (exchanging.busy = false ∧ exchanging.bound = true ∧ 65 < 256 ∧ 64 < 65) ∧
    (2 ≤ 64 ∧ 1 < 2 ∧ Memory.read exchanging.cb 1 = none) := by decide

/-- ExchangeGoesOnWaitingWithinItsBudget: its two clauses, the budget met exactly. -/
theorem witness_exchangeWaits :
    (readyAnswers 1 (oracle [10, 1010] [false] [] (withCb [0x02])) = [false] ∧
      tickAnswers 2 (oracle [10, 1010] [false] [] (withCb [0x02])) = [10, 1010] ∧ 1000 < 65536 ∧
      ((1010 : Word).toNat + 2 ^ 32 - (10 : Word).toNat) % 2 ^ 32 ≤ 1000) ∧
    (readyAnswers 2 (oracle [10, 20, 1020] [true, false] ack (withCb [0x02])) = [true, false] ∧
      tickAnswers 3 (oracle [10, 20, 1020] [true, false] ack (withCb [0x02])) = [10, 20, 1020] ∧
      recvAnswers 6 (oracle [10, 20, 1020] [true, false] ack (withCb [0x02])) =
        [0x00, 0x00, 0xFF, 0x00, 0xFF, 0x00] ∧
      ((1020 : Word).toNat + 2 ^ 32 - (20 : Word).toNat) % 2 ^ 32 ≤ 1000) := by decide

/-- ExchangeFailsAtTheFailingStep: its three clauses (V76, V77, V78 with its second budget gone at the first poll). -/
theorem witness_exchangeFails :
    (readyAnswers 1 (oracle [10, 1011] [false] [] (withCb [0x02])) = [false] ∧
      tickAnswers 2 (oracle [10, 1011] [false] [] (withCb [0x02])) = [10, 1011] ∧
      1000 < ((1011 : Word).toNat + 2 ^ 32 - (10 : Word).toNat) % 2 ^ 32 ∧ 1000 < 65536) ∧
    (readyAnswers 1 (oracle [10] [true] [0x00, 0x00, 0xFF, 0x00, 0xFF, 0x80] (withCb [0x02])) = [true] ∧
      tickAnswers 1 (oracle [10] [true] [0x00, 0x00, 0xFF, 0x00, 0xFF, 0x80] (withCb [0x02])) = [10] ∧
      recvAnswers 6 (oracle [10] [true] [0x00, 0x00, 0xFF, 0x00, 0xFF, 0x80] (withCb [0x02])) ≠
        [0x00, 0x00, 0xFF, 0x00, 0xFF, 0x00]) ∧
    (readyAnswers 2 (oracle [10, 20, 1021] [true, false] ack (withCb [0x02])) = [true, false] ∧
      tickAnswers 3 (oracle [10, 20, 1021] [true, false] ack (withCb [0x02])) = [10, 20, 1021] ∧
      recvAnswers 6 (oracle [10, 20, 1021] [true, false] ack (withCb [0x02])) =
        [0x00, 0x00, 0xFF, 0x00, 0xFF, 0x00] ∧
      1000 < ((1021 : Word).toNat + 2 ^ 32 - (20 : Word).toNat) % 2 ^ 32) := by decide

/-- V78: the second wait of an exchange overruns its budget at its second poll. -/
def overrunning : State := oracle [10, 20, 1020, 1021] [true, false, false] ack (withCb [0x02])

/-- A bound engine under the script of P2 line 4: the chip is ready at the third poll of the second wait. -/
def delayed (r : List Byte) : State := oracle [10, 11, 400, 800] [true, false, false, true] (ack ++ r) (withCb [0x02])

/-- Steps after `exec` are an operation's own: none, or those of an idle engine whose host makes no move. -/
theorem witness_ownSteps : OwnSteps 0 (hostDoes .wait) ∧ OwnSteps 2 overrunning ∧ OwnSteps 2 (delayed []) :=
  ⟨.inl rfl, .inr ⟨rfl, rfl⟩, .inr ⟨rfl, rfl⟩⟩

/-- ExchangeEqualsItsUnits: an exchange that ends in its first step, one that ends after two open rounds, and one that
fails after one. -/
theorem witness_exchangeEnds :
    exchanging.busy = false ∧ next? State.busy (runOp 0 (.exchange 1 1000) exchanging) = some false ∧
    next? (fun s => (s.busy, s.err, s.hs)) (runOp 2 (.exchange 1 1000) (delayed [])) =
      some (false, .ok, .responseReady) ∧
    next? (fun s => (s.busy, s.err, s.hs)) (runOp 1 (.exchange 1 1000) overrunning) =
      some (false, .transportTimeout, .timeout) := by
  refine ⟨rfl, ?_, ?_, ?_⟩ <;> decide

/-- FailureLeavesTheResults, RegistersAndBuffersHaveTheirWriters, EventsComeFromTransportOperationsOnly,
OperationsKeepTheSelectFraming and OperationsEndIdleOrWait: an operation that waits, and fails in a later step. -/
theorem witness_laterStep :
    overrunning.busy = false ∧ overrunning.sel = false ∧
    next? State.busy (exec (.exchange 1 1000) overrunning) = some true ∧
    next? (fun s => (s.busy, s.err)) (runOp 1 (.exchange 1 1000) overrunning) = some (false, .transportTimeout) ∧
    usesTransport (.csumLcs 0 0) = false ∧ next? State.res8 (runOp 2 (.csumLcs 0 0) bound) = some (some 0x00) := by
  refine ⟨rfl, rfl, ?_, ?_, rfl, ?_⟩ <;> decide

/-- LaterPollsOnlyDelayTheHandshake: an exchange, and the request of P2 line 4 with its script. -/
theorem witness_laterPolls :
    ((delayed []).busy = false ∧ (delayed []).bound = true ∧ (delayed []).host = [] ∧
      isHandshake (.exchange 1 1000) = true ∧ SendsData Config.params (.exchange 1 1000) (delayed []) [0x02] ∧
      WithinBudget (handshakeBudget Config.params (.exchange 1 1000)) 10 [] ∧
      WithinBudget (handshakeBudget Config.params (.exchange 1 1000)) 11 [400, 800] ∧
      readyAnswers (0 + 1 + (2 + 1)) (delayed []) = List.replicate 0 false ++ [true] ++ (List.replicate 2 false ++ [true]) ∧
      tickAnswers (0 + 1 + (2 + 1)) (delayed []) = 10 :: [] ++ 11 :: [400, 800] ∧
      recvAnswers 6 (delayed []) = [0x00, 0x00, 0xFF, 0x00, 0xFF, 0x00]) ∧
    (isHandshake (.readPassiveTargetId 0 1000) = true ∧
      SendsData Config.params (.readPassiveTargetId 0 1000) (delayed (targetResponse 1 4)) (inlistData Config.params 0) ∧
      WithinBudget (handshakeBudget Config.params (.readPassiveTargetId 0 1000)) 11 [400, 800] ∧
      recvAnswers 6 (delayed (targetResponse 1 4)) = [0x00, 0x00, 0xFF, 0x00, 0xFF, 0x00]) := by
  refine ⟨⟨rfl, rfl, rfl, rfl, ⟨by decide, by decide, rfl, by unfold Holds; decide⟩, ?_, ?_, by decide, by decide,
    by decide⟩, rfl, rfl, ?_, by decide⟩ <;> simp [WithinBudget, handshakeBudget, requestBudget]

/-- LaterFailuresAreThoseOfTheFirstPoll: an overrun after a failed poll in the first wait and in the second (V78), and
an ACK that does not match after a failed poll. -/
theorem witness_laterFailures :
    (overrunning.busy = false ∧ overrunning.bound = true ∧ overrunning.host = [] ∧
      isHandshake (.exchange 1 1000) = true ∧ SendsData Config.params (.exchange 1 1000) overrunning [0x02]) ∧
    (WithinBudget (handshakeBudget Config.params (.exchange 1 1000)) 10 [1010] ∧
      readyAnswers 2 (oracle [10, 1010, 1011] [false, false] [] (withCb [0x02])) = List.replicate 2 false ∧
      tickAnswers 3 (oracle [10, 1010, 1011] [false, false] [] (withCb [0x02])) = 10 :: ([1010] ++ [1011]) ∧
      handshakeBudget Config.params (.exchange 1 1000) < ((1011 : Word).toNat + 2 ^ 32 - (10 : Word).toNat) % 2 ^ 32) ∧
    (readyAnswers 2 (oracle [10, 1010] [false, true] [] (withCb [0x02])) = List.replicate 1 false ++ [true] ∧
      tickAnswers 2 (oracle [10, 1010] [false, true] [] (withCb [0x02])) = 10 :: [1010] ∧
      recvAnswers 6 (oracle [10, 1010] [false, true] (List.replicate 6 0xFF) (withCb [0x02])) ≠
        [0x00, 0x00, 0xFF, 0x00, 0xFF, 0x00]) ∧
    (readyAnswers (0 + 1 + (1 + 1)) overrunning = List.replicate 0 false ++ [true] ++ List.replicate (1 + 1) false ∧
      tickAnswers (0 + 1 + (1 + 2)) overrunning = 10 :: [] ++ 20 :: ([1020] ++ [1021]) ∧
      recvAnswers 6 overrunning = [0x00, 0x00, 0xFF, 0x00, 0xFF, 0x00] ∧
      WithinBudget (handshakeBudget Config.params (.exchange 1 1000)) 20 [1020] ∧
      handshakeBudget Config.params (.exchange 1 1000) <
        ((1021 : Word).toNat + 2 ^ 32 - (20 : Word).toNat) % 2 ^ 32) := by
  refine ⟨⟨rfl, rfl, rfl, rfl, ⟨by decide, by decide, rfl, by unfold Holds; decide⟩⟩,
    ⟨?_, by decide, by decide, by decide⟩, ⟨by decide, by decide, by decide⟩, by decide, by decide, by decide, ?_,
    by decide⟩ <;> simp [WithinBudget, handshakeBudget]

/-- A bound engine under the script of V40 and, with a true last answer, under that of V42 one round later. -/
def polled (last : Bool) : State := oracle [5000, 5050, 5100, 5101] [false, false, last] [] bound

/-- WaitReadyEndsAtItsFirstTrueAnswer: ready at its third poll, over the budget there (V40), and the budget just met. -/
theorem witness_waitReadyLater :
    ((polled true).busy = false ∧ (polled true).bound = true ∧ 100 < 65536 ∧ OwnSteps 2 (polled true) ∧
      WithinBudget 100 5000 [5050, 5100] ∧ readyAnswers 3 (polled true) = List.replicate 2 false ++ [true] ∧
      tickAnswers 3 (polled true) = 5000 :: [5050, 5100]) ∧
    (readyAnswers 3 (polled false) = List.replicate 3 false ∧
      tickAnswers 4 (polled false) = 5000 :: ([5050, 5100] ++ [5101]) ∧
      100 < ((5101 : Word).toNat + 2 ^ 32 - (5000 : Word).toNat) % 2 ^ 32) ∧
    (WithinBudget 100 5000 [5050] ∧ readyAnswers 2 (polled false) = List.replicate 2 false ∧
      tickAnswers 3 (polled false) = 5000 :: ([5050] ++ [5100]) ∧
      ((5100 : Word).toNat + 2 ^ 32 - (5000 : Word).toNat) % 2 ^ 32 ≤ 100) := by
  refine ⟨⟨rfl, rfl, by decide, .inr ⟨rfl, rfl⟩, ?_, by decide, by decide⟩, ⟨by decide, by decide, by decide⟩, ?_,
    by decide, by decide, by decide⟩ <;> simp [WithinBudget]

/-- WaitReadyEndsOnlySo: V40, and the same with a true third answer. -/
theorem witness_waitReadyEnds :
    (polled false).busy = false ∧ (polled false).bound = true ∧ 100 < 65536 ∧
    next? (fun s => (s.busy, s.err)) (runOp 2 (.waitReady 0 100) (polled false)) = some (false, .transportTimeout) ∧
    next? (fun s => (s.busy, s.err)) (runOp 2 (.waitReady 0 100) (polled true)) = some (false, .ok) := by decide

/-- A bound engine, a chip ready at each first poll that acknowledges and answers. -/
def answering (r : List Byte) : State := oracle [0, 1] [true, true] (ack ++ r) bound

/-- GetFirmwareVersionReadsAndPacks. -/
theorem witness_getfw :
    (answering fwResponse).busy = false ∧ (answering fwResponse).bound = true ∧
    readyAnswers 2 (answering fwResponse) = [true, true] ∧ tickAnswers 2 (answering fwResponse) = [0, 1] ∧
    (fwResponse.take 6).length = 6 ∧
    recvAnswers 18 (answering fwResponse) =
      [0x00, 0x00, 0xFF, 0x00, 0xFF, 0x00] ++ (fwResponse.take 6 ++ [0x32, 0x01, 0x06, 0x07, 0xE8, 0x00]) := by decide

/-- ConfigureSamTestsOneByte. -/
theorem witness_sam :
    (answering samResponse).busy = false ∧ (answering samResponse).bound = true ∧
    readyAnswers 2 (answering samResponse) = [true, true] ∧ tickAnswers 2 (answering samResponse) = [0, 1] ∧
    (samResponse.take 6).length = 6 ∧
    recvAnswers 14 (answering samResponse) =
      [0x00, 0x00, 0xFF, 0x00, 0xFF, 0x00] ++ (samResponse.take 6 ++ [0x15, 0x16]) := by decide

/-- SetRetriesStopsAfterTheHandshake. -/
theorem witness_retries :
    (answering []).busy = false ∧ (answering []).bound = true ∧ readyAnswers 2 (answering []) = [true, true] ∧
    tickAnswers 2 (answering []) = [0, 1] ∧ recvAnswers 6 (answering []) = [0x00, 0x00, 0xFF, 0x00, 0xFF, 0x00] := by
  decide

/-- ReadPassiveTargetReturnsTheUid: one tag with a UID of 7 bytes, no tag, and a length of 8. -/
theorem witness_target :
    ((answering (targetResponse 1 7)).busy = false ∧ (answering (targetResponse 1 7)).bound = true ∧
      readyAnswers 2 (answering (targetResponse 1 7)) = [true, true] ∧
      tickAnswers 2 (answering (targetResponse 1 7)) = [0, 1] ∧ (targetResponse 1 7).length = 20 ∧
      recvAnswers 26 (answering (targetResponse 1 7)) = [0x00, 0x00, 0xFF, 0x00, 0xFF, 0x00] ++ targetResponse 1 7 ∧
      (targetResponse 1 7)[7]? = some 1 ∧ (targetResponse 1 7)[12]? = some 7 ∧ (7 : Byte).toNat ≤ 7) ∧
    ((targetResponse 0 8)[7]? = some 0 ∧ (0 : Byte) ≠ 1) ∧
    ((targetResponse 1 8)[7]? = some 1 ∧ (targetResponse 1 8)[12]? = some 8 ∧ 7 < (8 : Byte).toNat ∧
      recvAnswers 26 (answering (targetResponse 1 8)) = [0x00, 0x00, 0xFF, 0x00, 0xFF, 0x00] ++ targetResponse 1 8) := by
  decide

/-- RequestsFailInTheHandshake: its three clauses, for the request whose budget is its operand, the second poll over
the budget and the first one at it. -/
theorem witness_requestFails :
    (isRequest (.readPassiveTargetId 0 50) = true ∧ bound.busy = false ∧ bound.bound = true ∧
      readyAnswers 1 (oracle [0, 50] [false] [] bound) = [false] ∧
      tickAnswers 2 (oracle [0, 50] [false] [] bound) = [0, 50] ∧
      ((50 : Word).toNat + 2 ^ 32 - (0 : Word).toNat) % 2 ^ 32 ≤
        requestBudget Config.params (.readPassiveTargetId 0 50) ∧
      requestBudget Config.params (.readPassiveTargetId 0 50) <
        ((51 : Word).toNat + 2 ^ 32 - (0 : Word).toNat) % 2 ^ 32) ∧
    (readyAnswers 1 (oracle [0] [true] (List.replicate 6 0xFF) bound) = [true] ∧
      tickAnswers 1 (oracle [0] [true] (List.replicate 6 0xFF) bound) = [0] ∧
      recvAnswers 6 (oracle [0] [true] (List.replicate 6 0xFF) bound) ≠ [0x00, 0x00, 0xFF, 0x00, 0xFF, 0x00]) ∧
    (readyAnswers 2 (oracle [1000, 1010, 1061] [true, false] ack bound) = [true, false] ∧
      tickAnswers 3 (oracle [1000, 1010, 1061] [true, false] ack bound) = [1000, 1010, 1061] ∧
      recvAnswers 6 (oracle [1000, 1010, 1061] [true, false] ack bound) = [0x00, 0x00, 0xFF, 0x00, 0xFF, 0x00]) := by
  decide

/-- InitFailureIsTheFirstCheck: an unbound engine with an operation that uses the transport, and `INIT 0`. -/
theorem witness_initFailure :
    State.reset.busy = false ∧ (State.reset.bound = false ∧ usesTransport (.writeCommand 0 0) = true) ∧
    ((Instr.init 0xFE 0).opcode = 0x00 ∧ (Instr.init 0xFE 0).arg % 2 = 0) := by decide

/-- RegistersAndBuffersHaveTheirWriters, EventsComeFromTransportOperationsOnly and OperationsKeepTheSelectFraming: an
operation that answers a next state, from an idle engine with chip-select deasserted; one that makes no event. -/
theorem witness_operation :
    exchanging.busy = false ∧ exchanging.sel = false ∧ exchanging.bound = true ∧
    next? State.sel (exec (.exchange 1 1000) exchanging) = some false ∧
    usesTransport (.csumLcs 0 0) = false ∧ isRequest (.csumLcs 0 0) = false ∧
    (busyHostDoes .wait).busy = true ∧ next? State.busy (exec (.csumLcs 0 0) (busyHostDoes .wait)) = some true ∧
    next? State.res8 (exec (.csumLcs 0 0) State.reset) = some (some 0x00) := by decide

/-- The response that follows the ACK, one tag with a UID length of 8, as it comes to stand in `RB`. -/
theorem longUid_received :
    Memory.writeRange [] 0 (Answers.take Config.recvAnswer 20 (Answers.skip 6 ⟨ack ++ targetResponse 1 8, 0⟩)) =
      bytesFrom 0 (targetResponse 1 8) := rfl

theorem longUid_fields :
    Memory.read (bytesFrom 0 (targetResponse 1 8)) Config.ptCountOfs = some 1 ∧
    Memory.read (bytesFrom 0 (targetResponse 1 8)) Config.ptUidLenOfs = some 8 := by decide

/-- EngineOperationsReadOnlyFreshBytes: the one fault, two steps after the first. The frame data is opaque, so the run
goes by the laws. -/
theorem witness_freshBytes :
    (delayed (targetResponse 1 8)).bound = true ∧ isRequest (.readPassiveTargetId 0 1000) = true ∧
    OwnSteps 2 (delayed (targetResponse 1 8)) ∧
    runOp 2 (.readPassiveTargetId 0 1000) (delayed (targetResponse 1 8)) = .fault (.uidOverrun 8) := by
  refine ⟨rfl, rfl, .inr ⟨rfl, rfl⟩, ?_⟩
  obtain ⟨d, hd⟩ : ∃ d, d = inlistData Config.params 0 := ⟨_, rfl⟩
  have el : linesOf Config.params (.readPassiveTargetId 0 1000) = ([.requireBound] ++ loadCbLines 0 d) ++
      (exchangeBody Config.params d.length .tmor ++ (readBody Config.params 20 ++ [.parseTarget, .finish])) := by
    simp [linesOf, readTargetLines, requestLines, responseLines, Config.nPt, hd, argByte]
  rw [runOp_idle 2 rfl, el]
  obtain ⟨s, hs⟩ : ∃ s, s = beginOp (.readPassiveTargetId 0 1000) (([.requireBound] ++ loadCbLines 0 d) ++
      (exchangeBody Config.params d.length .tmor ++ (readBody Config.params 20 ++ [.parseTarget, .finish])))
      (delayed (targetResponse 1 8)) := ⟨_, rfl⟩
  have hb : s.bound = true := by rw [hs]; rfl
  have hr : s.readyIn = ⟨[true, false, false, true], 0⟩ := by rw [hs]; rfl
  have ht : s.tickIn = ⟨[10, 11, 400, 800], 0⟩ := by rw [hs]; rfl
  have hv : s.recvIn = ⟨ack ++ targetResponse 1 8, 0⟩ := by rw [hs]; rfl
  have hm : s.tmor = 1000 := by rw [hs]; rfl
  have hrb : s.rb = [] := by rw [hs]; rfl
  have hh : s.busy = true ∧ s.host = [] := by rw [hs]; exact ⟨rfl, rfl⟩
  rw [← hs, runFor_toFirstWait 2 Config.params .tmor d (through_requestHead s d hb) (overwrites_writeRange _ _).1]
  obtain ⟨w, hw⟩ : ∃ w, w = afterFrame Config.params d { s with cb := Memory.writeRange s.cb 0 d } := ⟨_, rfl⟩
  have wr : w.readyIn = s.readyIn := by rw [hw]; rfl
  have wt : w.tickIn = s.tickIn := by rw [hw]; rfl
  have e1 := runFor_laterWait (s := w) (b := .tmor) (x := true) (B := (budgetOf .tmor w.tmor).toNat)
    (ls := afterFirstWait Config.params .tmor ++ (readBody Config.params 20 ++ [.parseTarget, .finish])) (t0 := 10)
    (ts := []) 2 (.inl rfl) rfl (by rw [readyAnswers, wr, hr]; rfl) (by rw [tickAnswers, wt, ht]; rfl)
    (by simp [WithinBudget])
  rw [← hw]
  refine e1.trans ?_
  have ha : recvAnswers 6 (afterLaterWait [] w) = ack := by
    rw [recvAnswers, show (afterLaterWait [] w).recvIn = s.recvIn by rw [hw]; rfl, hv]; rfl
  rw [runFor_toSecondWait 2 Config.params .tmor (by rw [ha]; decide)]
  obtain ⟨v, hv'⟩ : ∃ v : State, v = { afterAckRead Config.params (afterLaterWait [] w) with hs := .waitingReady2 } :=
    ⟨_, rfl⟩
  have vr : v.readyIn = Answers.skip 1 s.readyIn := by rw [hv', hw]; rfl
  have vt : v.tickIn = Answers.skip 1 s.tickIn := by rw [hv', hw]; rfl
  have vm : v.tmor = s.tmor := by rw [hv', hw]; rfl
  have e2 := runFor_laterWait (s := v) (b := .tmor) (x := true) (B := 1000)
    (ls := [.setHs .responseReady] ++ (readBody Config.params 20 ++ [.parseTarget, .finish])) (t0 := 11)
    (ts := [400, 800]) 0 (.inr (by rw [hv', hw]; exact hh)) (by rw [vm, hm]; rfl)
    (by rw [readyAnswers, vr, hr]; rfl) (by rw [tickAnswers, vt, ht]; rfl) (by simp [WithinBudget])
  rw [← hv']
  refine e2.trans ?_
  obtain ⟨u, hu⟩ : ∃ u : State, u = { afterLaterWait [400, 800] v with hs := .responseReady } := ⟨_, rfl⟩
  have e3 : runLines ([.setHs .responseReady] ++ (readBody Config.params 20 ++ [.parseTarget, .finish]))
      (afterLaterWait [400, 800] v) = runLines [.parseTarget, .finish] (afterRead Config.params 20 u) := by
    rw [hu]
    exact through_append (through_one rfl) (through_readBody Config.params _ 20) _
  have ur : u.rb = s.rb ∧ u.recvIn = Answers.skip 6 s.recvIn := by rw [hu, hv', hw]; exact ⟨rfl, rfl⟩
  have ub : (afterRead Config.params 20 u).rb = bytesFrom 0 (targetResponse 1 8) := by
    rw [afterRead, recvAnswers, ur.1, ur.2, hrb, hv]
    exact longUid_received
  rw [runFor_zero, e3, runLines_cons, runLine, lineParseTarget, ub]
  rw [longUid_fields.1]
  simp only [show tagCountErr 1 = .ok from rfl, extractUid, ub, longUid_fields.2]
  rfl

/-- EveryWaitEndsWhenTheTickPasses: a wait whose next reading of the clock is one past its budget. -/
theorem witness_tickPasses :
    (polling false 21).host = [] ∧ (polling false 21).busy = true ∧
    (polling false 21).phase = [.poll .tmor true, .finish] ∧
    TickPasses (budgetOf .tmor (polling false 21).tmor) (polling false 21) :=
  ⟨rfl, rfl, rfl, 0, by decide⟩

/-- A wait for 10 ms at its second reading of the clock: 5 ms have passed, and 11 at the next reading. -/
def waiting : State := oracle [0, 5, 11] [false, false] [] bound

/-- OperationsEndWhenTheTickIsLive: an operation in a wait, and every state of its run that polls. -/
theorem witness_tickLive :
    waiting.busy = false ∧ waiting.host = [] ∧ ∃ t, exec (.waitReady 0 10) waiting = .next t ∧ t.busy = true ∧ TickLive t := by
  refine ⟨rfl, rfl, _, rfl, rfl, ?_⟩
  rintro (_ | k) u b x ls hu hb hp
  · obtain rfl := Host.Outcome.next.inj hu
    obtain ⟨rfl, -⟩ := Line.poll.inj (List.cons.inj hp).1
    exact ⟨0, by decide⟩
  · rw [runSteps_succ k rfl, runSteps_idle rfl rfl] at hu
    obtain rfl := Host.Outcome.next.inj hu
    cases hb

end Sys2Proof.Tests
end

section
/-! PROOFS. Liveness under R8's fairness premise on the clock (spec/00_scope.md R8): a wait in flight ends, and so does
the operation it belongs to, because every wait that ends leaves fewer lines to run. -/

namespace Sys2Proof.Machine

/-! ### One wait -/

/-- R106, R107: the premises of an open round as the facts about numbers the statements speak of. -/
theorem leavesOpen_iff (b : Budget) (n : Nat) (w : State) :
    LeavesOpen b n w ↔ readyAt n w = false ∧
      ((tickAt n w).toNat + 2 ^ 32 - w.t0.toNat) % 2 ^ 32 ≤ (budgetOf b w.tmor).toNat := by
  rw [LeavesOpen, lt_elapsed_iff, not_lt]

/-- R106, R107: the same for the round that overruns the budget. -/
theorem overruns_iff (b : Budget) (n : Nat) (w : State) :
    Overruns b n w ↔ readyAt n w = false ∧
      (budgetOf b w.tmor).toNat < ((tickAt n w).toNat + 2 ^ 32 - w.t0.toNat) % 2 ^ 32 := by
  rw [Overruns, lt_elapsed_iff]

/-- A clock that passes the budget leaves only finitely many rounds of the wait open. -/
theorem TickPasses.exists_last_round {b : Budget} {w : State} (h : TickPasses (budgetOf b w.tmor) w) :
    ∃ n, (∀ j, j < n → LeavesOpen b j w) ∧ (readyAt n w = true ∨ Overruns b n w) := by
  obtain ⟨m, hm⟩ := h
  rcases wait_course m b w with ⟨n, -, hopen, hready⟩ | ⟨n, -, hopen, hover⟩ | hopen
  · exact ⟨n, hopen, .inl hready⟩
  · exact ⟨n, hopen, .inr hover⟩
  · exact absurd hm (hopen m le_rfl).2

/-- A wait in flight runs through its open rounds, a step each, to a step that runs the lines after the wait or raises
TransportTimeout. -/
theorem TickPasses.wait_ends {s : State} {b : Budget} {x : Bool} {ls : List Line} (hh : s.host = [])
    (hb : s.busy = true) (hp : s.phase = .poll b x :: ls) (h : TickPasses (budgetOf b s.tmor) s) :
    ∃ k, (∀ j, j < k → LeavesOpen b j s) ∧ runSteps k s = .next (afterRounds k s) ∧
      ((readyAt k s = true ∧ step (afterRounds k s) = runLines ls (afterReady (afterRounds k s))) ∨
        (Overruns b k s ∧
          step (afterRounds k s) = .next (raiseInHandshake x .transportTimeout (afterRounds (k + 1) s)))) := by
  obtain ⟨k, hopen, hlast⟩ := h.exists_last_round
  refine ⟨k, hopen, runSteps_rounds k hh hb hp hopen, ?_⟩
  rcases step_afterRounds k hh hb hp with hready | ⟨hr, hover, hstep⟩ | ⟨hr, hwithin, -⟩
  · exact .inl hready
  · exact .inr ⟨⟨hr, hover⟩, hstep⟩
  · rcases hlast with hready | ⟨-, hover⟩
    · simp [hr] at hready
    · exact absurd hover hwithin

/-- The state in which the lines after a wait begin, once round `k` finds the chip ready. -/
theorem afterReady_afterRounds {k : Nat} {s : State} (h : readyAt k s = true) :
    afterReady (afterRounds k s) = { afterRounds k s with
      readyIn := Answers.skip (k + 1) s.readyIn
      trace := (afterRounds k s).trace ++ [.ready true] } := by
  rw [afterReady, readyNow_afterRounds, h]
  simp [emit, afterRounds, skip_succ_last]

/-- R156: the state a wait leaves that ends with TransportTimeout. -/
theorem raiseInHandshake_afterRounds (x : Bool) (e : Err) (n : Nat) (s : State) :
    raiseInHandshake x e (afterRounds n s) = { afterRounds n s with
      hs := if x then .timeout else s.hs
      err := e
      busy := false
      phase := [] } := by
  cases x <;> rfl

/-- Settles O54: the first round that does not leave the wait open is there, since the clock passes the budget. -/
theorem everyWaitEndsWhenTheTickPasses : Obligations.EveryWaitEndsWhenTheTickPasses := by
  intro s b x ls hh hb hp h
  obtain ⟨k, hopen, hrounds, hlast⟩ := h.wait_ends hh hb hp
  refine ⟨k, fun j hj => (leavesOpen_iff b j s).1 (hopen j hj), hrounds, ?_⟩
  rcases hlast with ⟨hready, hstep⟩ | ⟨hover, hstep⟩
  · exact .inl ⟨hready, by rw [hstep, afterReady_afterRounds hready]⟩
  · obtain ⟨hr, hlt⟩ := (overruns_iff b k s).1 hover
    exact .inr ⟨hr, hlt, by rw [hstep, raiseInHandshake_afterRounds]⟩

/-! ### A whole operation -/

/-- The run from `s` comes to an idle engine, or to a fault, in finitely many steps. -/
def ComesToEnd (s : State) : Prop :=
  ∃ k, (∃ u, runSteps k s = .next u ∧ u.busy = false) ∨ ∃ f, runSteps k s = .fault f

theorem ComesToEnd.of_idle {s : State} (h : s.busy = false) : ComesToEnd s := ⟨0, .inl ⟨s, rfl, h⟩⟩

theorem ComesToEnd.of_runSteps {s t : State} {m : Nat} (h : runSteps m s = .next t) : ComesToEnd t → ComesToEnd s
  | ⟨k, hk⟩ => ⟨m + k, by rwa [runSteps_add m k h]⟩

theorem ComesToEnd.of_fault {s : State} {k : Nat} {f : Fault} (h : runSteps k s = .fault f) : ComesToEnd s :=
  ⟨k, .inr ⟨f, h⟩⟩

/-- The lines after a poll still end the operation, the poll itself being no line that ends one. -/
theorem lines_after_poll_end {b : Budget} {x : Bool} {rest ls : List Line} (hs : .poll b x :: rest <:+ ls)
    (hl : ∃ l, ls.getLast? = some l ∧ endsOperation l = true) :
    ∃ l, rest.getLast? = some l ∧ endsOperation l = true := by
  obtain ⟨l, hl, he⟩ := hl
  have hcons : (Line.poll b x :: rest).getLast? = some l := suffix_last hs (by simp) hl
  refine ⟨l, suffix_last (List.suffix_cons _ rest) ?_ hcons, he⟩
  rintro rfl
  obtain rfl : Line.poll b x = l := by simpa using hcons
  cases he

/-- An operation that has ended or waits comes to its end when the tick is live: each wait ends, and the lines after it
are fewer. -/
theorem Stands.comesToEnd {ls : List Line} {t : State} (hs : Stands ls t)
    (hl : ∃ l, ls.getLast? = some l ∧ endsOperation l = true) (hh : t.host = []) (ht : TickLive t) :
    ComesToEnd t := by
  induction hn : ls.length using Nat.strong_induction_on generalizing ls t with
  | _ n ih =>
    rcases hs with ⟨hidle, -⟩ | ⟨hb, b, x, rest, hp, hsuf⟩
    · exact .of_idle hidle
    obtain ⟨k, -, hrounds, hlast⟩ := TickPasses.wait_ends hh hb hp (ht 0 t b x rest rfl hb hp)
    have hnext : runSteps (k + 1) t = step (afterRounds k t) := runSteps_last k hrounds
    rcases hlast with ⟨-, hstep⟩ | ⟨-, hstep⟩
    · rw [hstep] at hnext
      cases hrun : runLines rest (afterReady (afterRounds k t)) with
      | next u =>
        rw [hrun] at hnext
        have hrest := lines_after_poll_end hsuf hl
        have hshort : rest.length < n := by
          have hle : rest.length + 1 ≤ ls.length := hsuf.length_le
          omega
        have hhost : u.host = [] :=
          (runLines_keeps (·.host) (fun _ _ => rfl) (fun _ _ _ _ e => e.hostSide.1) hrun).trans hh
        have hstands : Stands rest u := runLines_ends (s := afterReady (afterRounds k t)) hrest hb hrun
        exact .of_runSteps hnext (ih _ hshort hstands hrest hhost (ht.after hnext) rfl)
      | fault f => exact .of_fault (hnext.trans hrun)
      | refused r => exact absurd hrun (runLines_not_refused _ _ r)
    · exact .of_runSteps (hnext.trans hstep) (.of_idle (raiseInHandshake_busy _ _ _))

/-- Settles O55, by induction on the number of lines still to run. -/
theorem operationsEndWhenTheTickIsLive : Obligations.OperationsEndWhenTheTickIsLive := by
  intro i s t hb hh hx ht
  have hop : runOp 0 i s = .next t := (runOp_zero i s).trans hx
  have hstands : Stands (linesOf Config.params i) t :=
    (runOp_stands (Q := fun _ => True) hb (.inl rfl) (fun _ _ => trivial) (fun _ _ _ _ _ _ _ _ _ _ => trivial) hop).1
  have hhost : t.host = s.host :=
    runOp_keeps (·.host) (fun _ _ => rfl) (.inl rfl) (fun _ => rfl) (fun _ _ _ _ e => e.hostSide.1) hop
  exact hstands.comesToEnd ⟨_, linesOf_last _ _, rfl⟩ (hhost.trans hh) ht

end Sys2Proof.Machine
end

section
/-! PROOFS. The host's port (spec/20_memory.md R43, R46, spec/30_encoding.md R63, spec/10_state.md R12 to R14, R25, R27):
the register map by its numbers, and what a step does that makes a bare write of `CMD`, a write of `CB` or a read. -/

namespace Sys2Proof.Machine

/-- A step with a move of the host pending makes that move. -/
theorem step_of_move {s : State} {m : HostMove} {rest : List HostMove} (h : s.host = m :: rest) :
    step s = hostMove m { s with host := rest } s := by
  rw [step, h]

/-! ### Acceptance (R63) -/

theorem writeCmd_op {s : State} {w : Word} {i : Instr} (hb : s.busy = false) (hd : decode w = .op i) :
    writeCmd w s = .next (beginOp i (linesOf Config.params i) s) := by
  simp [writeCmd, hb, hd]

theorem writeCmd_reserved {s : State} {w : Word} {code : Byte} (hb : s.busy = false) (hd : decode w = .reservedOp code) :
    writeCmd w s = .next (beginReserved w s) := by
  simp [writeCmd, hb, hd]

theorem writeCmd_busy {s : State} {w : Word} (hb : s.busy = true) : writeCmd w s = .next s := by
  simp [writeCmd, hb]

/-- R61, R62: the operation that a code and its operands name has that code and those operands. -/
theorem operationOf_fields {code arg tmo : Nat} {i : Instr} (h : operationOf code arg tmo = some i) :
    i.opcode.toNat = code ∧ i.arg = arg ∧ i.tmo = tmo := by
  unfold operationOf at h
  split at h <;> cases h <;> exact ⟨rfl, rfl, rfl⟩

/-- R61: a decoded operation has the fields of its command word. -/
theorem decode_fields {w : Word} {i : Instr} (h : decode w = .op i) :
    i.opcode = opField w ∧ argByte i.arg = argField w ∧ tmoHalf i.tmo = tmoField w := by
  rw [decode] at h
  split at h
  · next j hj =>
    obtain rfl := Decoded.op.inj h
    obtain ⟨hop, harg, htmo⟩ := operationOf_fields hj
    exact ⟨BitVec.eq_of_toNat_eq hop, by simp [argByte, harg], by simp [tmoHalf, htmo]⟩
  · cases h

/-! ### The register map by its numbers (R43) -/

/-- The number of a register in the map of R43. -/
def HostReg.number : HostReg → Nat
  | .cmd => 0x00
  | .status => 0x01
  | .hstate => 0x02
  | .res8 => 0x03
  | .fwver => 0x04
  | .uidlen => 0x05
  | .uid i => 0x08 + i
  | .cb i => 0x40 + i
  | .rb i => 0x80 + i
  | .ackbuf i => 0xC0 + i

/-- The cell of a buffer register is one of its buffer. -/
def HostReg.InMap : HostReg → Prop
  | .uid i => i < 7
  | .cb i | .rb i => i < 64
  | .ackbuf i => i < 6
  | _ => True

/-- R43: a number stands for the register whose number it is. -/
theorem hostReg_eq_some_iff (r : Byte) (g : HostReg) : hostReg r = some g ↔ g.InMap ∧ r.toNat = g.number := by
  constructor
  · intro h
    simp only [hostReg] at h
    repeat' split at h
    all_goals simp only [Option.some.injEq, reduceCtorEq] at h
    all_goals
      subst h
      simp only [HostReg.InMap, HostReg.number, true_and]
      omega
  · rintro ⟨hmap, hnum⟩
    cases g with
    | uid i | cb i | rb i | ackbuf i =>
      simp only [HostReg.InMap, HostReg.number] at hmap hnum
      simp only [hostReg]
      repeat rw [if_neg (by omega)]
      rw [if_pos (by omega), hnum, Nat.add_sub_cancel_left]
    | _ => simp [hostReg, hnum, HostReg.number]

/-- R43: the reserved numbers. -/
theorem hostReg_eq_none_iff (r : Byte) :
    hostReg r = none ↔ r.toNat = 6 ∨ r.toNat = 7 ∨ (0x0F ≤ r.toNat ∧ r.toNat ≤ 0x3F) ∨ 0xC6 ≤ r.toNat := by
  simp only [hostReg]
  repeat' split
  all_goals simp only [reduceCtorEq, false_iff, true_iff]
  all_goals omega

/-- The number of a register in the map, as a statement about a byte. -/
theorem hostReg_of_number {r : Byte} {g : HostReg} (hg : g.InMap) (hr : r = BitVec.ofNat 8 g.number) :
    hostReg r = some g := by
  refine (hostReg_eq_some_iff r g).2 ⟨hg, ?_⟩
  rw [hr, BitVec.toNat_ofNat]
  cases g <;> simp only [HostReg.InMap, HostReg.number] at hg ⊢ <;> omega

/-- The numbers of the map but those of `CMD`, `STATUS` and `HSTATE`. -/
def DataNumber (r : Byte) : Prop :=
  (0x03 ≤ r.toNat ∧ r.toNat ≤ 0x05) ∨ (0x08 ≤ r.toNat ∧ r.toNat ≤ 0x0E) ∨ (0x40 ≤ r.toNat ∧ r.toNat ≤ 0xC5)

theorem hostReg_of_dataNumber {r : Byte} (h : DataNumber r) :
    ∃ g, hostReg r = some g ∧ g ≠ .cmd ∧ g ≠ .status ∧ g ≠ .hstate := by
  rw [DataNumber] at h
  cases hg : hostReg r with
  | none =>
    have hnone := (hostReg_eq_none_iff r).1 hg
    omega
  | some g =>
    have hnum : r.toNat = g.number := ((hostReg_eq_some_iff r g).1 hg).2
    refine ⟨g, rfl, ?_, ?_, ?_⟩ <;> rintro rfl <;> simp only [HostReg.number] at hnum <;> omega

theorem hostReg_of_not_dataNumber {r : Byte} (hst : r ≠ 0x01) (hhs : r ≠ 0x02) (h : ¬ DataNumber r) :
    hostReg r = none ∨ hostReg r = some .cmd := by
  have h1 : r.toNat ≠ 1 := fun e => hst (BitVec.eq_of_toNat_eq e)
  have h2 : r.toNat ≠ 2 := fun e => hhs (BitVec.eq_of_toNat_eq e)
  rw [DataNumber] at h
  rw [hostReg_eq_none_iff, hostReg_eq_some_iff]
  simp only [HostReg.InMap, HostReg.number, true_and]
  omega

/-! ### Accesses of the host (R12, R43, R46, R63) -/

theorem hostRead_idle {r : Byte} {g : HostReg} {s : State} (hb : s.busy = false) (hr : hostReg r = some g) :
    hostRead r s = readIdle r g s := by
  simp [hostRead, hr, hb]

theorem hostRead_busy {r : Byte} {g : HostReg} {s : State} (hb : s.busy = true) (hr : hostReg r = some g) :
    hostRead r s = readBusy r g s := by
  simp [hostRead, hr, hb]

/-- A number the map reserves, and `CMD`, cannot be read, busy or idle. -/
theorem hostRead_refused {r : Byte} (hr : hostReg r = none ∨ hostReg r = some .cmd) (s : State) :
    hostRead r s = .refused (.noSuchHostMove r) := by
  rcases hr with hr | hr
  · simp [hostRead, hr]
  · cases hb : s.busy with
    | true => rw [hostRead_busy hb hr]; rfl
    | false => rw [hostRead_idle hb hr]; rfl

/-- Only `STATUS` and `HSTATE` answer a busy read. -/
theorem readBusy_data {r : Byte} {g : HostReg} (s : State) (hc : g ≠ .cmd) (hst : g ≠ .status) (hh : g ≠ .hstate) :
    readBusy r g s = .next s := by
  cases g with
  | cmd => exact absurd rfl hc
  | status => exact absurd rfl hst
  | hstate => exact absurd rfl hh
  | _ => rfl

theorem hostWrite_busy {r b : Byte} {i : Nat} {s : State} (hb : s.busy = true) (hr : hostReg r = some (.cb i)) :
    hostWrite r b s = .next s := by
  simp [hostWrite, hr, hb]

/-- Only `CB` can be written a byte at a time (R48). -/
theorem hostWrite_refused {r b : Byte} {s : State} (hr : ¬ (0x40 ≤ r.toNat ∧ r.toNat < 0x80)) :
    hostWrite r b s = .refused (.noSuchHostMove r) := by
  rw [hostWrite]
  split
  · next i hi =>
    have hnum := (hostReg_eq_some_iff r _).1 hi
    simp only [HostReg.InMap, HostReg.number] at hnum
    omega
  · rfl

/-- A read that is answered only notes a value, or does nothing. -/
theorem hostRead_next {r : Byte} {s t : State} (h : hostRead r s = .next t) : t = s ∨ ∃ v, t = note r v s := by
  rw [hostRead] at h
  split at h
  · cases h
  · next g _ =>
    split at h
    · cases g <;> simp only [readBusy, Host.Outcome.next.injEq, reduceCtorEq] at h <;> subst h
      case status | hstate => exact .inr ⟨_, rfl⟩
      all_goals exact .inl rfl
    · cases g <;> simp only [readIdle, readData8, readFwver, reduceCtorEq] at h
      case status | hstate => exact .inr ⟨_, (Host.Outcome.next.inj h).symm⟩
      all_goals
        split at h
        · exact .inr ⟨_, (Host.Outcome.next.inj h).symm⟩
        · cases h

/-- Settles O7: acceptance latches the fields that the decoded operation has, and a busy access is refused exactly where
the map gives none. -/
theorem commandWordAcceptance : Obligations.CommandWordAcceptance := by
  intro s rest
  refine ⟨fun w hb hh => ?_, fun w hb hh => ?_, fun r b hb hh => ?_, fun r hb h1 h2 hh => ?_⟩ <;> rw [step_of_move hh]
  · cases hd : decode w with
    | op i =>
      obtain ⟨hop, harg, htmo⟩ := decode_fields hd
      refine (writeCmd_op (s := { s with host := rest }) hb hd).trans ?_
      simp only [beginOp, accept, hop, harg, htmo]
      rfl
    | reservedOp code => exact writeCmd_reserved (s := { s with host := rest }) hb hd
  · exact writeCmd_busy (s := { s with host := rest }) hb
  · split
    · next hr =>
      refine hostWrite_busy (s := { s with host := rest }) (i := r.toNat - 0x40) hb ((hostReg_eq_some_iff r _).2 ?_)
      simp only [HostReg.InMap, HostReg.number]
      omega
    · next hr => exact hostWrite_refused hr
  · split
    · next hr =>
      obtain ⟨g, hg, hc, hst, hhs⟩ := hostReg_of_dataNumber hr
      exact (hostRead_busy (s := { s with host := rest }) hb hg).trans (readBusy_data _ hc hst hhs)
    · next hr => exact hostRead_refused (hostReg_of_not_dataNumber h1 h2 hr) _

/-! ### Codes and status bytes -/

/-- Settles O8, code by code. -/
theorem errAndHsHaveTheirCodes : Obligations.ErrAndHsHaveTheirCodes :=
  ⟨rfl, rfl, fun e => by cases e <;> decide⟩

/-- The fields of `STATUS` as digits of its number (R43). -/
theorem statusByte_eq (s : State) : (statusByte s).setWidth 32 = BitVec.ofNat 32 ((errCode s.err).toNat +
    16 * s.busy.toNat + 32 * s.bound.toNat + 64 * s.sel.toNat + 128 * (decide (s.err ≠ .ok)).toNat) := by
  rw [statusByte]
  cases s.err <;> cases s.sel <;> cases s.bound <;> cases s.busy <;> rfl

theorem hstateByte_eq (s : State) : (hstateByte s).setWidth 32 = BitVec.ofNat 32 (hsCode s.hs).toNat := by
  rw [hstateByte]
  cases s.hs <;> rfl

/-- `STATUS` and `HSTATE` answer a read, busy or idle (R43). -/
theorem hostRead_status {r : Byte} (hr : hostReg r = some .status) (s : State) :
    hostRead r s = .next (note r ((statusByte s).setWidth 32) s) := by
  cases hb : s.busy with
  | true => rw [hostRead_busy hb hr]; rfl
  | false => rw [hostRead_idle hb hr]; rfl

theorem hostRead_hstate {r : Byte} (hr : hostReg r = some .hstate) (s : State) :
    hostRead r s = .next (note r ((hstateByte s).setWidth 32) s) := by
  cases hb : s.busy with
  | true => rw [hostRead_busy hb hr]; rfl
  | false => rw [hostRead_idle hb hr]; rfl

/-- Settles O9: both registers answer busy and idle, and a read notes the value and nothing more. -/
theorem statusReadsGiveTheirFields : Obligations.StatusReadsGiveTheirFields := by
  intro s rest
  refine ⟨fun hh => ?_, fun hh => ?_⟩ <;> rw [step_of_move hh]
  · refine (hostRead_status (hostReg_of_number (g := .status) trivial rfl) { s with host := rest }).trans ?_
    rw [statusByte_eq]
    rfl
  · refine (hostRead_hstate (hostReg_of_number (g := .hstate) trivial rfl) { s with host := rest }).trans ?_
    rw [hstateByte_eq]
    rfl

/-! ### Idle reads -/

/-- Settles O10, register by register of the map. -/
theorem idleReadsGiveTheDataOrFault : Obligations.IdleReadsGiveTheDataOrFault := by
  intro s r rest hb hh
  have hread : ∀ g : HostReg, g.InMap → r = BitVec.ofNat 8 g.number → step s = readIdle r g { s with host := rest } :=
    fun g hg hr => (step_of_move hh).trans (hostRead_idle (s := { s with host := rest }) hb (hostReg_of_number hg hr))
  refine ⟨hread .res8 trivial, hread .fwver trivial, hread .uidlen trivial, fun i hi => hread (.uid i) hi,
    fun i hi => hread (.cb i) hi, fun i hi => hread (.rb i) hi, fun i hi => hread (.ackbuf i) hi, fun hr => ?_⟩
  rw [step_of_move hh]
  refine hostRead_refused ?_ _
  rw [hostReg_eq_none_iff, hostReg_eq_some_iff]
  simp only [HostReg.InMap, HostReg.number, true_and]
  omega

/-- Settles O12: each piece of state by itself, no cell of a buffer being written. -/
theorem resetLeavesTheTable : Obligations.ResetLeavesTheTable :=
  ⟨rfl, rfl, rfl, rfl, rfl, rfl, rfl, rfl, rfl, rfl, rfl, rfl, rfl, rfl, rfl, rfl, fun _ => rfl, fun _ => rfl, fun _ => rfl,
    fun _ => rfl⟩

end Sys2Proof.Machine
end

section
/-! PROOFS. The invariant of the machine (spec/10_state.md R15, R16, R23, R24, spec/20_memory.md R40 to R42, R50,
spec/70_reset_and_hazards.md R174): what it asks of an idle and of a running engine, that one line of the operation in
flight keeps it, and from that every step. -/

namespace Sys2Proof.Machine

/-! ### The invariant of an idle and of a running engine -/

theorem State.Inv.buffers {s : State} (h : s.Inv) : Buffers s :=
  ⟨h.cbWf, h.rbWf, h.ackbufWf, h.uidWf, h.cbBelow, h.rbBelow, h.ackbufBelow, h.uidBelow, h.uidlenSmall, h.idxSmall⟩

/-- The fields of which `Buffers` speaks. -/
def bufferFields (s : State) : Memory × Memory × Memory × Memory × Option Byte × BitVec 7 :=
  (s.cb, s.rb, s.ackbuf, s.uid, s.uidlen, s.idx)

theorem Buffers.congr {s t : State} (c : Buffers s) (h : bufferFields t = bufferFields s) : Buffers t := by
  simp only [bufferFields, Prod.mk.injEq] at h
  obtain ⟨hcb, hrb, hack, huid, hlen, hidx⟩ := h
  cases c
  constructor <;> simp only [hcb, hrb, hack, huid, hlen, hidx] <;> assumption

/-- At an idle engine there are no lines to run, so the invariant is one of the buffers and the record of events. -/
theorem inv_of_idle {s : State} (hbuf : Buffers s) (hb : s.busy = false) (hp : s.phase = []) (hs : s.sel = false)
    (hf : traceLevel false s.trace = some false) : s.Inv where
  cbWf := hbuf.cbWf
  rbWf := hbuf.rbWf
  ackbufWf := hbuf.ackbufWf
  uidWf := hbuf.uidWf
  cbBelow := hbuf.cbBelow
  rbBelow := hbuf.rbBelow
  ackbufBelow := hbuf.ackbufBelow
  uidBelow := hbuf.uidBelow
  uidlenSmall := hbuf.uidlenSmall
  idxSmall := hbuf.idxSmall
  indexFollows := by simp [hp, IndexFollows]
  idle := fun _ => ⟨hp, hs⟩
  running := by simp [hb]
  inRange := by simp [hp, LinesInRange]
  framed := by rw [hs, hf]

/-- At a running engine the lines still to run follow `IDX`, keep the framing and stay inside the buffers. -/
theorem inv_of_running {s : State} (hbuf : Buffers s) (hb : s.busy = true) (hx : IndexFollows s.idx.toNat s.phase)
    (hbr : Bracketed s.sel s.phase) (hr : LinesInRange s.argr s.phase) (hf : traceLevel false s.trace = some s.sel) :
    s.Inv where
  cbWf := hbuf.cbWf
  rbWf := hbuf.rbWf
  ackbufWf := hbuf.ackbufWf
  uidWf := hbuf.uidWf
  cbBelow := hbuf.cbBelow
  rbBelow := hbuf.rbBelow
  ackbufBelow := hbuf.ackbufBelow
  uidBelow := hbuf.uidBelow
  uidlenSmall := hbuf.uidlenSmall
  idxSmall := hbuf.idxSmall
  indexFollows := hx
  idle := by simp [hb]
  running := fun _ => hbr
  inRange := hr
  framed := hf

/-- The invariant says nothing of the host's side. -/
theorem State.Inv.withHostSide {s : State} (h : s.Inv) (ms : List HostMove) (vs : List (Byte × Word)) :
    State.Inv { s with host := ms, noted := vs } := by
  cases h
  constructor <;> assumption

theorem State.Inv.withHost {s : State} (h : s.Inv) (ms : List HostMove) : State.Inv { s with host := ms } :=
  h.withHostSide ms s.noted

theorem buffers_reset : Buffers State.reset := by constructor <;> simp [State.reset, Memory.below]

/-- Settles O16: nothing is written, no line is left to run and no event is recorded. -/
theorem resetMeetsTheInvariant : Obligations.ResetMeetsTheInvariant := inv_of_idle buffers_reset rfl rfl rfl rfl

/-! ### One line of the operation in flight -/

/-- A line of a bracketed list stands at its level, and the lines after it go on from the level it leaves. -/
theorem Bracketed.level {sel : Bool} {l : Line} {ls : List Line} (h : Bracketed sel (l :: ls)) :
    ∃ k, lineLevel l sel = some k ∧ linesLevel k ls = some false := by
  obtain ⟨hl, -⟩ := h
  rw [linesLevel] at hl
  split at hl
  · next k hk => exact ⟨k, hk, hl⟩
  · cases hl

/-- After a line that does not end the operation come lines that do. -/
theorem Bracketed.rest_ends {sel : Bool} {l : Line} {ls : List Line} (h : Bracketed sel (l :: ls))
    (he : endsOperation l = false) : ∃ m, ls.getLast? = some m ∧ endsOperation m = true := by
  obtain ⟨-, m, hm, hend⟩ := h
  rcases eq_or_ne ls [] with rfl | hne
  · obtain rfl : l = m := by simpa using hm
    simp [he] at hend
  · exact ⟨m, suffix_last (List.suffix_cons l ls) hne hm, hend⟩

/-- A count check hands on only with a count in range (R155). -/
theorem countPasses_of_go {l : Line} {s t : State} (h : runLine l s = .go t) : countPasses l s.argr = true := by
  cases l with
  | requireCbCount =>
    simp only [runLine, lineRequireCbCount] at h
    split at h
    · assumption
    · cases h
  | requireRbCount =>
    simp only [runLine, lineRequireRbCount] at h
    split at h
    · assumption
    · cases h
  | _ => rfl

/-- A line at its level keeps the record of events framed. -/
theorem LineEffects.framed {l : Line} {s t : State} {k : Bool} (e : LineEffects l s t)
    (hk : lineLevel l s.sel = some k) (hf : traceLevel false s.trace = some s.sel) :
    t.sel = k ∧ traceLevel false t.trace = some k := by
  obtain ⟨hsel, es, htrace, hlevel⟩ := e.level k hk
  exact ⟨hsel, by rw [htrace, traceLevel_append, hf]; exact hlevel⟩

section
variable {l : Line} {ls : List Line} {s t : State}

/-- The line of a running engine that hands on keeps the invariant, the lines after it being next. -/
theorem State.Inv.go (h : s.Inv) (hb : s.busy = true) (hp : s.phase = l :: ls) (hgo : runLine l s = .go t) :
    t.busy = true ∧ State.Inv { t with phase := ls } := by
  have hbr := hp ▸ h.running hb
  obtain ⟨hlr, hrest⟩ : lineInRange l ∧ _ := hp ▸ h.inRange
  obtain ⟨k, hk, hlevel⟩ := hbr.level
  have hv : verdictState (runLine l s) = some t := by rw [hgo]; rfl
  have e := runLine_effects l s t hv
  obtain ⟨htb, hend⟩ : t.busy = s.busy ∧ endsOperation l = false := by
    rcases runLine_hands_on l s with ⟨u, hu, hub, -, hend⟩ | ⟨u, b, x, -, hu, -⟩ | ⟨u, hu, -⟩ | ⟨f, hu⟩ <;>
      rw [hgo] at hu <;> cases hu
    exact ⟨hub, hend⟩
  obtain ⟨hsel, hframed⟩ := e.framed hk h.framed
  refine ⟨htb.trans hb, inv_of_running (s := { t with phase := ls }) ?_ (htb.trans hb) ?_ ⟨?_, hbr.rest_ends hend⟩ ?_ ?_⟩
  · exact (runLine_buffers l s t h.buffers hlr hv).congr rfl
  · exact runLine_indexFollows (t := t) h.buffers hlr (hp ▸ h.indexFollows) hgo
  · exact hsel ▸ hlevel
  · exact e.latches.2.1 ▸ hrest (countPasses_of_go hgo)
  · exact hframed.trans (by rw [← hsel])

/-- A poll that goes round again keeps the invariant, the same lines being next. -/
theorem State.Inv.again (h : s.Inv) (hb : s.busy = true) (hp : s.phase = l :: ls) (hagain : runLine l s = .again t) :
    State.Inv { t with phase := l :: ls } := by
  have hbr := hp ▸ h.running hb
  have hrange := hp ▸ h.inRange
  have hindex := hp ▸ h.indexFollows
  have hv : verdictState (runLine l s) = some t := by rw [hagain]; rfl
  have e := runLine_effects l s t hv
  obtain ⟨k, hk, -⟩ := hbr.level
  obtain ⟨hsel, hframed⟩ := e.framed hk h.framed
  rcases runLine_hands_on l s with ⟨u, hu, -⟩ | ⟨u, b, x, rfl, hu, hub, -⟩ | ⟨u, hu, -⟩ | ⟨f, hu⟩ <;>
    rw [hagain] at hu <;> cases hu
  have hkeep : t.sel = s.sel := e.sel rfl
  refine inv_of_running (s := { t with phase := .poll b x :: ls }) ?_ (hub.trans hb) ?_ ?_ ?_ ?_
  · exact (runLine_buffers _ s t h.buffers hrange.1 hv).congr rfl
  · exact fun j => hindex j
  · exact hkeep ▸ hbr
  · exact e.latches.2.1 ▸ hrange
  · exact hframed.trans (by rw [← hsel])

/-- A line that ends the operation leaves the invariant of an idle engine. -/
theorem State.Inv.done (h : s.Inv) (hb : s.busy = true) (hp : s.phase = l :: ls) (hdone : runLine l s = .done t) :
    t.Inv := by
  have hv : verdictState (runLine l s) = some t := by rw [hdone]; rfl
  obtain ⟨k, hk, -⟩ := (hp ▸ h.running hb : Bracketed s.sel (l :: ls)).level
  obtain ⟨hsel, hframed⟩ := (runLine_effects l s t hv).framed hk h.framed
  rcases runLine_hands_on l s with ⟨u, hu, -⟩ | ⟨u, b, x, -, hu, -⟩ | ⟨u, hu, hub, hup, -, hlow⟩ | ⟨f, hu⟩ <;>
    rw [hdone] at hu <;> cases hu
  obtain rfl := hlow k hk
  exact inv_of_idle (runLine_buffers l s t h.buffers (hp ▸ h.inRange : LinesInRange s.argr (l :: ls)).1 hv) hub hup hsel
    hframed

end

/-! ### The operation in flight -/

/-- The operation in flight keeps the invariant up to its end or its next open wait. -/
theorem State.Inv.runLines {ls : List Line} {s t : State} (h : s.Inv) (hb : s.busy = true) (hp : s.phase = ls)
    (hrun : runLines ls s = .next t) : t.Inv := by
  induction ls generalizing s with
  | nil =>
    obtain ⟨-, l, hl, -⟩ := hp ▸ h.running hb
    cases hl
  | cons l ls ih =>
    rw [runLines_cons] at hrun
    split at hrun
    · next u hu =>
      obtain ⟨hub, hui⟩ := h.go hb hp hu
      exact ih (s := { u with phase := ls }) hui hub rfl ((runLines_phase ls u ls).trans hrun)
    · next u hu =>
      obtain rfl := Host.Outcome.next.inj hrun
      exact h.again hb hp hu
    · next u hu =>
      obtain rfl := Host.Outcome.next.inj hrun
      exact h.done hb hp hu
    · cases hrun

theorem State.Inv.resume {s t : State} (h : s.Inv) (hb : s.busy = true) (hrun : resume s = .next t) : t.Inv :=
  h.runLines hb rfl hrun

/-- One line of the operation in flight keeps the invariant. -/
theorem State.Inv.runOne {s t : State} (h : s.Inv) (hb : s.busy = true) (hrun : runOne s = .next t) : t.Inv := by
  rw [Machine.runOne] at hrun
  split at hrun
  · exact Host.Outcome.next.inj hrun ▸ h
  · next l ls hp =>
    split at hrun
    · next u hu =>
      obtain rfl := Host.Outcome.next.inj hrun
      exact (h.go hb hp hu).2
    · next u hu =>
      obtain rfl := Host.Outcome.next.inj hrun
      exact h.again hb hp hu
    · next u hu =>
      obtain rfl := Host.Outcome.next.inj hrun
      exact h.done hb hp hu
    · cases hrun

/-! ### Acceptance and the moves of the host -/

/-- R63: the acceptance of a command word whose lines are framed, inside the buffers and follow `IDX`. -/
theorem State.Inv.accept {s : State} (h : s.Inv) (hb : s.busy = false) {arg : Byte} {ls : List Line} (op : Byte)
    (tmo : Half) (hbr : Bracketed false ls) (hr : LinesInRange arg ls) (hx : ∀ j, IndexFollows j ls) :
    (accept op arg tmo ls s).Inv := by
  obtain ⟨-, hs⟩ := h.idle hb
  refine inv_of_running (s := Machine.accept op arg tmo ls s) (h.buffers.congr rfl) rfl (hx _) ?_ hr h.framed
  rw [show (Machine.accept op arg tmo ls s).sel = false from hs]
  exact hbr

theorem State.Inv.beginOp {s : State} (h : s.Inv) (hb : s.busy = false) (i : Instr) :
    (beginOp i (linesOf Config.params i) s).Inv :=
  h.accept hb i.opcode (tmoHalf i.tmo) (linesOf_bracketed _ i) (linesOf_inRange _ i) (linesOf_indexFollows _ i)

theorem State.Inv.beginReserved {s : State} (h : s.Inv) (hb : s.busy = false) (w : Word) :
    (beginReserved w s).Inv :=
  h.accept hb (opField w) (tmoField w) ⟨rfl, .rejectOp, rfl, rfl⟩ ⟨trivial, fun _ => trivial⟩
    (indexFollows_of_forall (by simp [lineIndex]))

theorem State.Inv.writeCmd {s t : State} (h : s.Inv) (w : Word) (hw : writeCmd w s = .next t) : t.Inv := by
  rw [Machine.writeCmd] at hw
  split at hw
  · exact Host.Outcome.next.inj hw ▸ h
  · next hb =>
    have hb : s.busy = false := by simpa using hb
    split at hw
    · exact Host.Outcome.next.inj hw ▸ h.beginOp hb _
    · exact Host.Outcome.next.inj hw ▸ h.beginReserved hb w

theorem State.Inv.runWord {s t : State} (h : s.Inv) (hb : s.busy = false) (w : Word) (hw : runWord w s = .next t) :
    t.Inv := by
  rw [Machine.runWord] at hw
  split at hw
  · next i _ =>
    rw [exec_idle i s hb] at hw
    exact (h.beginOp hb i).runLines rfl rfl hw
  · exact (h.beginReserved hb w).runLines rfl rfl hw

theorem State.Inv.hostWaits {s : State} (h : s.Inv) : (hostWaits s).Inv := by
  rw [Machine.hostWaits]
  split
  · exact h.withHost _
  · exact h

theorem State.Inv.hostWrite {s t : State} (h : s.Inv) (r b : Byte) (hw : hostWrite r b s = .next t) : t.Inv := by
  rw [Machine.hostWrite] at hw
  split at hw
  · next i hi =>
    split at hw
    · exact Host.Outcome.next.inj hw ▸ h
    · obtain rfl := Host.Outcome.next.inj hw
      obtain ⟨hcell, -⟩ : i < Config.cbCap ∧ _ := (hostReg_eq_some_iff r _).1 hi
      exact { h with
        cbWf := wf_write _ _ _ h.cbWf
        cbBelow := below_write _ _ _ _ hcell h.cbBelow }
  · cases hw

theorem State.Inv.hostRead {s t : State} (h : s.Inv) (r : Byte) (hr : hostRead r s = .next t) : t.Inv := by
  rcases hostRead_next hr with rfl | ⟨v, rfl⟩
  · exact h
  · exact h.withHostSide s.host _

/-- The reset input is a move only at an idle engine, where the record of events is closed. -/
theorem State.Inv.hostReset {s t : State} (h : s.Inv) (hr : hostReset s = .next t) : t.Inv := by
  rw [Machine.hostReset] at hr
  split at hr
  · cases hr
  · next hb =>
    obtain rfl := Host.Outcome.next.inj hr
    obtain ⟨-, hs⟩ := h.idle (by simpa using hb)
    exact inv_of_idle (buffers_reset.congr rfl) rfl rfl rfl (hs ▸ h.framed)

/-- A step of a busy engine that goes on keeps the invariant, and an idle one stays as it is. -/
theorem State.Inv.noMove {s t : State} (h : s.Inv) (hm : noMove s = .next t) : t.Inv := by
  rw [Machine.noMove] at hm
  split at hm
  · next hb => exact h.resume hb hm
  · exact Host.Outcome.next.inj hm ▸ h

/-- Every move of the host keeps the invariant. -/
theorem State.Inv.hostMove {s whole t : State} (h : s.Inv) (hwhole : whole.Inv) (hb : whole.busy = s.busy)
    (m : HostMove) (hm : hostMove m s whole = .next t) : t.Inv := by
  cases m with
  | op w =>
    simp only [Machine.hostMove] at hm
    split at hm
    · next hs => exact hwhole.resume (hb.trans hs) hm
    · next hs =>
      cases hw : Machine.runWord w s with
      | next u =>
        rw [hw] at hm
        exact Host.Outcome.next.inj hm ▸ (h.runWord (by simpa using hs) w hw).hostWaits
      | fault f => simp [hw, mapNext] at hm
      | refused r => simp [hw, mapNext] at hm
  | wait =>
    simp only [Machine.hostMove] at hm
    split at hm
    · next hs => exact hwhole.resume (hb.trans hs) hm
    · exact Host.Outcome.next.inj hm ▸ h
  | cmd w => exact h.writeCmd w hm
  | letRun =>
    simp only [Machine.hostMove] at hm
    split at hm
    · next hs => exact h.runOne hs hm
    · exact Host.Outcome.next.inj hm ▸ h
  | write r b => exact h.hostWrite r b hm
  | read r => exact h.hostRead r hm
  | reset => exact h.hostReset hm

/-- Settles O15: by the host's next move, an operation in flight keeping the invariant line by line. -/
theorem stepKeepsTheInvariant : Obligations.StepKeepsTheInvariant := by
  intro s t h hstep
  rw [step] at hstep
  split at hstep
  · exact h.noMove hstep
  · next m rest _ => exact (h.withHost rest).hostMove h rfl m hstep

end Sys2Proof.Machine
end

section
/-! PROOFS. What an operation does as a whole, in its first step and in every later one (spec/10_state.md R16,
spec/20_memory.md R50, spec/30_encoding.md R63, spec/44_response_parser.md R128): it is its lines taken singly, it keeps
the select framing, it reads only what it has written, and it writes only the registers and buffers that are its own. -/

namespace Sys2Proof.Machine

/-! ### An operation as its lines taken singly -/

theorem runOne_cons (l : Line) (ls : List Line) (s : State) :
    runOne { s with phase := l :: ls } = match runLine l s with
      | .go t => .next { t with phase := ls }
      | .again t => .next { t with phase := l :: ls }
      | .done t => .next t
      | .fault f => .fault f := by
  simp only [runOne, runLine_phase]
  cases runLine l s <;> rfl

/-- R16: the run of the lines up to the end or an open wait is so many of them taken singly. -/
theorem runEvents_eq_runLines (ls : List Line) (s : State) :
    ∃ k, runEvents k { s with phase := ls } = runLines ls s := by
  induction ls generalizing s with
  | nil => exact ⟨0, rfl⟩
  | cons l ls ih =>
    have hone := runOne_cons l ls s
    rw [runLines_cons]
    cases hl : runLine l s with
    | go t =>
      obtain ⟨k, hk⟩ := ih t
      exact ⟨k + 1, by simp only [runEvents, hone, hl, hk]⟩
    | again t => exact ⟨1, by simp only [runEvents, hone, hl]⟩
    | done t => exact ⟨1, by simp only [runEvents, hone, hl]⟩
    | fault f => exact ⟨1, by simp only [runEvents, hone, hl]⟩

/-- R61, R62: the decoder gives back a well-formed operation, each field of its word holding the operand whole. -/
theorem decode_encode {i : Instr} (h : i.wellFormed = true) : decode (encode i) = .op i := by
  obtain ⟨harg, htmo⟩ : i.arg < 256 ∧ i.tmo < 65536 := by
    simpa [Instr.wellFormed, Instr.argFits, Instr.tmoFits] using h
  obtain ⟨hop, ha, ht⟩ := Laws.fields_of_append i.opcode (BitVec.ofNat 8 i.arg) (BitVec.ofNat 16 i.tmo)
  have ha' : (argField (encode i)).toNat = i.arg := by rw [encode, ha, BitVec.toNat_ofNat, Nat.mod_eq_of_lt harg]
  have ht' : (tmoField (encode i)).toNat = i.tmo := by rw [encode, ht, BitVec.toNat_ofNat, Nat.mod_eq_of_lt htmo]
  have hop' : opField (encode i) = i.opcode := hop
  rw [decode, ha', ht', hop']
  cases i <;> rfl

/-- Settles O17: the state after acceptance has the lines of the operation next. -/
theorem operationIsItsLinesOneByOne : Obligations.OperationIsItsLinesOneByOne := by
  intro i s hw hb
  obtain ⟨k, hk⟩ := runEvents_eq_runLines (linesOf Config.params i) (beginOp i (linesOf Config.params i) s)
  refine ⟨beginOp i (linesOf Config.params i) s, k, ?_, ?_⟩
  · exact (step_of_move (m := .cmd (encode i)) (rest := s.host) rfl).trans (writeCmd_op hb (decode_encode hw))
  · rw [exec_idle i s hb]
    exact hk

/-! ### Framing and ends -/

/-- A poll stands outside every bracket, so from a poll on the lines of an operation keep the framing. -/
theorem linesLevel_from_poll {P : Params} {i : Instr} {b : Budget} {x : Bool} {rest : List Line}
    (hs : .poll b x :: rest <:+ linesOf P i) : linesLevel false (.poll b x :: rest) = some false := by
  obtain ⟨pre, hpre⟩ := hs
  have h := linesOf_level P i
  rw [← hpre, linesLevel_append] at h
  obtain ⟨k, -, hk⟩ := Option.bind_eq_some_iff.1 h
  cases k with
  | false => exact hk
  | true => cases hk

/-- The record of events from `s` to `t` is framed, and chip-select is deasserted. -/
def FramedSince (s t : State) : Prop :=
  t.sel = false ∧ ∃ es, t.trace = s.trace ++ es ∧ traceLevel false es = some false

theorem FramedSince.runLines {s u v : State} {ls : List Line} (h : FramedSince s u)
    (hl : linesLevel false ls = some false) (hrun : runLines ls u = .next v) : FramedSince s v := by
  obtain ⟨hsel, es, htrace, hlevel⟩ := h
  obtain ⟨hsel', fs, htrace', hlevel'⟩ := runLines_level (hsel ▸ hl) hrun
  refine ⟨hsel', es ++ fs, by rw [htrace', htrace, List.append_assoc], ?_⟩
  rw [traceLevel_append, hlevel]
  exact hsel ▸ hlevel'

/-- Settles O49: the lines of an operation are framed from deasserted to deasserted, and so are those from a poll on. -/
theorem operationsKeepTheSelectFraming : Obligations.OperationsKeepTheSelectFraming := by
  intro i s t k hb hsel ho hrun
  refine (runOp_stands (Q := FramedSince s) hb ho (fun u hu => ?_) (fun u v b x rest hu _ _ hsuf hv => ?_) hrun).2
  · rw [exec_idle i s hb] at hu
    have hstart : FramedSince s (beginOp i (linesOf Config.params i) s) := ⟨hsel, [], (List.append_nil _).symm, rfl⟩
    exact hstart.runLines (linesOf_level _ i) hu
  · exact hu.runLines (linesLevel_from_poll hsuf) hv

/-- Settles O51: after any of its steps an operation stands at its end or at a poll of its own lines. -/
theorem operationsEndIdleOrWait : Obligations.OperationsEndIdleOrWait := by
  intro i s k hb ho
  refine ⟨runOp_not_refused hb ho, fun t hrun => ?_⟩
  have hstands : Stands (linesOf Config.params i) t :=
    (runOp_stands (Q := fun _ => True) hb ho (fun _ _ => trivial) (fun _ _ _ _ _ _ _ _ _ _ => trivial) hrun).1
  rcases hstands with hend | ⟨hbusy, b, x, rest, hp, -⟩
  · exact .inl hend
  · exact .inr ⟨hbusy, b, x, rest, hp⟩

/-! ### Fresh bytes -/

/-- A fault of an operation comes at its first step, or at a later one from a state on the way. -/
theorem runOp_fault_cases {i : Instr} {s : State} {f : Fault} {k : Nat} (h : runOp k i s = .fault f) :
    exec i s = .fault f ∨ ∃ m u, m < k ∧ runOp m i s = .next u ∧ step u = .fault f := by
  induction k with
  | zero => exact .inl ((runOp_zero i s).symm.trans h)
  | succ k ih =>
    cases hx : exec i s with
    | fault g => exact .inl (by simpa only [runOp, hx] using h)
    | refused r => simp only [runOp, hx, reduceCtorEq] at h
    | next t =>
      have hk : ∀ m, runOp m i s = runSteps m t := fun m => by simp only [runOp, hx]
      rw [hk, runSteps_last_step] at h
      split at h
      · next u hu => exact .inr ⟨k, u, Nat.lt_succ_self k, (hk k).trans hu, h⟩
      · next g hg =>
        obtain rfl := Host.Outcome.fault.inj h
        rcases ih ((hk k).trans hg) with hx' | ⟨m, u, hm, hu⟩
        · exact .inl (hx.symm.trans hx')
        · exact .inr ⟨m, u, by omega, hu⟩
      · cases h

/-- Where an engine operation waits, the lines left are supplied with what they read (R128). -/
theorem runOp_supplied {i : Instr} {s t : State} {k : Nat} (hi : isRequest i = true ∨ i.opcode = 0x00)
    (hb : s.busy = false) (ho : OwnSteps k s) (h : runOp k i s = .next t) :
    Stands (linesOf Config.params i) t ∧ (t.busy = true → Supplies t t.phase) := by
  refine runOp_stands (Q := fun u => u.busy = true → Supplies u u.phase) hb ho (fun u hu => ?_)
    (fun u v b x rest hu hub hp _ hv => ?_) h
  · rw [exec_idle i s hb] at hu
    exact (runLines_supplies (linesOf_supplied _ i hi _)).2 u hu
  · exact (runLines_supplies (hp ▸ hu hub)).2 v hv

/-- Of the engine operations only `READ_PASSIVE_TARGET_ID` extracts a UID (R140). -/
theorem opcode_of_parseTarget {P : Params} {i : Instr} (hi : isRequest i = true ∨ i.opcode = 0x00)
    (h : .parseTarget ∈ linesOf P i) : i.opcode = 0x04 := by
  rcases (linesOf_fit P i _ h).uid rfl with h4 | h32
  · exact h4
  · rcases hi with hreq | h00
    · cases i <;> simp [isRequest, Instr.opcode] at hreq h32
    · exact absurd (h00.symm.trans h32) (by decide)

/-- Settles O50: at every step the lines left read only what lines before them wrote. -/
theorem engineOperationsReadOnlyFreshBytes : Obligations.EngineOperationsReadOnlyFreshBytes := by
  intro i s f k _ hi ho h
  cases hb : s.busy with
  | true =>
    obtain rfl := ho.resolve_right (by simp [hb])
    rw [runOp_zero, exec_busy i s hb] at h
    cases h
  | false =>
    rcases runOp_fault_cases h with hx | ⟨m, u, hm, hu, hf⟩
    · rw [exec_idle i s hb] at hx
      obtain ⟨hmem, hlen⟩ := (runLines_supplies (linesOf_supplied _ i hi _)).1 f hx
      exact ⟨opcode_of_parseTarget hi hmem, hlen⟩
    · obtain ⟨-, hhost⟩ := ho.resolve_left (by omega)
      have huh : u.host = [] :=
        (runOp_keeps (·.host) (fun _ _ => rfl) (.inr ⟨hb, hhost⟩) (fun _ => rfl) (fun _ _ _ _ e => e.hostSide.1) hu).trans
          hhost
      obtain ⟨⟨hidle, -⟩ | ⟨hbusy, b, x, rest, hp, hsuf⟩, hsup⟩ := runOp_supplied hi hb (.inr ⟨hb, hhost⟩) hu
      · simp [step, huh, noMove, hidle] at hf
      · rw [step_resumes huh hbusy] at hf
        obtain ⟨hmem, hlen⟩ := (runLines_supplies (hsup hbusy)).1 f hf
        exact ⟨opcode_of_parseTarget hi (hsuf.subset (hp ▸ hmem)), hlen⟩

/-! ### The writers of registers and buffers -/

/-- A busy engine takes no operation. -/
theorem runOp_busy {i : Instr} {s t : State} {k : Nat} (hb : s.busy = true) (ho : OwnSteps k s)
    (h : runOp k i s = .next t) : t = s := by
  obtain rfl := ho.resolve_right (by simp [hb])
  rw [runOp_zero, exec_busy i s hb] at h
  exact (Host.Outcome.next.inj h).symm

/-- `INIT` is the one writer of `BOUND`, and never clears it (R11). -/
theorem runOp_bound_of_bound {i : Instr} {s t : State} {k : Nat} (ho : OwnSteps k s) (h : runOp k i s = .next t)
    (hs : s.bound = true) : t.bound = true := by
  cases hb : s.busy with
  | true => rwa [runOp_busy hb ho h]
  | false =>
    exact runOp_induct (R := fun u => u.bound = true) hb ho hs (fun _ _ hu => hu) (fun _ _ _ _ hu e => e.boundUp hu) h

/-- `ERR` is written at the end of an operation (R13). -/
theorem runOp_err_of_busy {i : Instr} {s t : State} {k : Nat} (ho : OwnSteps k s) (h : runOp k i s = .next t)
    (ht : t.busy = true) : t.err = s.err := by
  cases hb : s.busy with
  | true => rw [runOp_busy hb ho h]
  | false =>
    refine runOp_induct (R := fun u => u.busy = true → u.err = s.err) hb ho (fun _ => rfl) (fun _ _ hu => hu)
      (fun l _ u v hu e hv => ?_) h ht
    obtain ⟨hub, herr⟩ := e.waits hv
    exact herr.trans (hu hub)

/-- The operand registers hold what acceptance latched (R63). -/
theorem runOp_latches {i : Instr} {s t : State} {k : Nat} (ho : OwnSteps k s) (h : runOp k i s = .next t)
    (hb : s.busy = false) :
    t.opr = i.opcode ∧ t.argr = BitVec.ofNat 8 i.arg ∧ t.tmor = BitVec.ofNat 16 i.tmo := by
  refine runOp_induct
    (R := fun u => u.opr = i.opcode ∧ u.argr = BitVec.ofNat 8 i.arg ∧ u.tmor = BitVec.ofNat 16 i.tmo) hb ho
    ⟨rfl, rfl, rfl⟩ (fun _ _ hu => hu) (fun l _ u v hu e => ?_) h
  obtain ⟨hopr, hargr, htmor⟩ := e.latches
  rwa [hopr, hargr, htmor]

/-- A field that only the lines of one kind write is as it was after an operation that has no line of that kind. -/
theorem runOp_keeps_untouched {α : Type} (f : State → α) (touches : Line → Bool)
    (hp : ∀ u p, f { u with phase := p } = f u) {i : Instr} {s t : State} {k : Nat} (ha : ∀ ls, f (beginOp i ls s) = f s)
    (he : ∀ l u v, LineEffects l u v → touches l = false → f v = f u) (ho : OwnSteps k s) (h : runOp k i s = .next t)
    (hi : ∀ l, Fits i l → touches l ≠ true) : f t = f s :=
  runOp_keeps f hp ho ha (fun l hl u v e => he l u v e (Bool.eq_false_iff.2 (hi l hl))) h

/-- Settles O47: no line of an operation that is not named as a writer touches the register or buffer. -/
theorem registersAndBuffersHaveTheirWriters : Obligations.RegistersAndBuffersHaveTheirWriters := by
  intro i s t k ho h
  have hnot : isRequest i = false → isRequest i ≠ true := Bool.eq_false_iff.1
  refine ⟨fun h0 => ?bound, runOp_bound_of_bound ho h, fun hr h25 => ?hs, fun h10 h11 h12 h23 => ?res8,
    fun h01 h30 => ?fwver, fun h04 h32 => ?uid, fun hr => ?cb, fun h01 h02 h04 h24 => ?rb, fun hr h22 h25 => ?ackbuf,
    fun hr h20 h22 h24 h25 => ?sel, fun hr h11 h12 h20 h25 => ?acc, fun hr h20 h24 h25 => ?lenr,
    fun hr h21 h25 => ?t0, runOp_err_of_busy ho h, runOp_latches ho h, fun hb => runOp_busy hb ho h, ?host, ?noted⟩
  case bound =>
    exact runOp_keeps (·.bound) (fun _ _ => rfl) ho (fun _ => rfl) (fun l hl u v e => e.bound fun hb => h0 (hl.bind hb)) h
  case hs =>
    refine runOp_keeps_untouched (·.hs) touchesHs (fun _ _ => rfl) (fun _ => rfl) (fun l u v e => e.hs) ho h ?_
    exact fun l hl ht => (hl.hs ht).elim (hnot hr) h25
  case res8 =>
    refine runOp_keeps_untouched (·.res8) touchesRes8 (fun _ _ => rfl) (fun _ => rfl) (fun l u v e => e.res8) ho h ?_
    exact fun l hl ht => (hl.res8 ht).elim h10 (·.elim h11 (·.elim h12 h23))
  case fwver =>
    refine runOp_keeps_untouched (·.fwver) touchesFwver (fun _ _ => rfl) (fun _ => rfl) (fun l u v e => e.fwver) ho h ?_
    exact fun l hl ht => (hl.fwver ht).elim h01 h30
  case uid =>
    refine Prod.mk.inj (runOp_keeps_untouched (fun u => (u.uidlen, u.uid)) touchesUid (fun _ _ => rfl) (fun _ => rfl)
      (fun l u v e ht => Prod.ext (e.uid ht).1 (e.uid ht).2) ho h ?_)
    exact fun l hl ht => (hl.uid ht).elim h04 h32
  case cb =>
    refine runOp_keeps_untouched (·.cb) touchesCb (fun _ _ => rfl) (fun _ => rfl) (fun l u v e => e.cb) ho h ?_
    exact fun l hl ht => hnot hr (hl.cb ht)
  case rb =>
    refine runOp_keeps_untouched (·.rb) touchesRb (fun _ _ => rfl) (fun _ => rfl) (fun l u v e => e.rb) ho h ?_
    exact fun l hl ht => (hl.rb ht).elim h01 (·.elim h02 (·.elim h04 h24))
  case ackbuf =>
    refine runOp_keeps_untouched (·.ackbuf) touchesAckbuf (fun _ _ => rfl) (fun _ => rfl) (fun l u v e => e.ackbuf) ho h ?_
    exact fun l hl ht => (hl.ackbuf ht).elim (hnot hr) (·.elim h22 h25)
  case sel =>
    refine runOp_keeps_untouched (·.sel) touchesSel (fun _ _ => rfl) (fun _ => rfl) (fun l u v e => e.sel) ho h ?_
    exact fun l hl ht => (hl.sel ht).elim (hnot hr) (·.elim h20 (·.elim h22 (·.elim h24 h25)))
  case acc =>
    refine runOp_keeps_untouched (·.acc) touchesAcc (fun _ _ => rfl) (fun _ => rfl) (fun l u v e => e.acc) ho h ?_
    exact fun l hl ht => (hl.acc ht).elim (hnot hr) (·.elim h11 (·.elim h12 (·.elim h20 h25)))
  case lenr =>
    refine runOp_keeps_untouched (·.lenr) touchesLenr (fun _ _ => rfl) (fun _ => rfl) (fun l u v e => e.lenr) ho h ?_
    exact fun l hl ht => (hl.lenr ht).elim (hnot hr) (·.elim h20 (·.elim h24 h25))
  case t0 =>
    refine runOp_keeps_untouched (·.t0) touchesT0 (fun _ _ => rfl) (fun _ => rfl) (fun l u v e => e.t0) ho h ?_
    exact fun l hl ht => (hl.t0 ht).elim (hnot hr) (·.elim h21 h25)
  case host => exact runOp_keeps (·.host) (fun _ _ => rfl) ho (fun _ => rfl) (fun _ _ _ _ e => e.hostSide.1) h
  case noted => exact runOp_keeps (·.noted) (fun _ _ => rfl) ho (fun _ => rfl) (fun _ _ _ _ e => e.hostSide.2) h

end Sys2Proof.Machine
end

section
/-! PROOFS. A byte written by the host (spec/20_memory.md R40, R46, R48): it goes to one cell of `CB`. -/

namespace Sys2Proof.Machine

theorem hostWrite_idle {r b : Byte} {i : Nat} {s : State} (hb : s.busy = false) (hr : hostReg r = some (.cb i)) :
    hostWrite r b s = .next { s with cb := Memory.write s.cb i b } := by
  simp [hostWrite, hr, hb]

/-- Settles O11: a number of `CB` writes the cell it stands for, and any number outside that range is refused. -/
theorem hostWritesOnlyOneCellOfCb : Obligations.HostWritesOnlyOneCellOfCb := by
  intro s r b rest hb hh
  rw [step_of_move hh]
  refine ⟨fun i hi hr => ?_, fun hr => hostWrite_refused (by omega)⟩
  have hreg : hostReg r = some (.cb i) := hostReg_of_number hi hr
  exact ⟨Memory.write s.cb i b, hostWrite_idle (s := { s with host := rest }) hb hreg, read_write_same s.cb i b,
    fun j hj => read_write_other s.cb i j b hj⟩

end Sys2Proof.Machine
end

section
/-! PROOFS. The command word (spec/30_encoding.md R60 to R65, R72): decoding and encoding undo each other, the reserved
words are those outside the operation map, and a program line at an idle engine runs what its word decodes to. -/

namespace Sys2Proof.Machine

/-! ### Decoding and encoding (R61, R62) -/

/-- Settles O1: each field of the word holds its operand whole. -/
theorem decodeOfEncodeIsIdentity : Obligations.DecodeOfEncodeIsIdentity := fun _ => decode_encode

theorem decode_eq_op_iff {w : Word} {i : Instr} :
    decode w = .op i ↔ operationOf (opField w).toNat (argField w).toNat (tmoField w).toNat = some i := by
  rw [decode]
  split
  · next j hj => rw [hj, Decoded.op.injEq, Option.some.injEq]
  · next hnone => rw [hnone]; simp only [reduceCtorEq]

/-- R61: the three fields are all of a command word. -/
theorem append_fields (w : Word) : opField w ++ argField w ++ tmoField w = w := by
  have hhigh : opField w ++ argField w = w.extractLsb' 16 16 :=
    BitVec.extractLsb'_append_extractLsb'_eq_extractLsb' rfl
  have hall : w.extractLsb' 16 16 ++ tmoField w = w.extractLsb' 0 32 :=
    BitVec.extractLsb'_append_extractLsb'_eq_extractLsb' rfl
  rw [hhigh, hall, BitVec.extractLsb'_eq_self]

/-- Settles O2: the operation has the fields of its word as its code and operands, and the fields are the whole word. -/
theorem encodeOfDecodeIsIdentity : Obligations.EncodeOfDecodeIsIdentity := by
  intro w i h
  obtain ⟨hop, harg, htmo⟩ := decode_fields h
  obtain ⟨-, ha, ht⟩ := operationOf_fields (decode_eq_op_iff.1 h)
  constructor
  · have hfits : i.arg < 256 ∧ i.tmo < 65536 := ⟨ha ▸ (argField w).isLt, ht ▸ (tmoField w).isLt⟩
    simpa [Instr.wellFormed, Instr.argFits, Instr.tmoFits] using hfits
  · calc encode i = i.opcode ++ argByte i.arg ++ tmoHalf i.tmo := rfl
      _ = opField w ++ argField w ++ tmoField w := by rw [hop, harg, htmo]
      _ = w := append_fields w

/-! ### Reserved words (R65) -/

/-- The codes of the operation map (R62). -/
def mapCodes : List Nat :=
  [0x00, 0x01, 0x02, 0x03, 0x04, 0x10, 0x11, 0x12, 0x20, 0x21, 0x22, 0x23, 0x24, 0x25, 0x30, 0x31, 0x32]

theorem opcode_mem_mapCodes (i : Instr) : i.opcode.toNat ∈ mapCodes := by
  cases i <;> simp [Instr.opcode, mapCodes]

theorem operationOf_ne_none {code arg tmo : Nat} (h : code ∈ mapCodes) : operationOf code arg tmo ≠ none := by
  revert code
  simp [mapCodes, operationOf]

theorem operationOf_eq_none_iff {code arg tmo : Nat} : operationOf code arg tmo = none ↔ code ∉ mapCodes := by
  refine ⟨fun h hmem => operationOf_ne_none hmem h, fun hout => ?_⟩
  rw [Option.eq_none_iff_forall_ne_some]
  intro i hi
  obtain ⟨hcode, -⟩ := operationOf_fields hi
  exact hout (hcode ▸ opcode_mem_mapCodes i)

theorem opField_toNat (w : Word) : (opField w).toNat = w.toNat / 2 ^ 24 := by
  rw [opField, BitVec.extractLsb'_toNat, Nat.shiftRight_eq_div_pow, Nat.mod_eq_of_lt]
  have := w.isLt
  omega

/-- R65: what decodes to no operation is rejected by its code, and only that. -/
theorem decode_eq_reservedOp_iff (w : Word) : decode w = .reservedOp (opField w) ↔ w.toNat / 2 ^ 24 ∉ mapCodes := by
  rw [← opField_toNat, ← operationOf_eq_none_iff (arg := (argField w).toNat) (tmo := (tmoField w).toNat), decode]
  split
  · next i hi => rw [hi]; simp only [reduceCtorEq]
  · next hnone => simp only [hnone]

/-- Settles O3: a word decodes to no operation exactly when its code is not in the map. -/
theorem reservedCodesAreExactlyTheUnlisted : Obligations.ReservedCodesAreExactlyTheUnlisted := decode_eq_reservedOp_iff

/-- Settles O4, word by word. -/
theorem specCommandWordsDecode : Obligations.SpecCommandWordsDecode :=
  ⟨rfl, rfl, rfl, rfl, rfl, rfl, rfl, rfl, rfl⟩

/-! ### Program lines (R72) -/

/-- A program line at an idle engine runs its word, and the host waits while the operation is running. -/
theorem step_programLine {s : State} {w : Word} {rest : List HostMove} (hb : s.busy = false)
    (hh : s.host = .op w :: rest) :
    step s = mapNext hostWaits (runWord w { s with host := rest }) := by
  rw [step_of_move hh, hostMove, if_neg (by simp [hb])]

theorem runWord_op {w : Word} {i : Instr} (hd : decode w = .op i) (s : State) : runWord w s = exec i s := by
  rw [runWord, hd]

/-- R65: a reserved word latches its fields and raises InvalidParameter. -/
theorem runWord_reserved {w : Word} {code : Byte} (hd : decode w = .reservedOp code) (s : State) :
    runWord w s = .next (endWith .invalidParameter (beginReserved w s)) := by
  rw [runWord, hd]
  rfl

/-- Settles O5: the step runs the word, and the word is its operation. -/
theorem stepRunsTheDecodedOperation : Obligations.StepRunsTheDecodedOperation := by
  intro s w rest i hb hh hd
  rw [step_programLine hb hh, runWord_op hd]

/-- Settles O6: the word is rejected, and its one line leaves the engine idle, so the host does not wait. -/
theorem reservedWordEndsInvalidParameter : Obligations.ReservedWordEndsInvalidParameter := by
  intro s w rest hb hh hw
  rw [step_programLine hb hh, runWord_reserved ((decode_eq_reservedOp_iff w).2 hw)]
  rfl

end Sys2Proof.Machine
end

section
/-! PROOFS. The command frame (spec/30_encoding.md R66, R67, spec/42_frame_builder.md R98): its layout and its
two sums. -/

namespace Sys2Proof.Machine

/-! ### Checksums (R81 to R83) -/

theorem neg8_eq_neg (a : Byte) : neg8 a = -a := (BitVec.neg_eq_not_add a).symm

theorem add8_neg8 (a : Byte) : add8 a (neg8 a) = 0 := by
  rw [neg8_eq_neg]
  exact BitVec.add_right_neg a

theorem sum8_append (a b : List Byte) : sum8 (a ++ b) = add8 (sum8 a) (sum8 b) := by
  rw [sum8, List.map_append, List.sum_append, BitVec.ofNat_add]
  rfl

theorem sum8_singleton (b : Byte) : sum8 [b] = b := by simp [sum8]

/-- R83: with its data checksum after it, the direction byte and the frame data sum to zero. -/
theorem sum8_append_dcs (dir : Byte) (d : List Byte) : sum8 (dir :: d ++ [dcs dir d]) = 0 := by
  rw [sum8_append, sum8_singleton, dcs, add8_neg8]

/-- R66, R67: the length byte of at most 64 bytes of frame data does not overflow. -/
theorem lengthByte_toNat {n : Nat} (h : n ≤ 64) : (lengthByte n).toNat = n + 1 := by
  rw [lengthByte, BitVec.toNat_ofNat, Nat.mod_eq_of_lt (by omega)]

/-! ### Layout (R66) -/

/-- From offset 5 on the frame is the checked bytes and the postamble. -/
theorem frameBytes_drop_five (P : Params) (d : List Byte) :
    (frameBytes P d).drop 5 = (P.dirH2C :: d ++ [dcs P.dirH2C d]) ++ [P.postamble] := by
  simp [frameBytes]

/-- Settles O21: the six bytes before the frame data stand by their positions, what follows by the length of `d`. -/
theorem frameLayoutAndSums : Obligations.FrameLayoutAndSums := by
  intro P d _ hle
  have hdata : (frameBytes P d).drop 6 = d ++ [dcs P.dirH2C d, P.postamble] := rfl
  refine ⟨by simp [frameBytes], rfl,
    ⟨lengthByte d.length, lcs (lengthByte d.length), rfl, rfl, lengthByte_toNat hle, add8_neg8 _⟩, rfl, ?_, ?_, ?_⟩
  · rw [hdata, List.take_left]
  · rw [frameBytes_drop_five, List.take_left' (by simp), sum8_append_dcs]
  · rw [show d.length + 7 = 6 + (d.length + 1) by omega, ← List.getElem?_drop, hdata]
    simp

end Sys2Proof.Machine
end

section
/-! PROOFS. The checksums (spec/40_checksum.md R80 to R88): the arithmetic of bytes, the sums that the checksums make
zero, and the three operations that compute them. -/

namespace Sys2Proof.Machine

/-! ### Bytes (R80, R81) -/

theorem add8_toNat (a b : Byte) : (add8 a b).toNat = (a.toNat + b.toNat) % 256 := BitVec.toNat_add a b

theorem not8_toNat (a : Byte) : (not8 a).toNat = 255 - a.toNat := BitVec.toNat_not

theorem neg8_toNat (a : Byte) : (neg8 a).toNat = (256 - a.toNat) % 256 := by
  rw [neg8_eq_neg, BitVec.toNat_neg]

/-- Settles O18, rule by rule. -/
theorem byteArithmeticIsModular : Obligations.ByteArithmeticIsModular :=
  ⟨add8_toNat, fun a => ⟨not8_toNat a, neg8_toNat a, rfl, add8_neg8 a⟩, rfl, rfl, rfl, rfl⟩

/-! ### Sums (R82 to R85) -/

theorem sum8_toNat (s : List Byte) : (sum8 s).toNat = (s.map BitVec.toNat).sum % 256 := BitVec.toNat_ofNat ..

theorem sum8_perm {s s' : List Byte} (h : s.Perm s') : sum8 s = sum8 s' :=
  congrArg (BitVec.ofNat 8) (h.map BitVec.toNat).sum_eq

theorem accumulate_zero (s : List Byte) : accumulate 0 s = sum8 s := by
  rw [accumulate_toNat]
  exact BitVec.zero_add _

/-- Settles O19: the accumulator from 0 is the sum, which does not depend on the order. -/
theorem accumulatorGivesTheSum : Obligations.AccumulatorGivesTheSum := by
  refine ⟨fun s s' hperm => ⟨?_, sum8_toNat s⟩, fun dir d => ?_⟩
  · rw [accumulate_zero, sum8_perm hperm]
  · have hseed : add8 0 dir = dir := BitVec.zero_add dir
    rw [hseed, neg8_accumulate]

theorem add8_comm (a b : Byte) : add8 a b = add8 b a := BitVec.add_comm a b

/-- R81: the two's complement is the one byte that makes a sum zero. -/
theorem add8_eq_zero_iff (a b : Byte) : add8 a b = 0 ↔ b = neg8 a := by
  rw [neg8_eq_neg, add8_comm]
  exact eq_neg_iff_add_eq_zero.symm

/-- Settles O20: both checks ask for a zero sum. -/
theorem checksumsAreTheUniqueOnes : Obligations.ChecksumsAreTheUniqueOnes := by
  refine ⟨fun len c => ?_, fun dir d c => ?_, fun len => ?_, fun dir d => ?_⟩
  · rw [lenOk, beq_iff_eq, add8_eq_zero_iff, lcs]
  · rw [dataOk, beq_iff_eq, add8_eq_zero_iff, dcs]
  · rw [add8_comm, lcs, add8_neg8]
  · rw [add8_comm, dcs, add8_neg8]

/-! ### `CSUM_LCS` and `CSUM_DCS` (R86, R87) -/

/-- Settles O26: the one line writes `RES8`, and the exit follows. -/
theorem csumLcsWritesTheLengthChecksum : Obligations.CsumLcsWritesTheLengthChecksum := by
  intro s arg tmo hb
  rw [exec_idle _ s hb]
  rfl

theorem beginOp_argr_toNat {i : Instr} (ls : List Line) (s : State) (h : i.arg < 256) :
    (beginOp i ls s).argr.toNat = i.arg := argByte_toNat i.arg h

section
variable {s : State} {n : Nat} (hn : s.argr.toNat = n)
include hn

theorem requireCbCount_go (h1 : 1 ≤ n) (h64 : n ≤ 64) : runLine .requireCbCount s = .go s :=
  if_pos ((cbCountOk_iff _).2 (hn ▸ ⟨h1, h64⟩))

theorem requireCbCount_done (h : n = 0 ∨ 64 < n) :
    runLine .requireCbCount s = .done (endWith .invalidParameter s) :=
  if_neg (mt (cbCountOk_iff _).1 (by omega))

theorem csumDcs_go {d : List Byte} (dir : Byte) (hl : d.length = n) (hd : Holds d s.cb) :
    runLine (.csumDcs dir) s =
      .go { s with res8 := some (dcs dir d), acc := sum8 (dir :: d), idx := BitVec.ofNat 7 d.length } := by
  simp only [runLine, lineCsumDcs, hn, ← hl, readRange_of_holds hd, accumulate_eq_sum8, dcs]

theorem csumDcs_fault {j : Nat} (dir : Byte) (h : Memory.readRange s.cb 0 n = .unwritten j) :
    runLine (.csumDcs dir) s = .fault (.unwrittenRead (.cb j)) := by
  simp only [runLine, lineCsumDcs, hn, h]

end

/-- Settles O27: the range check comes first, then the read of the cells, then the checksum of their bytes. -/
theorem csumDcsWritesTheDataChecksum : Obligations.CsumDcsWritesTheDataChecksum := by
  intro s arg tmo hb harg
  rw [exec_idle _ s hb]
  have hn := beginOp_argr_toNat (i := .csumDcs arg tmo) (csumDcsLines Config.params) s harg
  refine ⟨fun d h1 h64 hl hd => ⟨BitVec.ofNat 7 d.length, ?_⟩, fun hout => ?_, fun i h64 hi hnone => ?_⟩
  · exact run_through (through_cons (requireCbCount_go hn h1 h64) (through_one (csumDcs_go hn _ hl hd)))
  · exact run_through_done (through_nil _) (requireCbCount_done hn hout)
  · have hrange : i < 0 + arg := by omega
    obtain ⟨j, -, hji, hj, hstop⟩ := readRange_stops (Nat.zero_le i) hrange hnone
    have hcount := requireCbCount_go hn (Nat.one_le_of_lt hi) h64
    exact ⟨j, hji, hj, run_through_fault (through_one hcount) (csumDcs_fault hn _ hstop)⟩

/-! ### `CSUM_VERIFY` (R88) -/

/-- R88: bit 0 is `LEN_OK` and bit 1 is `DATA_OK`. -/
theorem verifyFlags_eq_ofNat (len dat : Bool) : verifyFlags len dat = BitVec.ofNat 8 (len.toNat + 2 * dat.toNat) := by
  cases len <;> cases dat <;> rfl

theorem imageBounds_of_le {o l : Nat} (h : o + 2 + l ≤ 63) : verifyOffsetOk o = true ∧ verifyLengthOk o l = true :=
  ⟨(verifyOffsetOk_iff o).2 (by omega), (verifyLengthOk_iff o l).2 h⟩

section
variable {s : State} {o : Nat} (ho : s.argr.toNat = o)
include ho

theorem csumVerify_offset_done (h : 63 < o + 2) :
    runLine .csumVerify s = .done (endWith .invalidParameter s) := by
  have hbad : verifyOffsetOk o = false := Bool.eq_false_iff.2 (mt (verifyOffsetOk_iff o).1 (by omega))
  simp [runLine, lineCsumVerify, ho, hbad]

theorem csumVerify_length_unwritten (hoff : o + 2 ≤ 63) (h : Memory.read s.rb o = none) :
    runLine .csumVerify s = .fault (.unwrittenRead (.rb o)) := by
  simp [runLine, lineCsumVerify, ho, (verifyOffsetOk_iff o).2 hoff, h]

variable {len : Byte} (hlen : Memory.read s.rb o = some len)
include hlen

theorem csumVerify_length_done (hoff : o + 2 ≤ 63) (h : 63 < o + 2 + len.toNat) :
    runLine .csumVerify s = .done (endWith .invalidParameter s) := by
  have hbad : verifyLengthOk o len.toNat = false := Bool.eq_false_iff.2 (mt (verifyLengthOk_iff o _).1 (by omega))
  simp [runLine, lineCsumVerify, ho, (verifyOffsetOk_iff o).2 hoff, hlen, hbad]

variable (hin : o + 2 + len.toNat ≤ 63)
include hin

theorem csumVerify_go {lc dc : Byte} {body : List Byte} (hbody : Memory.readRange s.rb (o + 2) len.toNat = .bytes body)
    (hlc : Memory.read s.rb (o + 1) = some lc) (hdc : Memory.read s.rb (o + 2 + len.toNat) = some dc) :
    runLine .csumVerify s = .go { s with
      res8 := some (BitVec.ofNat 8 ((lenOk len lc).toNat + 2 * (dataOk body dc).toNat))
      acc := sum8 body
      idx := BitVec.ofNat 7 len.toNat } := by
  obtain ⟨hoff, hlenOk⟩ := imageBounds_of_le hin
  simp only [runLine, lineCsumVerify, ho, hoff, hlen, hlenOk, hbody, hlc, hdc, Bool.not_true, Bool.false_eq_true,
    if_false, verifyFlags_eq_ofNat, accumulate_zero, dataOk]

/-- Where a cell of the image after `LEN` is unwritten, the fault names one. -/
theorem csumVerify_fault {k : Nat} (hk : o < k) (hk' : k ≤ o + 2 + len.toNat) (hnone : Memory.read s.rb k = none) :
    ∃ j, o < j ∧ j ≤ o + 2 + len.toNat ∧ Memory.read s.rb j = none ∧
      runLine .csumVerify s = .fault (.unwrittenRead (.rb j)) := by
  obtain ⟨hoff, hlenOk⟩ := imageBounds_of_le hin
  cases hbody : Memory.readRange s.rb (o + 2) len.toNat with
  | unwritten j =>
    obtain ⟨hj, hj', hjnone⟩ := readRange_unwritten _ _ _ _ hbody
    exact ⟨j, by omega, by omega, hjnone, by simp [runLine, lineCsumVerify, ho, hoff, hlen, hlenOk, hbody]⟩
  | bytes body =>
    cases hlc : Memory.read s.rb (o + 1) with
    | none =>
      exact ⟨o + 1, by omega, by omega, hlc, by simp [runLine, lineCsumVerify, ho, hoff, hlen, hlenOk, hbody, hlc]⟩
    | some lc =>
      have hlast : k = o + 2 + len.toNat := by
        by_contra hne
        have hne1 : k ≠ o + 1 := by
          rintro rfl
          simp [hlc] at hnone
        obtain ⟨j, -, -, -, hstop⟩ := readRange_stops (a := o + 2) (n := len.toNat) (by omega) (by omega) hnone
        simp [hbody] at hstop
      subst hlast
      exact ⟨_, hk, hk', hnone, by simp [runLine, lineCsumVerify, ho, hoff, hlen, hlenOk, hbody, hlc, hnone]⟩

end

/-- Settles O28: the offset, `LEN`, the bound of the image and its other bytes are looked at in this order. -/
theorem csumVerifyReportsBothChecks : Obligations.CsumVerifyReportsBothChecks := by
  intro s arg tmo hb harg
  rw [exec_idle _ s hb]
  have ho := beginOp_argr_toNat (i := .csumVerify arg tmo) csumVerifyLines s harg
  refine ⟨fun len lc dc body hin hl hlen hlc hread hdc => ⟨BitVec.ofNat 7 len.toNat, ?_⟩, fun hout => ?_,
    fun len hoff hlen hout => ?_, fun hoff hnone => ?_, fun len k hlen hin hk hk' hnone => ?_⟩
  · have hbody : Memory.readRange s.rb (arg + 2) len.toNat = .bytes body :=
      (readRange_eq_bytes _ _ _ _).2 ⟨hl, fun k hk => hread k (hl ▸ hk)⟩
    exact run_through (through_one (csumVerify_go ho hlen hin hbody hlc hdc))
  · exact run_through_done (through_nil _) (csumVerify_offset_done ho hout)
  · exact run_through_done (through_nil _) (csumVerify_length_done ho hlen hoff hout)
  · exact run_through_fault (through_nil _) (csumVerify_length_unwritten ho hoff hnone)
  · obtain ⟨j, hj, hj', hjnone, hfault⟩ := csumVerify_fault ho hlen hin hk hk' hnone
    exact ⟨j, hj, hj', hjnone, run_through_fault (through_nil _) hfault⟩

end Sys2Proof.Machine
end

section
/-! PROOFS. The events of an operation (spec/00_scope.md R7): operations without the transport make none, and no step
takes one back. -/

namespace Sys2Proof.Machine

/-- The record of events only grows, at every step of an operation. -/
theorem runOp_grows {i : Instr} {s t : State} {k : Nat} (ho : OwnSteps k s) (h : runOp k i s = .next t) :
    ∃ es, t.trace = s.trace ++ es := by
  cases hb : s.busy with
  | true => exact ⟨[], by rw [runOp_busy hb ho h, List.append_nil]⟩
  | false =>
    refine runOp_induct (R := fun u => s.trace <+: u.trace) hb ho ⟨[], List.append_nil _⟩ (fun _ _ hu => hu)
      (fun l _ u v hu e => ?_) h |>.imp fun _ => Eq.symm
    obtain ⟨fs, hfs⟩ := e.grows
    exact hu.trans ⟨fs, hfs.symm⟩

/-- What the transport and the clock have of a state: the events, the answers to come, and chip-select. -/
def transportSide (s : State) : List Event × Answers Bool × Answers Word × Answers Byte × Bool :=
  (s.trace, s.readyIn, s.tickIn, s.recvIn, s.sel)

theorem transportSide_eq_iff (s t : State) : transportSide t = transportSide s ↔
    t.trace = s.trace ∧ t.readyIn = s.readyIn ∧ t.tickIn = s.tickIn ∧ t.recvIn = s.recvIn ∧ t.sel = s.sel := by
  simp only [transportSide, Prod.mk.injEq]

/-- Settles O48: every line only adds events, and an operation without the transport has no line that makes one. -/
theorem eventsComeFromTransportOperationsOnly : Obligations.EventsComeFromTransportOperationsOnly := by
  intro i s t k ho h
  refine ⟨runOp_grows ho h, fun hi => (transportSide_eq_iff s t).1 ?_⟩
  exact runOp_keeps_untouched transportSide makesEvent (fun _ _ => rfl) (fun _ => rfl)
    (fun l u v e hl => (transportSide_eq_iff u v).2 (e.quiet hl)) ho h
    (fun l hl he => Bool.eq_false_iff.1 hi (hl.event he))

end Sys2Proof.Machine
end

section
/-! PROOFS. The ACK detector (spec/41_ack_detector.md R90 to R92): the matcher, `ACK_MATCH` and `READ_ACK`. -/

namespace Sys2Proof.Machine

/-! ### The matcher (R90, R91) -/

/-- Settles O22: the matcher compares with one list, byte by byte. -/
theorem ackMatcherAcceptsOneString : Obligations.AckMatcherAcceptsOneString := by
  intro b0 b1 b2 b3 b4 b5
  rw [ackMatches_iff]
  simp only [List.cons.injEq, and_true]

/-- R91: bit 0 is `MATCH`, and the bits above it are zero. -/
theorem matchFlag_ackMatches (bs : List Byte) :
    matchFlag (ackMatches bs) = if bs = [0x00, 0x00, 0xFF, 0x00, 0xFF, 0x00] then 0x01 else 0x00 := by
  by_cases h : bs = [0x00, 0x00, 0xFF, 0x00, 0xFF, 0x00]
  · rw [(ackMatches_iff bs).2 h, if_pos h]
    rfl
  · rw [ackMatches_false bs h, if_neg h]
    rfl

/-! ### `ACK_MATCH` (R91) -/

theorem ackMatch_go {s : State} {bs : List Byte} (hl : bs.length = 6) (hbs : Holds bs s.ackbuf) :
    runLine .ackMatch s = .go { s with
      idx := 6
      res8 := some (if bs = [0x00, 0x00, 0xFF, 0x00, 0xFF, 0x00] then 0x01 else 0x00) } := by
  have hread : Memory.readRange s.ackbuf 0 6 = .bytes bs := by
    rw [← hl, readRange_of_holds hbs]
  simp only [runLine, lineAckMatch, Config.nAck, hread, matchFlag_ackMatches]
  rfl

theorem ackMatch_fault {s : State} {j : Nat} (h : Memory.readRange s.ackbuf 0 6 = .unwritten j) :
    runLine .ackMatch s = .fault (.unwrittenRead (.ackbuf j)) := by
  simp only [runLine, lineAckMatch, Config.nAck, h]

/-- Settles O29: the one line reads the six cells, and stops at an unwritten one. -/
theorem ackMatchReportsTheCompare : Obligations.AckMatchReportsTheCompare := by
  intro s arg tmo hb
  rw [exec_idle _ s hb]
  refine ⟨fun bs hl hbs => ⟨6, ?_⟩, fun i hi hnone => ?_⟩
  · refine run_through (through_one (ackMatch_go hl ?_))
    exact hbs
  · have hrange : i < 0 + 6 := by omega
    obtain ⟨j, -, hji, hj, hstop⟩ := readRange_stops (Nat.zero_le i) hrange hnone
    exact ⟨j, by omega, hj, run_through_fault (through_nil _) (ackMatch_fault hstop)⟩

/-! ### `READ_ACK` (R92) -/

theorem requireBound_of_unbound {s : State} (h : s.bound = false) :
    runLine .requireBound s = .done (endWith .initFailure s) := by
  simp [runLine, lineRequireBound, h]

/-- R92: at a bound engine the six bytes are read whole, and only then does the compare give the status. -/
theorem run_readAckLines {s : State} (P : Params) (h : s.bound = true) :
    runLines (readAckLines P) s = .next (endWith
      (if recvAnswers 6 s = [0x00, 0x00, 0xFF, 0x00, 0xFF, 0x00] then .ok else .ackMismatch) (afterAckRead P s)) := by
  have hbound : Through [.requireBound] s s := through_one (requireBound_of_bound h)
  by_cases hack : recvAnswers 6 s = [0x00, 0x00, 0xFF, 0x00, 0xFF, 0x00]
  · rw [if_pos hack]
    exact run_through (through_append hbound (through_ack P false s ((ackMatches_iff _).2 hack)))
  · rw [if_neg hack]
    exact run_ack_mismatch (rest := [.finish]) P false hbound (ackMatches_false _ hack)

/-- Settles O35: the check of `BOUND` comes first, then the read, then the compare. -/
theorem readAckReadsSixAndCompares : Obligations.ReadAckReadsSixAndCompares := by
  intro s arg tmo hb
  rw [exec_idle _ s hb]
  refine ⟨fun hunbound => ?_, fun hbound => ⟨_, 6, ?_, overwrites_writeRange s.ackbuf _⟩⟩
  · exact run_through_done (ls := []) (through_nil _) (requireBound_of_unbound hunbound)
  · exact run_readAckLines Config.params hbound

end Sys2Proof.Machine
end

section
/-! PROOFS. The frame builder (spec/42_frame_builder.md R95 to R97): `WRITE_COMMAND` sends one frame, or stops before
any event. -/

namespace Sys2Proof.Machine

theorem requireCb_fault {s : State} {n j : Nat} (h : Memory.readRange s.cb 0 n = .unwritten j) :
    runLine (.requireCb n) s = .fault (.unwrittenRead (.cb j)) := by
  simp only [runLine, lineRequireCb, h]

/-- The state once `WRITE_COMMAND` has sent the frame of `d`. -/
def afterWrite (P : Params) (d : List Byte) (s : State) : State :=
  { s with
    sel := false
    lenr := lengthByte d.length
    acc := sum8 (P.dirH2C :: d)
    idx := BitVec.ofNat 7 d.length
    trace := s.trace ++ frameEvents P d }

/-- R97: the cells are looked at before the first event, and then the frame goes out whole. -/
theorem through_checkedWrite (P : Params) {s : State} {d : List Byte} (hd : Holds d s.cb) :
    Through ([.requireCb d.length] ++ writeBody P d.length) s (afterWrite P d s) := by
  have hsend := through_writeBody P { s with idx := BitVec.ofNat 7 d.length } d hd
  rw [accumulate_eq_sum8] at hsend
  exact through_append (through_one (requireCb_of_holds hd)) hsend

theorem exec_writeCommand {s : State} {arg : Nat} (tmo : Nat) (hb : s.busy = false) (harg : arg < 256) :
    exec (.writeCommand arg tmo) s = runLines (writeCommandLines Config.params arg)
      (beginOp (.writeCommand arg tmo) (writeCommandLines Config.params arg) s) := by
  rw [exec_idle _ s hb, linesOf, countOf_small arg harg]

/-- R152, R155: at a bound engine and with a count from 1 to 64, the first two checks pass. -/
theorem through_writeChecks {s : State} {n : Nat} (hn : s.argr.toNat = n) (hbound : s.bound = true) (h1 : 1 ≤ n)
    (h64 : n ≤ 64) : Through [.requireBound, .requireCbCount] s s :=
  through_cons (requireBound_of_bound hbound) (through_one (requireCbCount_go hn h1 h64))

/-- Settles O33: `BOUND`, the count and the cells are looked at in this order, all before the first event. -/
theorem writeCommandSendsTheFrame : Obligations.WriteCommandSendsTheFrame := by
  intro s arg tmo hb harg
  rw [exec_writeCommand tmo hb harg]
  have hn := beginOp_argr_toNat (i := .writeCommand arg tmo) (writeCommandLines Config.params arg) s harg
  refine ⟨fun hunbound => ?_, fun d hbound h1 h64 hl hd => ⟨BitVec.ofNat 7 d.length, ?_⟩, fun hbound hout => ?_,
    fun i hbound h64 hi hnone => ?_⟩
  · exact run_through_done (ls := []) (through_nil _) (requireBound_of_unbound hunbound)
  · subst hl
    exact run_through (through_append (through_writeChecks hn hbound h1 h64) (through_checkedWrite Config.params hd))
  · exact run_through_done (ls := [.requireBound]) (through_one (requireBound_of_bound hbound))
      (requireCbCount_done hn hout)
  · have hrange : i < 0 + arg := by omega
    obtain ⟨j, -, hji, hj, hstop⟩ := readRange_stops (Nat.zero_le i) hrange hnone
    have hchecks := through_writeChecks hn hbound (Nat.one_le_of_lt hi) h64
    exact ⟨j, hji, hj, run_through_fault (ls := [.requireBound, .requireCbCount]) hchecks (requireCb_fault hstop)⟩

end Sys2Proof.Machine
end

section
/-! PROOFS. The ready-wait (spec/43_handshake.md R106, R107, R109): the elapsed time, one round of a wait in flight, and
how a `WAIT_READY` can end. -/

namespace Sys2Proof.Machine

/-! ### The elapsed time (R106) -/

theorem elapsed_toNat (t0 t : Word) : (elapsed t0 t).toNat = (t.toNat + 2 ^ 32 - t0.toNat) % 2 ^ 32 := by
  rw [elapsed, BitVec.toNat_sub]
  have hlt : t0.toNat < 2 ^ 32 := t0.isLt
  rw [show 2 ^ 32 - t0.toNat + t.toNat = t.toNat + 2 ^ 32 - t0.toNat by omega]

/-- Settles O24: the subtraction undoes the wrapped addition. -/
theorem elapsedIsTrueAcrossAWrap : Obligations.ElapsedIsTrueAcrossAWrap := by
  refine ⟨elapsed_toNat, fun t0 d hd => ?_⟩
  rw [elapsed_toNat, BitVec.toNat_ofNat, BitVec.toNat_ofNat]
  omega

/-! ### One round of a wait in flight (R107) -/

/-- A host without a move, or one that waits for the engine, lets a busy engine run on. -/
theorem step_of_waiting_host {s : State} (hb : s.busy = true)
    (hh : ∀ m, s.host.head? = some m → m = .wait ∨ ∃ w, m = .op w) : step s = runLines s.phase s := by
  rw [step]
  split
  · exact if_pos hb
  · next m rest hm =>
    obtain rfl | ⟨w, rfl⟩ := hh m (by simp [hm]) <;> exact if_pos hb

theorem afterReady_of_answers {s : State} {r : Bool} (h : readyAnswers 1 s = [r]) :
    afterReady s = { s with readyIn := Answers.skip 1 s.readyIn, trace := s.trace ++ [.ready r] } := by
  rw [afterReady, readyNow_of_answers h]
  rfl

theorem afterTick_of_answers {s : State} {t : Word} (h : tickAnswers 1 s = [t]) :
    afterTick s = { s with tickIn := Answers.skip 1 s.tickIn, trace := s.trace ++ [.tick t] } := by
  rw [afterTick, tickNow_of_answers h]
  rfl

/-- The state of a wait once a poll has failed and the clock has been read. -/
theorem afterRound_of_answers {s : State} {t : Word} (hr : readyAnswers 1 s = [false]) (ht : tickAnswers 1 s = [t]) :
    afterTick (afterReady s) = { s with
      readyIn := Answers.skip 1 s.readyIn
      tickIn := Answers.skip 1 s.tickIn
      trace := s.trace ++ [.ready false, .tick t] } := by
  have ht' : tickAnswers 1 (afterReady s) = [t] := ht
  rw [afterTick_of_answers ht', afterReady_of_answers hr]
  simp

/-- Settles O14: by the three outcomes of a round. -/
theorem pollStepFollowsReadyThenClock : Obligations.PollStepFollowsReadyThenClock := by
  intro s b x ls hb hp hh
  rw [step_of_waiting_host hb hh, hp, runLines_cons]
  refine ⟨fun hr => ?_, fun hr t ht => ?_⟩
  · have hgo : runLine (.poll b x) s = .go (afterReady s) := if_pos (readyNow_of_answers hr)
    simp only [hgo, afterReady_of_answers hr, hp]
  · have hready : readyNow s = false := readyNow_of_answers hr
    have htick : tickNow s = t := tickNow_of_answers ht
    rcases poll_cases b x s with ⟨htrue, -⟩ | ⟨-, hover, hdone⟩ | ⟨-, hwithin, hagain⟩
    · simp [hready] at htrue
    · rw [htick, lt_elapsed_iff] at hover
      refine ⟨fun _ => ?_, fun hle => absurd hover (Nat.not_lt.2 hle)⟩
      rw [hdone, afterRound_of_answers hr ht]
      cases x <;> rfl
    · rw [htick, lt_elapsed_iff] at hwithin
      refine ⟨fun hlt => absurd hlt hwithin, fun _ => ?_⟩
      rw [hagain, afterRound_of_answers hr ht, ← hp]

/-! ### `WAIT_READY` (R107, R109) -/

theorem budgetOf_tmoHalf {tmo : Nat} (h : tmo < 65536) : (budgetOf .tmor (tmoHalf tmo)).toNat = tmo := by
  simp only [budgetOf, tmoHalf, BitVec.toNat_setWidth, BitVec.toNat_ofNat]
  omega

/-- At a bound engine a `WAIT_READY` is its wait, and then `return Ok`. -/
theorem runOp_waitReady {s : State} (arg tmo k : Nat) (hb : s.busy = false) (hbound : s.bound = true) :
    runOp k (.waitReady arg tmo) s =
      runFor k (waitBody .tmor false ++ [.finish]) (beginOp (.waitReady arg tmo) waitReadyLines s) := by
  rw [runOp_idle k hb]
  have hcheck : runLine .requireBound (beginOp (.waitReady arg tmo) waitReadyLines s) = .go _ :=
    requireBound_of_bound hbound
  exact runFor_through k _ (through_one hcheck)

theorem OwnSteps.of_beginOp {k : Nat} {s : State} (h : OwnSteps k s) (i : Instr) (ls : List Line) :
    k = 0 ∨ ((beginOp i ls s).busy = true ∧ (beginOp i ls s).host = []) := h.imp_right fun hs => ⟨rfl, hs.2⟩

theorem withinBudget_concat {B : Nat} {t0 t : Word} {ts : List Word} (h : WithinBudget B t0 ts)
    (ht : (t.toNat + 2 ^ 32 - t0.toNat) % 2 ^ 32 ≤ B) : WithinBudget B t0 (ts ++ [t]) :=
  List.forall_mem_append.2 ⟨h, List.forall_mem_singleton.2 ht⟩

theorem afterLaterFailure_concat (ts : List Word) (t : Word) (s : State) :
    afterLaterFailure (ts ++ [t]) s = { s with
      t0 := tickNow s
      readyIn := Answers.skip (ts.length + 1) s.readyIn
      tickIn := Answers.skip (ts.length + 2) s.tickIn
      trace := s.trace ++ openEvents (tickNow s) (ts ++ [t]) } := by
  simp [afterLaterFailure]

/-- Settles O58: each failed poll is a step of the wait, and what follows them is its last round. -/
theorem waitReadyEndsAtItsFirstTrueAnswer : Obligations.WaitReadyEndsAtItsFirstTrueAnswer := by
  intro s arg tmo t0 ts hb hbound htmo ho hw
  have hB : (budgetOf .tmor (beginOp (.waitReady arg tmo) waitReadyLines s).tmor).toNat = tmo := budgetOf_tmoHalf htmo
  have hs := ho.of_beginOp (.waitReady arg tmo) waitReadyLines
  rw [runOp_waitReady arg tmo _ hb hbound]
  refine ⟨fun hr ht => ?_, fun t hr ht => ⟨fun hover => ?_, fun hwithin => ?_⟩⟩
  · have hwait := runFor_laterWait (x := false) (ls := [.finish]) 0 hs hB hr ht hw
    rw [Nat.add_zero, runFor_zero] at hwait
    obtain rfl : tickNow s = t0 := tickNow_of_answers ht
    exact hwait
  · obtain rfl : tickNow s = t0 := tickNow_of_answers ht
    rw [runFor_laterTimeout hs hB hr ht hw hover, afterLaterFailure_concat]
    rfl
  · obtain rfl : tickNow s = t0 := tickNow_of_answers ht
    rw [runFor_laterOpen hs hB hr ht (withinBudget_concat hw hwithin), afterLaterFailure_concat]
    rfl

/-- Settles O34: the first round is the one after no failed polls. -/
theorem waitReadyFirstRound : Obligations.WaitReadyFirstRound := by
  intro s arg tmo t0 t hb hbound htmo ht
  have ht1 : tickAnswers 1 s = [t0] := by rw [show tickAnswers 1 s = [tickNow s] from rfl, (tickNow_two ht).1]
  obtain ⟨hready, hlater⟩ :=
    waitReadyEndsAtItsFirstTrueAnswer s arg tmo t0 [] hb hbound htmo (.inl rfl) (by simp [WithinBudget])
  simp only [List.length_nil, runOp_zero] at hready hlater
  refine ⟨fun hr => ?_, fun hr => (hlater t hr ht).1, fun hr => (hlater t hr ht).2⟩
  rw [hready hr ht1, List.append_assoc]
  rfl

/-- The state in which the poll loop of a `WAIT_READY` begins. -/
def waitReadyStart (arg tmo : Nat) (s : State) : State := beginWait (beginOp (.waitReady arg tmo) waitReadyLines s)

section
variable {s : State} {arg tmo n k : Nat} (hb : s.busy = false) (hbound : s.bound = true) (ho : OwnSteps k s)
  (hn : n ≤ k) (hopen : ∀ j, j < n → LeavesOpen .tmor j (waitReadyStart arg tmo s))
include hb hbound ho hn hopen

/-- A `WAIT_READY` that finds the chip ready at round `n`. -/
theorem runOp_waitReady_ready (hr : readyAt n s = true) : runOp k (.waitReady arg tmo) s =
    .next (endWith .ok (afterReady (afterRounds n (waitReadyStart arg tmo s)))) := by
  obtain ⟨m, rfl⟩ := Nat.exists_eq_add_of_le hn
  have hs := ho.of_beginOp (.waitReady arg tmo) waitReadyLines
  rw [runOp_waitReady arg tmo _ hb hbound, runFor_wait_ready n m (hs.imp_left (by omega)) hopen hr]
  exact runFor_done (ls := [.finish]) rfl rfl (hs.imp (by omega) (·.2))

/-- A `WAIT_READY` that overruns its budget at round `n`. -/
theorem runOp_waitReady_over (hover : Overruns .tmor n (waitReadyStart arg tmo s)) : runOp k (.waitReady arg tmo) s =
    .next (endWith .transportTimeout (afterRounds (n + 1) (waitReadyStart arg tmo s))) := by
  obtain ⟨m, rfl⟩ := Nat.exists_eq_add_of_le hn
  rw [runOp_waitReady arg tmo _ hb hbound]
  exact runFor_wait_over n m (ho.of_beginOp (.waitReady arg tmo) waitReadyLines) hopen hover

end

/-- A round that leaves a `WAIT_READY` open, as the facts about numbers the statements speak of. -/
theorem leavesOpen_waitReadyStart {s : State} {arg tmo j : Nat} (htmo : tmo < 65536)
    (h : LeavesOpen .tmor j (waitReadyStart arg tmo s)) :
    readyAt j s = false ∧ ((tickAt (j + 1) s).toNat + 2 ^ 32 - (tickAt 0 s).toNat) % 2 ^ 32 ≤ tmo :=
  budgetOf_tmoHalf htmo ▸ (leavesOpen_iff _ _ _).1 h

theorem overruns_waitReadyStart {s : State} {arg tmo j : Nat} (htmo : tmo < 65536)
    (h : Overruns .tmor j (waitReadyStart arg tmo s)) :
    readyAt j s = false ∧ tmo < ((tickAt (j + 1) s).toNat + 2 ^ 32 - (tickAt 0 s).toNat) % 2 ^ 32 :=
  budgetOf_tmoHalf htmo ▸ (overruns_iff _ _ _).1 h

/-- Settles O59: a wait that has ended was ready or overran its budget at some round, those before it leaving it open. -/
theorem waitReadyEndsOnlySo : Obligations.WaitReadyEndsOnlySo := by
  intro s u arg tmo k hb hbound htmo ho hrun hu
  rcases wait_course k .tmor (waitReadyStart arg tmo s) with ⟨n, hn, hopen, hr⟩ | ⟨n, hn, hopen, hover⟩ | hopen
  · obtain rfl := Host.Outcome.next.inj ((runOp_waitReady_ready hb hbound ho hn hopen hr).symm.trans hrun)
    exact ⟨n, hn, fun j hj => leavesOpen_waitReadyStart htmo (hopen j hj), .inl ⟨rfl, hr⟩⟩
  · obtain rfl := Host.Outcome.next.inj ((runOp_waitReady_over hb hbound ho hn hopen hover).symm.trans hrun)
    exact ⟨n, hn, fun j hj => leavesOpen_waitReadyStart htmo (hopen j hj),
      .inr ⟨rfl, overruns_waitReadyStart htmo hover⟩⟩
  · rw [runOp_waitReady arg tmo k hb hbound,
      runFor_wait_open k (ho.of_beginOp (.waitReady arg tmo) waitReadyLines) hopen] at hrun
    obtain rfl := Host.Outcome.next.inj hrun
    cases hu

end Sys2Proof.Machine
end

section
/-! PROOFS. The data reader (spec/43_handshake.md R108): `READ_DATA` checks `BOUND` and its count, and then reads. -/

namespace Sys2Proof.Machine

theorem requireRbCount_go {s : State} {n : Nat} (hn : s.argr.toNat = n) (h : n ≤ 64) :
    runLine .requireRbCount s = .go s :=
  if_pos ((rbCountOk_iff _).2 (hn ▸ h))

theorem requireRbCount_done {s : State} {n : Nat} (hn : s.argr.toNat = n) (h : 64 < n) :
    runLine .requireRbCount s = .done (endWith .invalidParameter s) :=
  if_neg (mt (rbCountOk_iff _).1 (by omega))

/-- R152: an operation that begins with the check of `BOUND`, at an unbound engine. -/
theorem run_unbound {ls : List Line} {s : State} (h : s.bound = false) :
    runLines (.requireBound :: ls) s = .next (endWith .initFailure s) :=
  run_through_done (ls := []) (through_nil s) (requireBound_of_unbound h)

/-- R152, R155: at a bound engine and with a count up to 64, the first two checks pass. -/
theorem through_readChecks {s : State} {n : Nat} (hn : s.argr.toNat = n) (hbound : s.bound = true) (h : n ≤ 64) :
    Through [.requireBound, .requireRbCount] s s :=
  through_cons (requireBound_of_bound hbound) (through_one (requireRbCount_go hn h))

/-- Settles O36: the two checks come first, in this order, and then the bytes go to `RB` from index 0 up. -/
theorem readDataFillsTheResponseBuffer : Obligations.ReadDataFillsTheResponseBuffer := by
  intro s arg tmo hb harg
  have hn : (beginOp (.readData arg tmo) (readDataLines Config.params arg) s).argr.toNat = arg :=
    beginOp_argr_toNat (i := .readData arg tmo) _ s harg
  rw [exec_idle _ s hb, linesOf, countOf_small arg harg]
  refine ⟨fun hunbound => ?_, fun hbound h64 => ⟨_, BitVec.ofNat 7 arg, ?_, overwrites_writeRange s.rb _⟩,
    fun hbound hout => ?_⟩
  · exact run_unbound hunbound
  · exact run_through (through_append (through_readChecks hn hbound h64) (through_readBody Config.params _ arg))
  · exact run_through_done (ls := [.requireBound]) (through_one (requireBound_of_bound hbound))
      (requireRbCount_done hn hout)

end Sys2Proof.Machine
end

section
/-! PROOFS. The exchange (spec/43_handshake.md R110, R111, R113) when each wait is decided by its first poll: its checks,
its success, its failures, and the waits it leaves open. -/

namespace Sys2Proof.Machine

/-- The state in which the lines of an exchange begin. -/
def exchangeStart (arg tmo : Nat) (s : State) : State :=
  beginOp (.exchange arg tmo) (exchangeLines Config.params arg) s

/-- R111: an exchange is its checks, its handshake and `return Ok`. -/
theorem exec_exchange {s : State} {arg : Nat} (tmo : Nat) (hb : s.busy = false) (harg : arg < 256) :
    exec (.exchange arg tmo) s =
      runLines ([.requireBound, .requireCbCount] ++ (exchangeBody Config.params arg .tmor ++ [.finish]))
        (exchangeStart arg tmo s) := by
  rw [exchangeStart, exec_idle _ s hb, linesOf, countOf_small arg harg, exchangeLines, List.append_assoc]

/-- R152, R155: an operation that begins with the checks of `BOUND` and of the count, the count out of range. -/
theorem run_count_outOfRange {ls : List Line} {s : State} {n : Nat} (hn : s.argr.toNat = n) (hbound : s.bound = true)
    (h : n = 0 ∨ 64 < n) :
    runLines (.requireBound :: .requireCbCount :: ls) s = .next (endWith .invalidParameter s) :=
  run_through_done (ls := [.requireBound]) (through_one (requireBound_of_bound hbound)) (requireCbCount_done hn h)

/-- Settles O52: `BOUND`, the count and the cells are looked at in this order, all before the first event. -/
theorem exchangeChecksComeFirst : Obligations.ExchangeChecksComeFirst := by
  intro s arg tmo hb hbound harg
  rw [exec_exchange tmo hb harg]
  have hn := beginOp_argr_toNat (i := .exchange arg tmo) (exchangeLines Config.params arg) s harg
  refine ⟨fun hout => ?_, fun i h64 hi hnone => ?_⟩
  · exact run_count_outOfRange hn hbound hout
  · have hrange : i < 0 + arg := by omega
    obtain ⟨j, -, hji, hj, hstop⟩ := readRange_stops (Nat.zero_le i) hrange hnone
    have hchecks := through_writeChecks hn hbound (Nat.one_le_of_lt hi) h64
    exact ⟨j, hji, hj, run_through_fault (ls := [.requireBound, .requireCbCount]) hchecks (requireCb_fault hstop)⟩

/-- R152, R155: the first two checks of an exchange pass at a bound engine and with a count from 1 to 64. -/
theorem through_exchangeChecks {s : State} {arg : Nat} (tmo : Nat) (hbound : s.bound = true) (h1 : 1 ≤ arg)
    (h64 : arg ≤ 64) :
    Through [.requireBound, .requireCbCount] (exchangeStart arg tmo s) (exchangeStart arg tmo s) :=
  through_writeChecks (beginOp_argr_toNat (i := .exchange arg tmo) _ s (Nat.lt_of_le_of_lt h64 (by decide))) hbound h1 h64

/-- Settles O37: the parts of the handshake one after the other. -/
theorem exchangeSucceeds : Obligations.ExchangeSucceeds := by
  intro s arg tmo d t1 t2 hb hbound h1 h64 hl hd hr ht hack
  subst hl
  obtain ⟨rfl, rfl⟩ := tickNow_two ht
  have hchecks := through_exchangeChecks tmo hbound h1 h64
  have hbody := through_exchangeBody Config.params .tmor (exchangeStart d.length tmo s) d hd hr ((ackMatches_iff _).2 hack)
  refine ⟨_, 6, ?_, overwrites_writeRange s.ackbuf _⟩
  rw [exec_exchange tmo hb (by omega), ← List.append_assoc, ← hack, ← accumulate_eq_sum8]
  exact run_through (through_append hchecks hbody)

section
variable {s : State} {d : List Byte} {tmo : Nat} (hb : s.busy = false) (hbound : s.bound = true) (h1 : 1 ≤ d.length)
  (h64 : d.length ≤ 64) (hd : Holds d s.cb) (htmo : tmo < 65536)
include hb hbound h1 h64 hd

/-- The six bytes are not the ACK. -/
theorem exec_exchange_ackMismatch (hr : readyNow s = true) (hack : ackMatches (recvAnswers 6 s) = false) :
    exec (.exchange d.length tmo) s = .next (raiseInHandshake true .ackMismatch
      (afterAckRead Config.params (afterWait (afterFrame Config.params d (exchangeStart d.length tmo s))))) := by
  rw [exec_exchange tmo hb (by omega)]
  exact run_exchange_ack Config.params .tmor d (through_exchangeChecks tmo hbound h1 h64) hd hr hack

include htmo

/-- The first poll of the first wait finds the chip not ready. -/
theorem exec_exchange_firstWait {t0 t : Word} (hr : readyAnswers 1 s = [false]) (ht : tickAnswers 2 s = [t0, t]) :
    exec (.exchange d.length tmo) s = .next
      (if tmo < (t.toNat + 2 ^ 32 - t0.toNat) % 2 ^ 32 then
        raiseInHandshake true .transportTimeout
          (afterFailedPoll (afterFrame Config.params d (exchangeStart d.length tmo s)))
      else { afterFailedPoll (afterFrame Config.params d (exchangeStart d.length tmo s)) with
        phase := .poll .tmor true :: (afterFirstWait Config.params .tmor ++ [.finish]) }) := by
  rw [exec_exchange tmo hb (by omega)]
  obtain ⟨rfl, rfl⟩ := tickNow_two ht
  have hrun := run_exchange_firstWait (rest := [.finish]) Config.params .tmor d
    (through_exchangeChecks tmo hbound h1 h64) hd (readyNow_of_answers hr)
  simp only [lt_elapsed_iff] at hrun
  rw [show (budgetOf .tmor (exchangeStart d.length tmo s).tmor).toNat = tmo from budgetOf_tmoHalf htmo] at hrun
  exact hrun

/-- The first poll of the second wait finds the chip not ready. -/
theorem exec_exchange_secondWait {t1 t2 t : Word} (hr : readyAnswers 2 s = [true, false])
    (ht : tickAnswers 3 s = [t1, t2, t]) (hack : recvAnswers 6 s = [0x00, 0x00, 0xFF, 0x00, 0xFF, 0x00]) :
    exec (.exchange d.length tmo) s = .next
      (if tmo < (t.toNat + 2 ^ 32 - t2.toNat) % 2 ^ 32 then
        raiseInHandshake true .transportTimeout
          (afterFailedPoll (afterAck Config.params d (exchangeStart d.length tmo s)))
      else { afterFailedPoll (afterAck Config.params d (exchangeStart d.length tmo s)) with
        phase := [.poll .tmor true, .setHs .responseReady, .finish] }) := by
  rw [exec_exchange tmo hb (by omega)]
  obtain ⟨rfl, rfl, rfl⟩ := tickNow_three ht
  obtain ⟨hr1, hr2⟩ := readyNow_two hr
  have hrun := run_exchange_secondWait (rest := [.finish]) Config.params .tmor d
    (through_exchangeChecks tmo hbound h1 h64) hd hr1 ((ackMatches_iff _).2 hack) hr2
  simp only [lt_elapsed_iff] at hrun
  rw [show (budgetOf .tmor (exchangeStart d.length tmo s).tmor).toNat = tmo from budgetOf_tmoHalf htmo] at hrun
  exact hrun

end

/-- Settles O38: the state at the failing step, with TransportTimeout or AckMismatch raised in it. -/
theorem exchangeFailsAtTheFailingStep : Obligations.ExchangeFailsAtTheFailingStep := by
  intro s arg tmo d hb hbound h1 h64 hl hd htmo
  subst hl
  refine ⟨fun t0 t hr ht hover => ?_, fun t0 hr ht hack => ?_, fun t1 t2 t hr ht hack hover => ?_⟩
  · have hrun := exec_exchange_firstWait hb hbound h1 h64 hd htmo hr ht
    rw [if_pos hover] at hrun
    obtain ⟨rfl, rfl⟩ := tickNow_two ht
    exact ⟨_, hrun, rfl, rfl, rfl, rfl, rfl, rfl, rfl⟩
  · have hrun := exec_exchange_ackMismatch (tmo := tmo) hb hbound h1 h64 hd (readyNow_of_answers hr)
      (ackMatches_false _ hack)
    obtain rfl : tickNow s = t0 := tickNow_of_answers ht
    exact ⟨_, hrun, rfl, rfl, rfl, rfl, overwrites_writeRange s.ackbuf _, rfl, rfl⟩
  · have hrun := exec_exchange_secondWait hb hbound h1 h64 hd htmo hr ht hack
    rw [if_pos hover] at hrun
    obtain ⟨rfl, rfl, rfl⟩ := tickNow_three ht
    exact ⟨_, hrun, rfl, rfl, rfl, rfl, overwrites_writeRange s.ackbuf _, rfl, rfl⟩

/-- Settles O53: the same two states as after an overrun, the wait being open. -/
theorem exchangeGoesOnWaitingWithinItsBudget : Obligations.ExchangeGoesOnWaitingWithinItsBudget := by
  intro s arg tmo d hb hbound h1 h64 hl hd htmo
  subst hl
  rw [← accumulate_eq_sum8]
  refine ⟨fun t0 t hr ht hwithin => ⟨BitVec.ofNat 7 d.length, ?_⟩,
    fun t1 t2 t hr ht hack hwithin => ⟨_, 6, ?_, overwrites_writeRange s.ackbuf _⟩⟩
  · rw [exec_exchange_firstWait hb hbound h1 h64 hd htmo hr ht, if_neg (Nat.not_lt.2 hwithin)]
    obtain ⟨rfl, rfl⟩ := tickNow_two ht
    rfl
  · rw [exec_exchange_secondWait hb hbound h1 h64 hd htmo hr ht hack, if_neg (Nat.not_lt.2 hwithin)]
    obtain ⟨rfl, rfl, rfl⟩ := tickNow_three ht
    rw [← hack]
    rfl

end Sys2Proof.Machine
end

section
/-! PROOFS. The handshake of an exchange or a request after failed polls (spec/43_handshake.md R107, R109, R113,
spec/45_host_ops.md R141): its course from its first wait on, which failed polls only delay. -/

namespace Sys2Proof.Machine

/-! ### The course from the first wait on -/

/-- The state once the second wait has found the chip ready, as the environment leaves it. -/
def afterHandshake (t2 : Word) (w : State) : State :=
  { w with
    hs := .responseReady
    sel := false
    t0 := t2
    ackbuf := Memory.writeRange w.ackbuf 0 (recvAnswers 6 w)
    idx := 6
    recvIn := Answers.skip 6 w.recvIn }

section
variable {P : Params} {b : Budget} {B : Nat} {rest : List Line} {w : State} {t1 t2 t : Word} {ts1 ts2 : List Word}
  (hB : (budgetOf b w.tmor).toNat = B) (hw1 : WithinBudget B t1 ts1) (hh : w.host = []) (hb : w.busy = true)
include hB hw1 hh hb

/-- From the first wait to the second, the ACK matching. -/
theorem runFor_laterSecondWait (k : Nat)
    (hr : readyAnswers (ts1.length + 1) w = List.replicate ts1.length false ++ [true])
    (ht : tickAnswers (ts1.length + 1) w = t1 :: ts1)
    (hack : recvAnswers 6 w = [0x00, 0x00, 0xFF, 0x00, 0xFF, 0x00]) :
    runFor (ts1.length + k) (waitBody b true ++ (afterFirstWait P b ++ rest)) w =
      runFor k (waitBody b true ++ ([.setHs .responseReady] ++ rest))
        { afterAckRead P (afterLaterWait ts1 w) with hs := .waitingReady2 } := by
  rw [runFor_laterWait k (.inr ⟨hb, hh⟩) hB hr ht hw1]
  exact runFor_toSecondWait k P b ((ackMatches_iff _).2 hack)

/-- An ACK that does not match. -/
theorem runFor_laterAckMismatch
    (hr : readyAnswers (ts1.length + 1) w = List.replicate ts1.length false ++ [true])
    (ht : tickAnswers (ts1.length + 1) w = t1 :: ts1)
    (hack : recvAnswers 6 w ≠ [0x00, 0x00, 0xFF, 0x00, 0xFF, 0x00]) :
    runFor ts1.length (waitBody b true ++ (afterFirstWait P b ++ rest)) w =
      .next (raiseInHandshake true .ackMismatch (afterAckRead P (afterLaterWait ts1 w))) := by
  have hwait := runFor_laterWait (x := true) (ls := afterFirstWait P b ++ rest) 0 (.inr ⟨hb, hh⟩) hB hr ht hw1
  rw [Nat.add_zero] at hwait
  rw [hwait]
  exact runFor_ackMismatch P b (ackMatches_false _ hack) (.inl rfl)

variable (hw2 : WithinBudget B t2 ts2) (hack : recvAnswers 6 w = [0x00, 0x00, 0xFF, 0x00, 0xFF, 0x00])
include hw2 hack

/-- Both waits find the chip ready. -/
theorem runFor_handshake
    (hr : readyAnswers (ts1.length + 1 + (ts2.length + 1)) w =
      List.replicate ts1.length false ++ [true] ++ (List.replicate ts2.length false ++ [true]))
    (ht : tickAnswers (ts1.length + 1 + (ts2.length + 1)) w = t1 :: ts1 ++ t2 :: ts2) :
    runFor (ts1.length + ts2.length) (waitBody b true ++ (afterFirstWait P b ++ rest)) w =
      runLines rest (inEnv (Answers.skip (ts1.length + 1 + (ts2.length + 1)) w.readyIn)
        (Answers.skip (ts1.length + 1 + (ts2.length + 1)) w.tickIn)
        (w.trace ++ (openEvents t1 ts1 ++ [.ready true] ++ readEvents P [0x00, 0x00, 0xFF, 0x00, 0xFF, 0x00] ++
          openEvents t2 ts2 ++ [.ready true]))
        (afterHandshake t2 w)) := by
  obtain ⟨hr1, hr2⟩ := take_split (by simp) hr
  obtain ⟨ht1, ht2⟩ := take_split (by simp) ht
  rw [runFor_laterSecondWait hB hw1 hh hb ts2.length hr1 ht1 hack]
  have hwait := runFor_laterWait (x := true) (ls := [.setHs .responseReady] ++ rest) 0
    (s := { afterAckRead P (afterLaterWait ts1 w) with hs := .waitingReady2 }) (.inr ⟨hb, hh⟩) hB hr2 ht2 hw2
  rw [Nat.add_zero, runFor_zero] at hwait
  rw [hwait]
  obtain rfl : tickNow w = t1 := tickNow_of_answers ht1
  obtain rfl : tickNow (afterLaterWait ts1 w) = t2 := (List.cons.inj ht2).1
  rw [← hack, skip_add (ts1.length + 1) _ w.readyIn, skip_add (ts1.length + 1) _ w.tickIn]
  refine congrArg (runLines rest) (?_ : { afterLaterWait ts2 _ with hs := .responseReady } = _)
  simp only [afterLaterWait, inEnv, afterHandshake, afterAckRead, List.append_assoc]
  rfl

/-- The second wait overruns its budget. -/
theorem runFor_handshake_secondTimeout
    (hr : readyAnswers (ts1.length + 1 + (ts2.length + 1)) w =
      List.replicate ts1.length false ++ [true] ++ List.replicate (ts2.length + 1) false)
    (ht : tickAnswers (ts1.length + 1 + (ts2.length + 2)) w = t1 :: ts1 ++ t2 :: (ts2 ++ [t]))
    (hover : B < (t.toNat + 2 ^ 32 - t2.toNat) % 2 ^ 32) :
    runFor (ts1.length + ts2.length) (waitBody b true ++ (afterFirstWait P b ++ rest)) w =
      .next (raiseInHandshake true .transportTimeout (afterLaterFailure (ts2 ++ [t])
        { afterAckRead P (afterLaterWait ts1 w) with hs := .waitingReady2 })) := by
  obtain ⟨hr1, hr2⟩ := take_split (by simp) hr
  obtain ⟨ht1, ht2⟩ := take_split (by simp) ht
  rw [runFor_laterSecondWait hB hw1 hh hb ts2.length hr1 ht1 hack]
  exact runFor_laterTimeout (s := { afterAckRead P (afterLaterWait ts1 w) with hs := .waitingReady2 })
    (.inr ⟨hb, hh⟩) hB hr2 ht2 hw2 hover

end

/-! ### Exchanges and requests -/

/-- The state of an exchange or a request once its frame `d` is sent, `CB` then being `cb`. -/
def handshakeStart (i : Instr) (d : List Byte) (cb : Memory) (s : State) : State :=
  afterFrame Config.params d { beginOp i (linesOf Config.params i) s with cb := cb }

/-- An exchange or a request is its frame, its handshake from the first wait on, and its response with a parse that makes
no event. -/
theorem runOp_handshake {i : Instr} {s : State} {d : List Byte} (hi : isHandshake i = true)
    (hd : SendsData Config.params i s d) :
    ∃ b parse cb, (budgetOf b (tmoHalf i.tmo)).toNat = handshakeBudget Config.params i ∧
      (∀ l ∈ parse, makesEvent l = false) ∧
      ∀ (u : State) (k : Nat), u.cb = s.cb → u.busy = false → u.bound = true →
        runOp k i u = runFor k
          (waitBody b true ++ (afterFirstWait Config.params b ++
            (responseLines Config.params (responseLength i) parse ++ [.finish])))
          (handshakeStart i d cb u) := by
  obtain ⟨pre, b, n, parse, hlines, hB, hparse, hsends⟩ := linesOf_handshake Config.params i hi
  obtain ⟨rfl, cb, hcb, hpre⟩ := hsends s d hd
  refine ⟨b, parse, cb, hB, hparse, fun u k hu hb hbound => ?_⟩
  have hthrough := hpre (beginOp i (linesOf Config.params i) u) hu hbound rfl
  have hframe := runFor_toFirstWait k Config.params b d hthrough hcb
    (rest := responseLines Config.params (responseLength i) parse ++ [.finish])
  rw [← hlines] at hframe
  exact (runOp_idle k hb).trans hframe

theorem withinBudget_nil (B : Nat) (t0 : Word) : WithinBudget B t0 [] := by simp [WithinBudget]

theorem havingUsed_eq_inEnv (m n : Nat) (es : List Event) (s : State) :
    havingUsed m n es s = inEnv (Answers.skip m s.readyIn) (Answers.skip n s.tickIn) (s.trace ++ es) := rfl

/-- The response of a handshake and its parse, from one environment to another (R141). -/
theorem runLines_response_between {P : Params} {i : Instr} {parse : List Line} (hp : ∀ l ∈ parse, makesEvent l = false)
    (r r' : Answers Bool) (k k' : Answers Word) (es es' : List Event) {s u : State}
    (hu : u.recvIn = Answers.skip 6 s.recvIn) :
    runLines (responseLines P (responseLength i) parse ++ [.finish]) (inEnv r k es u) =
      mapNext (inEnv r k (es ++ responseEvents P i s))
        (runLines (responseLines P (responseLength i) parse ++ [.finish]) (inEnv r' k' es' u)) :=
  runLines_response_inEnv (u := inEnv r' k' es' u) hp r k es hu

/-- Settles O56: with and without the failed polls the response begins in one state, but for the environment. -/
theorem laterPollsOnlyDelayTheHandshake : Obligations.LaterPollsOnlyDelayTheHandshake := by
  intro i s d t1 t2 ts1 ts2 hb hbound hh hi hd hw1 hw2 hr ht hack
  obtain ⟨b, parse, cb, hB, hparse, hrun⟩ := runOp_handshake hi hd
  rw [← runOp_zero, hrun s _ rfl hb hbound, hrun (answered _ _ s) 0 rfl hb hbound,
    runFor_handshake (w := handshakeStart i d cb s) hB hw1 hh rfl hw2 hack hr ht]
  refine Eq.trans ?_ (congrArg (mapNext _) (runFor_handshake (w := handshakeStart i d cb (answered [true, true] [t1, t2] s))
    (ts1 := []) (ts2 := []) hB (withinBudget_nil _ t1) hh rfl (withinBudget_nil _ t2) hack rfl rfl).symm)
  simp only [havingUsed_eq_inEnv, ← List.append_assoc]
  exact runLines_response_between hparse _ _ _ _ _ _ (s := s) rfl

/-- Settles O57: with and without the failed polls the same error is raised in one state, but for the environment. -/
theorem laterFailuresAreThoseOfTheFirstPoll : Obligations.LaterFailuresAreThoseOfTheFirstPoll := by
  intro i s d t1 ts1 hb hbound hh hi hd hw1
  obtain ⟨b, parse, cb, hB, -, hrun⟩ := runOp_handshake hi hd
  refine ⟨fun t hr ht hover => ?_, fun hr ht hack => ?_, fun t2 t ts2 hr ht hack hw2 hover => ?_⟩
  all_goals rw [← runOp_zero, hrun s _ rfl hb hbound, hrun (answered _ _ s) 0 rfl hb hbound]
  · rw [runFor_laterTimeout (s := handshakeStart i d cb s) (.inr ⟨rfl, hh⟩) hB hr ht hw1 hover]
    refine Eq.trans ?_ (congrArg (mapNext _) (runFor_laterTimeout (s := handshakeStart i d cb (answered [false] [t1, t] s))
      (ts := []) (.inr ⟨rfl, hh⟩) hB rfl rfl (withinBudget_nil _ t1) hover).symm)
    obtain rfl : tickNow s = t1 := tickNow_of_answers ht
    simp only [afterLaterFailure_concat, havingUsed_eq_inEnv, ← List.append_assoc]
    rfl
  · rw [runFor_laterAckMismatch (w := handshakeStart i d cb s) hB hw1 hh rfl hr ht hack]
    refine Eq.trans ?_ (congrArg (mapNext _) (runFor_laterAckMismatch (w := handshakeStart i d cb (answered [true] [t1] s))
      (ts1 := []) hB (withinBudget_nil _ t1) hh rfl rfl rfl hack).symm)
    obtain rfl : tickNow s = t1 := tickNow_of_answers ht
    simp only [havingUsed_eq_inEnv, ← List.append_assoc]
    rfl
  · rw [runFor_handshake_secondTimeout (w := handshakeStart i d cb s) hB hw1 hh rfl hw2 hack hr ht hover]
    refine Eq.trans ?_ (congrArg (mapNext _) (runFor_handshake_secondTimeout
      (w := handshakeStart i d cb (answered [true, false] [t1, t2, t] s)) (ts1 := []) (ts2 := []) hB
      (withinBudget_nil _ t1) hh rfl (withinBudget_nil _ t2) hack rfl rfl hover).symm)
    obtain ⟨ht1, ht2⟩ := take_split (by simp) ht
    obtain rfl : tickNow s = t1 := tickNow_of_answers ht1
    obtain rfl : Answers.now Config.tickAnswer (Answers.skip (ts1.length + 1) s.tickIn) = t2 := (List.cons.inj ht2).1
    rw [← hack]
    simp only [afterLaterFailure_concat, havingUsed_eq_inEnv, ← List.append_assoc, skip_add (ts1.length + 1)]
    rfl

end Sys2Proof.Machine
end

section
/-! PROOFS. The exchange and the program of its four units (spec/43_handshake.md R112): each unit of the program goes with
a part of the exchange, under the same answers and with the same events. -/

namespace Sys2Proof.Machine

/-- The exchange has ended in `t` as the program has in `u`. -/
def SameEnd (t u : State) : Prop := t.trace = u.trace ∧ t.ackbuf = u.ackbuf ∧ t.err = u.err

/-- The exchange, with `k` more steps to go, is in `v` where the program is in `u`, between two units. -/
structure InStep (tmo k : Nat) (v u : State) : Prop where
  steps : k = 0 ∨ v.host = []
  bound : u.bound = true
  idle : u.busy = false
  busy : v.busy = true
  tmor : v.tmor = tmoHalf tmo
  host : v.host = u.host
  readyIn : v.readyIn = u.readyIn
  tickIn : v.tickIn = u.tickIn
  recvIn : v.recvIn = u.recvIn
  ackbuf : v.ackbuf = u.ackbuf
  trace : v.trace = u.trace

/-- A unit of the program has left `u`: an exchange that ends in `t` has failed where the unit failed, or goes on with the
lines `ls` for `k` more steps. -/
def Follows (tmo k : Nat) (ls : List Line) (t u : State) : Prop :=
  (u.err ≠ .ok ∧ SameEnd t u) ∨ (u.err = .ok ∧ ∃ v, InStep tmo k v u ∧ runFor k ls v = .next t)

/-! ### `WRITE_COMMAND` and the exchange up to its first wait -/

/-- Lines that end the operation end it in the one state, whatever steps follow. -/
theorem eq_of_runFor_of_done {ls : List Line} {s t u : State} {k : Nat} (hrun : runFor k ls s = .next t)
    (hdone : runLines ls s = .next u) (hb : u.busy = false) (hk : k = 0 ∨ u.host = []) : u = t :=
  Host.Outcome.next.inj ((runFor_done hdone hb hk).symm.trans hrun)

theorem not_runFor_next_of_fault {ls : List Line} {s t : State} {f : Fault} {k : Nat}
    (hfault : runLines ls s = .fault f) : runFor k ls s ≠ .next t := by
  simp [runFor, hfault]

/-- The checks of the exchange are those of `WRITE_COMMAND`, and so is the frame. -/
theorem follows_writeCommand {s t : State} {arg tmo k : Nat} (hb : s.busy = false) (ho : OwnSteps k s)
    (hrun : runOp k (.exchange arg tmo) s = .next t) :
    ∃ u, exec (.writeCommand arg tmo) s = .next u ∧
      Follows tmo k (waitBody .tmor true ++ (afterFirstWait Config.params .tmor ++ [.finish])) t u := by
  have hk : k = 0 ∨ s.host = [] := ho.imp_right (·.2)
  rw [runOp_idle k hb, linesOf, exchangeLines, List.append_assoc] at hrun
  rw [exec_idle _ s hb, linesOf]
  cases hbound : s.bound with
  | false =>
    obtain rfl := eq_of_runFor_of_done hrun (run_unbound hbound) rfl hk
    exact ⟨_, run_unbound hbound, .inl ⟨nofun, rfl, rfl, rfl⟩⟩
  | true =>
    by_cases hcount : countOf arg = 0 ∨ 64 < countOf arg
    · obtain rfl := eq_of_runFor_of_done hrun (run_count_outOfRange rfl hbound hcount) rfl hk
      exact ⟨_, run_count_outOfRange rfl hbound hcount, .inl ⟨nofun, rfl, rfl, rfl⟩⟩
    have hchecks : ∀ i ls, i.arg = arg →
        Through [.requireBound, .requireCbCount] (beginOp i ls s) (beginOp i ls s) := by
      rintro i ls rfl
      exact through_writeChecks (s := beginOp i ls s) (n := countOf i.arg) rfl hbound (by omega) (by omega)
    cases hread : Memory.readRange s.cb 0 (countOf arg) with
    | unwritten j =>
      exact absurd hrun (not_runFor_next_of_fault (run_through_fault (ls := [.requireBound, .requireCbCount])
        (hchecks _ _ rfl) (requireCb_fault hread)))
    | bytes d =>
      obtain ⟨hl, hcells⟩ := (readRange_eq_bytes _ _ _ _).1 hread
      have hd : Holds d s.cb := fun i hi => by simpa using hcells i (hl ▸ hi)
      rw [← hl] at hrun ⊢
      rw [runFor_toFirstWait k Config.params .tmor d (hchecks _ _ rfl) hd] at hrun
      have hunit := run_through (through_append
        (hchecks (.writeCommand arg tmo) (writeCommandLines Config.params d.length) rfl)
        (through_checkedWrite Config.params hd))
      refine ⟨_, hunit, .inr ⟨rfl, _, ?_, hrun⟩⟩
      exact ⟨hk, hbound, rfl, rfl, rfl, rfl, rfl, rfl, rfl, rfl, rfl⟩

/-! ### `WAIT_READY` and a wait of the exchange -/

theorem leavesOpen_congr {b : Budget} {n : Nat} {v w : State} (hr : v.readyIn = w.readyIn) (ht : v.tickIn = w.tickIn)
    (hm : v.tmor = w.tmor) (h0 : v.t0 = w.t0) : LeavesOpen b n v ↔ LeavesOpen b n w := by
  simp only [LeavesOpen, readyAt, tickAt, hr, ht, hm, h0]

theorem overruns_congr {b : Budget} {n : Nat} {v w : State} (hr : v.readyIn = w.readyIn) (ht : v.tickIn = w.tickIn)
    (hm : v.tmor = w.tmor) (h0 : v.t0 = w.t0) : Overruns b n v ↔ Overruns b n w := by
  simp only [Overruns, readyAt, tickAt, hr, ht, hm, h0]

section
variable {tmo k : Nat} {v u : State} (h : InStep tmo k v u)
include h

theorem InStep.tickNow : tickNow v = tickNow u := congrArg (Answers.now Config.tickAnswer) h.tickIn

theorem InStep.beginWait_tickIn : (beginWait v).tickIn = (waitReadyStart 0 tmo u).tickIn :=
  congrArg Answers.next h.tickIn

theorem InStep.beginWait_trace : (beginWait v).trace = (waitReadyStart 0 tmo u).trace :=
  congrArg₂ (fun es t => es ++ [Event.tick t]) h.trace h.tickNow

/-- The rounds of the exchange's wait are those of the program's. -/
theorem InStep.leavesOpen_iff (n : Nat) :
    LeavesOpen .tmor n (beginWait v) ↔ LeavesOpen .tmor n (waitReadyStart 0 tmo u) :=
  leavesOpen_congr h.readyIn h.beginWait_tickIn h.tmor h.tickNow

theorem InStep.overruns_iff (n : Nat) :
    Overruns .tmor n (beginWait v) ↔ Overruns .tmor n (waitReadyStart 0 tmo u) :=
  overruns_congr h.readyIn h.beginWait_tickIn h.tmor h.tickNow

theorem InStep.readyAt (n : Nat) : readyAt n v = readyAt n u :=
  congrArg (fun a => Answers.now Config.readyAnswer (Answers.skip n a)) h.readyIn

theorem InStep.afterRounds_trace (n : Nat) :
    (afterRounds n (beginWait v)).trace = (afterRounds n (waitReadyStart 0 tmo u)).trace :=
  afterRounds_trace_congr (s := beginWait v) (t := waitReadyStart 0 tmo u) h.readyIn h.beginWait_tickIn h.beginWait_trace n

/-- After a round that finds the chip ready the exchange and the program are in step again. -/
theorem InStep.afterReady {n m : Nat} (hk : m ≤ k) (hr : Machine.readyAt n v = true) :
    InStep tmo m (afterReady (afterRounds n (beginWait v)))
      (endWith .ok (afterReady (afterRounds n (waitReadyStart 0 tmo u)))) := by
  have hr' : Machine.readyAt n u = true := (h.readyAt n).symm.trans hr
  rw [afterReady_afterRounds (s := beginWait v) hr, afterReady_afterRounds (s := waitReadyStart 0 tmo u) hr',
    h.afterRounds_trace]
  constructor
  case steps => exact h.steps.imp_left (by omega)
  case readyIn => exact congrArg (Answers.skip (n + 1)) h.readyIn
  case tickIn => exact congrArg (Answers.skip n) h.beginWait_tickIn
  case idle | trace => rfl
  case bound => exact h.bound
  case busy => exact h.busy
  case tmor => exact h.tmor
  case host => exact h.host
  case recvIn => exact h.recvIn
  case ackbuf => exact h.ackbuf

end

/-- A wait of the exchange that has ended has gone as `WAIT_READY` goes, in as many steps. -/
theorem InStep.waitReady {tmo k : Nat} {v u t : State} {rest : List Line} (h : InStep tmo k v u)
    (hrun : runFor k (waitBody .tmor true ++ rest) v = .next t) (ht : t.busy = false) :
    ∃ n u', n ≤ k ∧ runOp n (.waitReady 0 tmo) u = .next u' ∧ u'.busy = false ∧ Follows tmo (k - n) rest t u' := by
  have hv : k = 0 ∨ (v.busy = true ∧ v.host = []) := h.steps.imp_right fun hh => ⟨h.busy, hh⟩
  have hu : ∀ n, n ≤ k → OwnSteps n u := fun n hn => h.steps.imp (by omega) fun hh => ⟨h.idle, h.host ▸ hh⟩
  rcases wait_course k .tmor (beginWait v) with ⟨n, hn, hopen, hr⟩ | ⟨n, hn, hopen, hover⟩ | hopen
  · have hunit := runOp_waitReady_ready (arg := 0) (tmo := tmo) h.idle h.bound (hu n hn) le_rfl
      (fun j hj => (h.leavesOpen_iff j).1 (hopen j hj)) ((h.readyAt n).symm.trans hr)
    obtain ⟨m, rfl⟩ := Nat.exists_eq_add_of_le hn
    rw [runFor_wait_ready n m (hv.imp_left (by omega)) hopen hr] at hrun
    refine ⟨n, _, hn, hunit, rfl, .inr ⟨rfl, _, h.afterReady (by omega) hr, ?_⟩⟩
    rw [Nat.add_sub_cancel_left]
    exact hrun
  · have hunit := runOp_waitReady_over (arg := 0) (tmo := tmo) h.idle h.bound (hu n hn) le_rfl
      (fun j hj => (h.leavesOpen_iff j).1 (hopen j hj)) ((h.overruns_iff n).1 hover)
    obtain ⟨m, rfl⟩ := Nat.exists_eq_add_of_le hn
    rw [runFor_wait_over n m hv hopen hover] at hrun
    obtain rfl := Host.Outcome.next.inj hrun
    exact ⟨n, _, hn, hunit, rfl, .inl ⟨nofun, h.afterRounds_trace (n + 1), h.ackbuf, rfl⟩⟩
  · rw [runFor_wait_open k hv hopen] at hrun
    obtain rfl := Host.Outcome.next.inj hrun
    exact absurd (h.busy.symm.trans ht) (by decide)

/-! ### `READ_ACK` and the ACK read of the exchange -/

/-- The ACK read of the exchange goes as `READ_ACK` goes. -/
theorem InStep.readAck {tmo k : Nat} {v u t : State} {rest : List Line} (h : InStep tmo k v u)
    (hrun : runFor k (afterFirstWait Config.params .tmor ++ rest) v = .next t) :
    ∃ u', exec (.readAck 0 0) u = .next u' ∧
      Follows tmo k (waitBody .tmor true ++ ([.setHs .responseReady] ++ rest)) t u' := by
  have hbytes : recvAnswers 6 v = recvAnswers 6 u := by rw [recvAnswers, recvAnswers, h.recvIn]
  have hunit := run_readAckLines (s := beginOp (.readAck 0 0) (readAckLines Config.params) u) Config.params h.bound
  have hack : (afterAckRead Config.params v).ackbuf = (afterAckRead Config.params u).ackbuf := by
    show Memory.writeRange v.ackbuf 0 (recvAnswers 6 v) = Memory.writeRange u.ackbuf 0 (recvAnswers 6 u)
    rw [h.ackbuf, hbytes]
  have htrace : (afterAckRead Config.params v).trace = (afterAckRead Config.params u).trace := by
    show v.trace ++ readEvents _ (recvAnswers 6 v) = u.trace ++ readEvents _ (recvAnswers 6 u)
    rw [h.trace, hbytes]
  refine ⟨_, (exec_idle _ u h.idle).trans hunit, ?_⟩
  by_cases hmatch : recvAnswers 6 u = [0x00, 0x00, 0xFF, 0x00, 0xFF, 0x00]
  · rw [runFor_toSecondWait k Config.params .tmor ((ackMatches_iff _).2 (hbytes.trans hmatch))] at hrun
    refine .inr ⟨if_pos hmatch, _, ?_, hrun⟩
    exact ⟨h.steps, h.bound, rfl, h.busy, h.tmor, h.host, h.readyIn, h.tickIn, congrArg (Answers.skip 6) h.recvIn, hack,
      htrace⟩
  · rw [runFor_ackMismatch Config.params .tmor (ackMatches_false _ (hbytes ▸ hmatch)) h.steps] at hrun
    obtain rfl := Host.Outcome.next.inj hrun
    have herr : (if recvAnswers 6 u = [0x00, 0x00, 0xFF, 0x00, 0xFF, 0x00] then Err.ok else .ackMismatch) = .ackMismatch :=
      if_neg hmatch
    exact .inl ⟨(fun hok => nomatch herr.symm.trans hok), htrace, hack, herr.symm⟩

/-- Settles O39: after each unit the two have failed alike, or are in step. -/
theorem exchangeEqualsItsUnits : Obligations.ExchangeEqualsItsUnits := by
  intro s t arg tmo k hb ho hrun ht
  obtain ⟨u1, hx1, hfail | ⟨hok1, v1, hin1, hrun1⟩⟩ := follows_writeCommand hb ho hrun
  · exact ⟨u1, hx1, .inl hfail⟩
  obtain ⟨n1, u2, hn1, hx2, hidle2, hfail | ⟨hok2, v2, hin2, hrun2⟩⟩ := hin1.waitReady hrun1 ht
  · exact ⟨u1, hx1, .inr ⟨hok1, n1, u2, hn1, hx2, hidle2, .inl hfail⟩⟩
  obtain ⟨u3, hx3, hfail | ⟨hok3, v3, hin3, hrun3⟩⟩ := hin2.readAck hrun2
  · exact ⟨u1, hx1, .inr ⟨hok1, n1, u2, hn1, hx2, hidle2, .inr ⟨hok2, u3, hx3, .inl hfail⟩⟩⟩
  obtain ⟨n2, u4, hn2, hx4, hidle4, hend⟩ := hin3.waitReady hrun3 ht
  have hsame : SameEnd t u4 := by
    rcases hend with ⟨-, hsame⟩ | ⟨hok4, v4, hin4, hrun4⟩
    · exact hsame
    · obtain rfl := eq_of_runFor_of_done hrun4 (u := endWith .ok { v4 with hs := .responseReady }) rfl rfl hin4.steps
      exact ⟨hin4.trace, hin4.ackbuf, hok4.symm⟩
  exact ⟨u1, hx1, .inr ⟨hok1, n1, u2, hn1, hx2, hidle2, .inr ⟨hok2, u3, hx3, .inr ⟨hok3, n2, u4, by omega, hx4, hidle4,
    hsame⟩⟩⟩⟩

end Sys2Proof.Machine
end

section
/-! PROOFS. The response parser (spec/44_response_parser.md R120 to R127): the packing of the version, the three
parsers, and that an operation writes a result only when it succeeds. -/

namespace Sys2Proof.Machine

/-! ### The packing (R122) -/

/-- A byte shifted inside a word loses no bit. -/
theorem shifted_byte_toNat (b : Byte) {n : Nat} (h : n ≤ 24) : (b.setWidth 32 <<< n).toNat = 2 ^ n * b.toNat := by
  have hw : (b.setWidth 32).toNat = b.toNat := BitVec.toNat_setWidth_of_le (by decide)
  have hlt : 2 ^ n * b.toNat < 2 ^ 32 :=
    calc 2 ^ n * b.toNat < 2 ^ n * 2 ^ 8 := Nat.mul_lt_mul_of_pos_left b.isLt (Nat.two_pow_pos n)
      _ = 2 ^ (n + 8) := (Nat.pow_add 2 n 8).symm
      _ ≤ 2 ^ 32 := Nat.pow_le_pow_right (by decide) (by omega)
  rw [BitVec.toNat_shiftLeft, hw, Nat.shiftLeft_eq, Nat.mul_comm, Nat.mod_eq_of_lt hlt]

/-- Settles O23: from the lowest byte up, each byte lies above all the bits below it, so its bits add to theirs. -/
theorem be32PacksBigEndian : Obligations.Be32PacksBigEndian := by
  intro b0 b1 b2 b3
  have hw : (b3.setWidth 32).toNat = b3.toNat := BitVec.toNat_setWidth_of_le (by decide)
  have h1 : b1.toNat < 2 ^ 8 := b1.isLt
  have h2 : b2.toNat < 2 ^ 8 := b2.isLt
  have h3 : b3.toNat < 2 ^ 8 := b3.isLt
  simp only [be32, BitVec.toNat_or, shifted_byte_toNat, Nat.le_refl, Nat.reduceLeDiff, hw, Nat.or_assoc]
  rw [← Nat.two_pow_add_eq_or_of_lt h3, ← Nat.two_pow_add_eq_or_of_lt (i := 16) (by omega),
    ← Nat.two_pow_add_eq_or_of_lt (i := 24) (by omega)]
  omega

/-! ### `PARSE_FWVER` (R123) -/

/-- R121: bytes match the header exactly when the six they begin with are it. -/
theorem headerMatches_append {header h t : List Byte} (hl : h.length = 6) :
    headerMatches header (h ++ t) = true ↔ h = header := by
  rw [headerMatches, List.take_left' hl, beq_iff_eq]

section
variable {s : State} {h : List Byte} {b6 b7 b8 b9 : Byte} (hl : h.length = 6)
  (hread : Memory.readRange s.rb 0 10 = .bytes (h ++ [b6, b7, b8, b9]))
include hl hread

theorem parseFwver_go : runLine (.parseFwver h) s = .go { s with fwver := some (be32 b6 b7 b8 b9), idx := 6 } := by
  simp only [runLine, lineParseFwver, Config.fwOfs, hread, (headerMatches_append hl).2, if_true]
  simp [hl]

theorem parseFwver_done {header : List Byte} (hne : h ≠ header) :
    runLine (.parseFwver header) s = .done (endWith .responseStructureMismatch { s with idx := 6 }) := by
  simp only [runLine, lineParseFwver, Config.fwOfs, hread, headerMatches_append hl, if_neg hne]
  rfl

end

theorem parseFwver_fault {s : State} {j : Nat} (header : List Byte)
    (hread : Memory.readRange s.rb 0 10 = .unwritten j) :
    runLine (.parseFwver header) s = .fault (.unwrittenRead (.rb j)) := by
  simp only [runLine, lineParseFwver, Config.fwOfs, hread]

/-- Settles O30: the one line reads the ten cells, and the first six decide. -/
theorem parseFwverPacksOrRejects : Obligations.ParseFwverPacksOrRejects := by
  intro s arg tmo hb
  rw [exec_idle _ s hb, ← beginOp_rb (.parseFwver arg tmo) (parseFwverLines Config.params) s]
  refine ⟨fun h b6 b7 b8 b9 hl hcells => ⟨6, ?_⟩, fun i hi hnone => ?_⟩
  · have hread := readRange_of_holds hcells
    rw [List.length_append, hl] at hread
    split
    · next heq => exact run_through (through_one (heq ▸ parseFwver_go hl hread))
    · next hne => exact run_through_done (through_nil _) (parseFwver_done hl hread hne)
  · have hrange : i < 0 + 10 := by omega
    obtain ⟨j, -, hji, hj, hstop⟩ := readRange_stops (Nat.zero_le i) hrange hnone
    exact ⟨j, by omega, hj, run_through_fault (through_nil _) (parseFwver_fault _ hstop)⟩

/-! ### `PARSE_SAM` (R124) -/

theorem parseSam_go {s : State} {ok : Byte} (h : Memory.read s.rb 6 = some ok) : runLine (.parseSam ok) s = .go s := by
  simp only [runLine, lineParseSam, Config.samOfs, h, if_true]

theorem parseSam_done {s : State} {b ok : Byte} (h : Memory.read s.rb 6 = some b) (hne : b ≠ ok) :
    runLine (.parseSam ok) s = .done (endWith .responseStructureMismatch s) := by
  simp only [runLine, lineParseSam, Config.samOfs, h, if_neg hne]

theorem parseSam_fault {s : State} (ok : Byte) (h : Memory.read s.rb 6 = none) :
    runLine (.parseSam ok) s = .fault (.unwrittenRead (.rb 6)) := by
  simp only [runLine, lineParseSam, Config.samOfs, h]

/-- Settles O31: by the one cell the line reads. -/
theorem parseSamTestsTheStatusByte : Obligations.ParseSamTestsTheStatusByte := by
  intro s arg tmo hb
  rw [exec_idle _ s hb, ← beginOp_rb (.parseSam arg tmo) (parseSamLines Config.params) s]
  refine ⟨fun b hread => ?_, fun hnone => run_through_fault (through_nil _) (parseSam_fault _ hnone)⟩
  split
  · next heq => exact run_through (through_one (parseSam_go (heq ▸ hread)))
  · next hne => exact run_through_done (through_nil _) (parseSam_done hread hne)

/-! ### `PARSE_TARGET` (R125 to R127) -/

/-- R125: a count above one is an error of its own. -/
theorem tagCountErr_of_two_le {c : Byte} (h : 2 ≤ c.toNat) : tagCountErr c = .multipleTagsUnsupported := by
  have h0 : c ≠ 0 := by
    rintro rfl
    exact absurd h (by decide)
  have h1 : c ≠ Config.ptCountOk := by
    rintro rfl
    exact absurd h (by decide)
  rw [tagCountErr, if_neg h0, if_neg h1]

section
variable {s : State}

theorem parseTarget_count_unwritten (h : Memory.read s.rb 7 = none) :
    runLine .parseTarget s = .fault (.unwrittenRead (.rb 7)) := by
  simp only [runLine, lineParseTarget, Config.ptCountOfs, h]

/-- R127, R158: a count other than one ends the operation before anything else is read. -/
theorem parseTarget_wrongCount {c : Byte} {e : Err} (h : Memory.read s.rb 7 = some c) (he : tagCountErr c = e)
    (hne : e ≠ .ok) : runLine .parseTarget s = .done (endWith e s) := by
  simp only [runLine, lineParseTarget, Config.ptCountOfs, h, he]

variable (hone : Memory.read s.rb 7 = some 1)
include hone

/-- R127: with one tag the count is right, and the UID is extracted. -/
theorem parseTarget_oneTag : runLine .parseTarget s = extractUid s := by
  simp only [runLine, lineParseTarget, Config.ptCountOfs, hone]
  rfl

theorem parseTarget_length_unwritten (h : Memory.read s.rb 12 = none) :
    runLine .parseTarget s = .fault (.unwrittenRead (.rb 12)) := by
  simp only [parseTarget_oneTag hone, extractUid, Config.ptUidLenOfs, h]

variable {len : Byte} (hlen : Memory.read s.rb 12 = some len)
include hlen

theorem parseTarget_overrun (h : 7 < len.toNat) : runLine .parseTarget s = .fault (.uidOverrun len) := by
  simp only [parseTarget_oneTag hone, extractUid, Config.ptUidLenOfs, hlen]
  exact if_pos h

variable (hle : len.toNat ≤ 7)
include hle

theorem parseTarget_go {u : List Byte} (h : Memory.readRange s.rb 13 len.toNat = .bytes u) :
    runLine .parseTarget s = .go { s with
      uidlen := some len
      uid := Memory.writeRange s.uid 0 u
      idx := BitVec.ofNat 7 len.toNat } := by
  simp only [parseTarget_oneTag hone, extractUid, Config.ptUidLenOfs, Config.uidMax, Config.ptUidOfs, hlen,
    if_neg (Nat.not_lt.2 hle), h]

theorem parseTarget_byte_unwritten {j : Nat} (h : Memory.readRange s.rb 13 len.toNat = .unwritten j) :
    runLine .parseTarget s = .fault (.unwrittenRead (.rb j)) := by
  simp only [parseTarget_oneTag hone, extractUid, Config.ptUidLenOfs, Config.uidMax, Config.ptUidOfs, hlen,
    if_neg (Nat.not_lt.2 hle), h]

end

/-- Settles O32: the count, the length and the bytes of the UID are looked at in this order. -/
theorem parseTargetExtractsTheUid : Obligations.ParseTargetExtractsTheUid := by
  intro s arg tmo hb
  rw [exec_idle _ s hb, ← beginOp_rb (.parseTarget arg tmo) parseTargetLines s]
  refine ⟨fun len u h1 hlen hle hl hread => ⟨Memory.writeRange s.uid 0 u, BitVec.ofNat 7 len.toNat, ?_, ?_⟩,
    fun h0 => ?_, fun c hc h2 => ?_, fun len h1 hlen hlong => ?_, fun hnone => ?_, fun h1 hnone => ?_,
    fun len k h1 hlen hle hk hnone => ?_⟩
  · have hbytes := (readRange_eq_bytes _ 13 _ u).2 ⟨hl, fun k hk => hread k (hl ▸ hk)⟩
    exact run_through (through_one (parseTarget_go h1 hlen hle hbytes))
  · exact overwrites_writeRange s.uid u
  · exact run_through_done (through_nil _) (parseTarget_wrongCount h0 rfl nofun)
  · exact run_through_done (through_nil _) (parseTarget_wrongCount hc (tagCountErr_of_two_le h2) nofun)
  · exact run_through_fault (through_nil _) (parseTarget_overrun h1 hlen hlong)
  · exact run_through_fault (through_nil _) (parseTarget_count_unwritten hnone)
  · exact run_through_fault (through_nil _) (parseTarget_length_unwritten h1 hnone)
  · obtain ⟨j, hj, hjk, hjnone, hstop⟩ :=
      readRange_stops (Nat.le_add_right 13 k) (Nat.add_lt_add_left hk 13) hnone
    obtain ⟨m, rfl⟩ := Nat.exists_eq_add_of_le hj
    exact ⟨m, by omega, hjnone, run_through_fault (through_nil _) (parseTarget_byte_unwritten h1 hlen hle hstop)⟩

/-! ### Failures (R120, R156) -/

/-- The result registers at `t` are those of `s`, unless an operation has ended there with success. -/
def ResultsKept (s t : State) : Prop := t.err ≠ .ok ∨ t.busy = true → resultsOf t = resultsOf s

/-- Settles O46: in the lines of an operation, and in those from a poll on, only the last before `return Ok` writes a
result. -/
theorem failureLeavesTheResults : Obligations.FailureLeavesTheResults := by
  intro i s t k hb ho hrun hfail
  have hkept : ResultsKept s t := by
    refine (runOp_stands (Q := ResultsKept s) hb ho (fun u hu hf => ?_) (fun u v b x rest hu hub _ hsuf hv hf => ?_)
      hrun).2
    · rw [exec_idle i s hb] at hu
      obtain ⟨pre, body, hlines, hpre⟩ := linesOf_results Config.params i
      rw [hlines] at hu
      exact runLines_results (s := beginOp i _ s) hpre hu hf
    · obtain ⟨pre, body, hlines, hpre⟩ := linesOf_results_suffix hsuf
      rw [hlines] at hv
      exact (runLines_results hpre hv hf).trans (hu (.inr hub))
  simpa only [resultsOf, Prod.mk.injEq] using hkept hfail

end Sys2Proof.Machine
end

section
/-! PROOFS. The five host operations (spec/45_host_ops.md R135 to R143): `INIT`, the four requests to a chip that
answers at once, and the requests that fail in their handshake or go on waiting. -/

namespace Sys2Proof.Machine

/-! ### `INIT` (R135) -/

theorem bind_go {s : State} (h : handleValid s.argr = true) : runLine .bind s = .go { s with bound := true } :=
  if_pos h

theorem bind_done {s : State} (h : ¬handleValid s.argr = true) :
    runLine .bind s = .done (endWith .initFailure s) :=
  if_neg h

/-- Settles O25: by bit 0 of `ARG`. -/
theorem initBindsOrFails : Obligations.InitBindsOrFails := by
  intro s arg tmo hb
  rw [exec_idle _ s hb]
  split
  · next hodd => exact run_through (through_one (bind_go ((handleValid_iff arg).2 hodd)))
  · next heven => exact run_through_done (through_nil _) (bind_done (mt (handleValid_iff arg).1 heven))

/-! ### Requests that are acknowledged and answered at once (R137 to R141) -/

/-- The first of the bytes that a buffer begins with. -/
theorem holds_of_append {as bs : List Byte} {m : Memory} (h : Holds (as ++ bs) m) : Holds as m := by
  intro i hi
  rw [h i (by rw [List.length_append]; omega), List.getElem?_append_left hi]

/-- A run of cells inside the bytes that a buffer begins with. -/
theorem readRange_of_holds_drop {m : Memory} {r : List Byte} {i n : Nat} (h : Holds r m) (hi : i + n ≤ r.length) :
    Memory.readRange m i n = .bytes ((r.drop i).take n) := by
  refine (readRange_eq_bytes m i n _).2 ⟨by rw [List.length_take, List.length_drop]; omega, fun k hk => ?_⟩
  rw [h (i + k) (by omega), List.getElem?_take_of_lt hk, List.getElem?_drop]

/-- R139, R141: the lines of a request without a response end with its handshake. -/
theorem requestLines_withoutResponse (P : Params) (d : List Byte) (b : Budget) :
    requestLines P d b 0 [] =
      ([.requireBound] ++ loadCbLines 0 d ++ exchangeBody P d.length b) ++ [.finish] := by
  rw [requestLines, responseLines, if_pos rfl, List.append_nil]

/-- The state in which the lines of a request begin its handshake, its frame data being in `CB`. -/
def requestStart (i : Instr) (s : State) : State :=
  { beginOp i (linesOf Config.params i) s with cb := Memory.writeRange s.cb 0 (requestData Config.params i) }

/-- The state of a request once its handshake has succeeded, its two waits beginning at `t1` and `t2` and finding the
chip ready at once. -/
def afterAcknowledge (i : Instr) (t1 t2 : Word) (s : State) : State :=
  { requestStart i s with
    hs := .responseReady
    sel := false
    lenr := lengthByte (requestData Config.params i).length
    acc := sum8 (Config.params.dirH2C :: requestData Config.params i)
    t0 := t2
    ackbuf := Memory.writeRange s.ackbuf 0 [0x00, 0x00, 0xFF, 0x00, 0xFF, 0x00]
    idx := 6
    readyIn := Answers.skip 2 s.readyIn
    tickIn := Answers.skip 2 s.tickIn
    recvIn := Answers.skip 6 s.recvIn
    trace := s.trace ++ frameEvents Config.params (requestData Config.params i) ++ waitEvents t1 ++
      readEvents Config.params [0x00, 0x00, 0xFF, 0x00, 0xFF, 0x00] ++ waitEvents t2 }

/-- The state of a request once, after that, its response `r` has been read. -/
def afterAnswer (i : Instr) (t1 t2 : Word) (r : List Byte) (s : State) : State :=
  { afterAcknowledge i t1 t2 s with
    lenr := BitVec.ofNat 8 (responseLength i)
    rb := Memory.writeRange s.rb 0 r
    idx := BitVec.ofNat 7 (responseLength i)
    recvIn := Answers.skip (6 + responseLength i) s.recvIn
    trace := (afterAcknowledge i t1 t2 s).trace ++ readEvents Config.params r }

theorem holds_afterAnswer (i : Instr) (t1 t2 : Word) (r : List Byte) (s : State) :
    Holds r (afterAnswer i t1 t2 r s).rb :=
  holds_of_overwrites (overwrites_writeRange s.rb r)

section
variable {i : Instr} {s : State} {b : Budget} {t1 t2 : Word} (hb : s.busy = false) (hbound : s.bound = true)
  (hr : readyAnswers 2 s = [true, true]) (ht : tickAnswers 2 s = [t1, t2])
include hbound hr ht

/-- R141: the head of a request and its handshake, with the answers written out. -/
theorem through_acknowledgedRequest (hack : recvAnswers 6 s = [0x00, 0x00, 0xFF, 0x00, 0xFF, 0x00]) :
    Through ([.requireBound] ++ loadCbLines 0 (requestData Config.params i) ++
        exchangeBody Config.params (requestData Config.params i).length b)
      (beginOp i (linesOf Config.params i) s) (afterAcknowledge i t1 t2 s) := by
  refine through_eq (through_requestHandshake Config.params b _ _ hbound hr ((ackMatches_iff _).2 hack)) ?_
  obtain ⟨rfl, rfl⟩ := tickNow_two ht
  rw [afterAcknowledge, ← hack, ← accumulate_eq_sum8]
  rfl

include hb

/-- R139, R141: a request without a response ends with its handshake. -/
theorem exec_acknowledgedRequest (hack : recvAnswers 6 s = [0x00, 0x00, 0xFF, 0x00, 0xFF, 0x00])
    (hlines : linesOf Config.params i = requestLines Config.params (requestData Config.params i) b 0 []) :
    exec i s = .next (endWith .ok (afterAcknowledge i t1 t2 s)) := by
  have hrun := run_through (through_acknowledgedRequest (i := i) (b := b) hbound hr ht hack)
  rw [← requestLines_withoutResponse, ← hlines] at hrun
  exact (exec_idle i s hb).trans hrun

/-- R141: a request with a response goes on, its handshake done and its response read, with its parse. -/
theorem exec_answeredRequest {r : List Byte} {parse : Line}
    (hrecv : recvAnswers (6 + responseLength i) s = [0x00, 0x00, 0xFF, 0x00, 0xFF, 0x00] ++ r)
    (hlines : linesOf Config.params i =
      requestLines Config.params (requestData Config.params i) b (responseLength i) [parse])
    (hn : responseLength i ≠ 0) : exec i s = runLines [parse, .finish] (afterAnswer i t1 t2 r s) := by
  obtain ⟨hack, hresp⟩ := recvAnswers_split (m := 6) rfl hrecv
  have hread : Through (readBody Config.params (responseLength i)) (afterAcknowledge i t1 t2 s)
      (afterAnswer i t1 t2 r s) := by
    refine through_eq (through_readBody Config.params _ _) ?_
    rw [afterAnswer, ← hresp, skip_add]
    rfl
  have hrun := through_append (through_acknowledgedRequest (b := b) hbound hr ht hack) hread [parse, .finish]
  rw [← requestLines_reads _ _ _ _ _ hn, ← hlines] at hrun
  exact (exec_idle i s hb).trans hrun

end

/-- Settles O40: the handshake and the read, and then the parse of the ten bytes up to offset 9. -/
theorem getFirmwareVersionReadsAndPacks : Obligations.GetFirmwareVersionReadsAndPacks := by
  intro s arg tmo t1 t2 h b6 b7 b8 b9 b10 b11 hb hbound hr ht hl hrecv
  have hcells : Holds (h ++ [b6, b7, b8, b9] ++ [b10, b11])
      (afterAnswer (.getFirmwareVersion arg tmo) t1 t2 (h ++ [b6, b7, b8, b9, b10, b11]) s).rb := by
    rw [List.append_assoc]
    exact holds_afterAnswer _ t1 t2 _ s
  have hread := readRange_of_holds (holds_of_append hcells)
  rw [List.length_append, hl] at hread
  refine ⟨_, _, _, 6, ?_, overwrites_writeRange s.cb _, overwrites_writeRange s.ackbuf _, overwrites_writeRange s.rb _⟩
  rw [exec_answeredRequest (i := .getFirmwareVersion arg tmo) hb hbound hr ht hrecv rfl nofun]
  by_cases heq : h = Config.params.fwHeader.toList
  · rw [if_pos heq, if_pos heq]
    subst heq
    exact run_through (through_one (parseFwver_go hl hread))
  · rw [if_neg heq, if_neg heq]
    exact run_through_done (through_nil _) (parseFwver_done hl hread heq)

/-- Settles O41: the handshake and the read, and then the test of the byte at offset 6. -/
theorem configureSamTestsOneByte : Obligations.ConfigureSamTestsOneByte := by
  intro s arg tmo t1 t2 h b6 b7 hb hbound hr ht hl hrecv
  have hread : Memory.read (afterAnswer (.configureSam arg tmo) t1 t2 (h ++ [b6, b7]) s).rb 6 = some b6 := by
    rw [holds_afterAnswer _ _ _ _ _ 6 (by simp [hl]), List.getElem?_append_right (by omega), hl]
    rfl
  refine ⟨_, _, _, 8, ?_, overwrites_writeRange s.cb _, overwrites_writeRange s.ackbuf _, overwrites_writeRange s.rb _⟩
  rw [exec_answeredRequest (i := .configureSam arg tmo) hb hbound hr ht hrecv rfl nofun]
  by_cases heq : b6 = Config.params.samStatusOk
  · rw [if_pos heq]
    exact run_through (through_one (parseSam_go (heq ▸ hread)))
  · rw [if_neg heq]
    exact run_through_done (through_nil _) (parseSam_done hread heq)

/-- Settles O42: the lines end with the handshake. -/
theorem setRetriesStopsAfterTheHandshake : Obligations.SetRetriesStopsAfterTheHandshake := by
  intro s arg tmo t1 t2 hb hbound hr ht hack
  refine ⟨_, _, 6, ?_, overwrites_writeRange s.cb _, overwrites_writeRange s.ackbuf _⟩
  exact exec_acknowledgedRequest hb hbound hr ht hack rfl

/-- R125: a count other than one is an error. -/
theorem tagCountErr_of_ne_one {c : Byte} (h : c ≠ 1) :
    tagCountErr c = if c = 0 then .noTagFound else .multipleTagsUnsupported := by
  rw [tagCountErr, if_neg (show c ≠ Config.ptCountOk from h)]

theorem tagCountErr_ne_ok {c : Byte} (h : c ≠ 1) : tagCountErr c ≠ .ok := by
  rw [tagCountErr_of_ne_one h]
  split <;> nofun

/-- Settles O43: the handshake and the read, and then the count, the length and the bytes of the UID in this order. -/
theorem readPassiveTargetReturnsTheUid : Obligations.ReadPassiveTargetReturnsTheUid := by
  intro s arg tmo t1 t2 r c len hb hbound hr ht hl hrecv hc hlen
  have hcells := holds_afterAnswer (.readPassiveTargetId arg tmo) t1 t2 r s
  have hcount := (hcells 7 (by omega)).trans hc
  have hlength := (hcells 12 (by omega)).trans hlen
  rw [exec_answeredRequest (i := .readPassiveTargetId arg tmo) hb hbound hr ht hrecv rfl nofun]
  refine ⟨fun hfine => ?_, fun hone hlong => ?_⟩
  · by_cases hone : c = 1
    · have hle : len.toNat ≤ 7 := hfine.resolve_left (not_not_intro hone)
      have huid := readRange_of_holds_drop (i := 13) (n := len.toNat) hcells (by omega)
      refine ⟨_, _, _, _, BitVec.ofNat 7 len.toNat, ?_, overwrites_writeRange s.cb _, overwrites_writeRange s.ackbuf _,
        overwrites_writeRange s.rb _, fun _ => overwrites_writeRange s.uid _, fun hne => absurd hone hne⟩
      rw [if_pos hone, if_pos hone]
      exact run_through (through_one (parseTarget_go (hone ▸ hcount) hlength hle huid))
    · refine ⟨_, _, _, _, 20, ?_, overwrites_writeRange s.cb _, overwrites_writeRange s.ackbuf _,
        overwrites_writeRange s.rb _, fun h => absurd h hone, fun _ => rfl⟩
      rw [if_neg hone, if_neg hone, ← tagCountErr_of_ne_one hone]
      exact run_through_done (through_nil _) (parseTarget_wrongCount hcount rfl (tagCountErr_ne_ok hone))
  · exact run_through_fault (through_nil _) (parseTarget_overrun (hone ▸ hcount) hlength hlong)

/-! ### Requests that fail in the handshake or go on waiting (R142, R143, R156) -/

theorem holds_requestStart (i : Instr) (s : State) : Holds (requestData Config.params i) (requestStart i s).cb :=
  holds_of_overwrites (overwrites_writeRange s.cb _)

section
variable {i : Instr} {s : State} (hi : isRequest i = true) (hb : s.busy = false) (hbound : s.bound = true)
include hi hb hbound

/-- R141, R143: a request is the load of its frame data, its handshake within its budget, and the rest. -/
theorem exec_request : ∃ pre b rest, Through pre (beginOp i (linesOf Config.params i) s) (requestStart i s) ∧
    (budgetOf b (requestStart i s).tmor).toNat = requestBudget Config.params i ∧
    exec i s = runLines (pre ++ (exchangeBody Config.params (requestData Config.params i).length b ++ rest))
      (beginOp i (linesOf Config.params i) s) := by
  obtain ⟨b, rest, hlines, hB⟩ := linesOf_request Config.params i hi
  refine ⟨_, b, rest, through_requestHead _ (requestData Config.params i) hbound, hB, ?_⟩
  rw [← hlines]
  exact exec_idle i s hb

/-- The first poll of the first wait finds the chip not ready. -/
theorem exec_request_firstWait {t0 t : Word} (hr : readyAnswers 1 s = [false]) (ht : tickAnswers 2 s = [t0, t]) :
    ∃ ls, exec i s = .next
      (if requestBudget Config.params i < (t.toNat + 2 ^ 32 - t0.toNat) % 2 ^ 32 then
        raiseInHandshake true .transportTimeout
          (afterFailedPoll (afterFrame Config.params (requestData Config.params i) (requestStart i s)))
      else { afterFailedPoll (afterFrame Config.params (requestData Config.params i) (requestStart i s)) with
        phase := ls }) := by
  obtain ⟨pre, b, rest, hpre, hB, hrun⟩ := exec_request hi hb hbound
  obtain ⟨rfl, rfl⟩ := tickNow_two ht
  have hwait := run_exchange_firstWait (rest := rest) Config.params b _ hpre (holds_requestStart i s)
    (readyNow_of_answers hr)
  simp only [lt_elapsed_iff] at hwait
  rw [hB] at hwait
  exact ⟨_, hrun.trans hwait⟩

/-- The six bytes are not the ACK. -/
theorem exec_request_ackMismatch (hr : readyNow s = true) (hack : ackMatches (recvAnswers 6 s) = false) :
    exec i s = .next (raiseInHandshake true .ackMismatch
      (afterAckRead Config.params
        (afterWait (afterFrame Config.params (requestData Config.params i) (requestStart i s))))) := by
  obtain ⟨pre, b, rest, hpre, -, hrun⟩ := exec_request hi hb hbound
  exact hrun.trans (run_exchange_ack Config.params b _ hpre (holds_requestStart i s) hr hack)

/-- The first poll of the second wait finds the chip not ready. -/
theorem exec_request_secondWait {t1 t2 t : Word} (hr : readyAnswers 2 s = [true, false])
    (ht : tickAnswers 3 s = [t1, t2, t]) (hack : recvAnswers 6 s = [0x00, 0x00, 0xFF, 0x00, 0xFF, 0x00]) :
    ∃ ls, exec i s = .next
      (if requestBudget Config.params i < (t.toNat + 2 ^ 32 - t2.toNat) % 2 ^ 32 then
        raiseInHandshake true .transportTimeout
          (afterFailedPoll (afterAck Config.params (requestData Config.params i) (requestStart i s)))
      else { afterFailedPoll (afterAck Config.params (requestData Config.params i) (requestStart i s)) with
        phase := ls }) := by
  obtain ⟨pre, b, rest, hpre, hB, hrun⟩ := exec_request hi hb hbound
  obtain ⟨rfl, rfl, rfl⟩ := tickNow_three ht
  obtain ⟨hr1, hr2⟩ := readyNow_two hr
  have hwait := run_exchange_secondWait (rest := rest) Config.params b _ hpre (holds_requestStart i s) hr1
    ((ackMatches_iff _).2 hack) hr2
  simp only [lt_elapsed_iff] at hwait
  rw [hB] at hwait
  exact ⟨_, hrun.trans hwait⟩

end

/-- Settles O44: the state at the failing step, with the error raised in it or the wait left open. -/
theorem requestsFailInTheHandshake : Obligations.RequestsFailInTheHandshake := by
  intro i s hi hb hbound
  have hcb := overwrites_writeRange s.cb (requestData Config.params i)
  have hackbuf := overwrites_writeRange s.ackbuf (recvAnswers 6 s)
  refine ⟨fun t0 t hr ht => ?_, fun t0 hr ht hack => ?_, fun t1 t2 t hr ht hack => ?_⟩
  · obtain ⟨ls, hrun⟩ := exec_request_firstWait hi hb hbound hr ht
    obtain ⟨rfl, rfl⟩ := tickNow_two ht
    split at hrun
    · next hover => exact ⟨_, hrun, rfl, rfl, rfl, rfl, rfl, rfl, rfl, hcb, rfl, fun _ => ⟨rfl, rfl, rfl⟩,
        fun hwithin => absurd hover (Nat.not_lt.2 hwithin)⟩
    · next hopen => exact ⟨_, hrun, rfl, rfl, rfl, rfl, rfl, rfl, rfl, hcb, rfl, fun hover => absurd hover hopen,
        fun _ => ⟨rfl, rfl, rfl⟩⟩
  · obtain rfl : tickNow s = t0 := tickNow_of_answers ht
    exact ⟨_, exec_request_ackMismatch hi hb hbound (readyNow_of_answers hr) (ackMatches_false _ hack), rfl, rfl, rfl,
      rfl, rfl, rfl, hackbuf, hcb, rfl, rfl, rfl, rfl⟩
  · obtain ⟨ls, hrun⟩ := exec_request_secondWait hi hb hbound hr ht hack
    obtain ⟨rfl, rfl, rfl⟩ := tickNow_three ht
    split at hrun
    · next hover => exact ⟨_, hrun, rfl, rfl, rfl, rfl, rfl, rfl, hackbuf, hcb, rfl, fun _ => ⟨rfl, rfl, rfl⟩,
        fun hwithin => absurd hover (Nat.not_lt.2 hwithin)⟩
    · next hopen => exact ⟨_, hrun, rfl, rfl, rfl, rfl, rfl, rfl, hackbuf, hcb, rfl, fun hover => absurd hover hopen,
        fun _ => ⟨rfl, rfl, rfl⟩⟩

end Sys2Proof.Machine
end

section
/-! PROOFS. The exceptions (spec/60_exceptions.md R152): InitFailure is the first check of every operation that uses the
transport, and the status of `INIT` with an invalid handle. -/

namespace Sys2Proof.Machine

/-- R152: the first line of every operation that uses the transport is the check of `BOUND`. -/
theorem linesOf_usesTransport (P : Params) {i : Instr} (h : usesTransport i = true) :
    ∃ rest, linesOf P i = .requireBound :: rest := by
  by_cases hrequest : isRequest i = true
  · obtain ⟨b, rest, hlines, -⟩ := linesOf_request P i hrequest
    exact ⟨_, hlines⟩
  · cases i with
    | writeCommand | waitReady | readAck | readData | exchange => exact ⟨_, rfl⟩
    | _ => exact absurd h hrequest

/-- R152: at an idle and unbound engine the latches of acceptance are all that such an operation leaves besides its
status. -/
theorem exec_unbound {i : Instr} {s : State} (hb : s.busy = false) (hunbound : s.bound = false)
    (h : usesTransport i = true) : exec i s = .next (ended .initFailure i.opcode i.arg i.tmo s) := by
  obtain ⟨rest, hlines⟩ := linesOf_usesTransport Config.params h
  rw [exec_idle i s hb, hlines]
  exact run_unbound hunbound

/-- R62: `0x00` is the code of `INIT` alone. -/
theorem eq_init_of_opcode {i : Instr} (h : i.opcode = 0x00) : i = .init i.arg i.tmo := by
  cases i with
  | init => rfl
  | _ => simp [Instr.opcode] at h

/-- R135: `INIT` with bit 0 of `ARG` clear. -/
theorem exec_init_of_even {s : State} {arg : Nat} (tmo : Nat) (hb : s.busy = false) (heven : arg % 2 = 0) :
    exec (.init arg tmo) s = .next (ended .initFailure 0x00 arg tmo s) := by
  rw [initBindsOrFails s arg tmo hb, if_neg (by omega)]

/-- Settles O45: by the first line of the operations that use the transport, and by R135 for `INIT`. -/
theorem initFailureIsTheFirstCheck : Obligations.InitFailureIsTheFirstCheck := by
  rintro i s hb (⟨hunbound, htransport⟩ | ⟨hinit, heven⟩)
  · exact exec_unbound hb hunbound htransport
  · obtain ⟨arg, tmo, rfl⟩ : ∃ arg tmo, i = .init arg tmo := ⟨_, _, eq_init_of_opcode hinit⟩
    exact exec_init_of_even tmo hb heven

end Sys2Proof.Machine
end

section
/-! PROOFS. The reset input (spec/70_reset_and_hazards.md R170): a move of the host at an idle engine, and refused while an
operation is in flight (spec/93_implementation_defined.md U5). -/

namespace Sys2Proof.Machine

theorem hostReset_idle {s : State} (hb : s.busy = false) : hostReset s = .next (applyReset s) := by
  simp [hostReset, hb]

theorem hostReset_busy {s : State} (hb : s.busy = true) : hostReset s = .refused .resetWhileBusy := by
  simp [hostReset, hb]

/-- Settles O13: the step is the reset input without its move, decided by `BUSY`. -/
theorem resetInputIsAMoveOnlyWhenIdle : Obligations.ResetInputIsAMoveOnlyWhenIdle := by
  intro s rest hh
  have hstep : step s = hostReset { s with host := rest } := step_of_move hh
  exact ⟨fun hb => hstep.trans (hostReset_idle hb), fun hb => hstep.trans (hostReset_busy hb)⟩

end Sys2Proof.Machine
end
